-- ==== Sys2Proof/Word.lean ====
section
/-! DEFINITION. The plain types of HUFFCORE: bytes, 32-bit words, node indices and bit strings (R12, R13, R35). -/

namespace Sys2Proof

/-- A ByteValue, `SYMBITS` = 8 bits (R8). Compared unsigned (R102, D5). -/
abbrev Byte := BitVec 8

/-- A count, a weight or a length register, `W` = 32 bits (R8). -/
abbrev Word := BitVec 32

/-- A node index, 9 bits, 0 to 510. Index 511 names nothing (R17, R35). -/
abbrev NodeIdx := BitVec 9

/-- A bit string, first bit first. It is not a number (R13). -/
abbrev BitString := List Bool

end Sys2Proof
end

