-- ==== Sys2Proof/Syntax.lean ====
section
/-! DEFINITION. The commands of the opcode map (R72), the host actions of R9 and R78, and the pseudo-commands of R81 to R83. -/

namespace Sys2Proof

/-- The six commands of R72, one constructor per row of spec/opcode_table.json. A command has no operand field (R74). -/
inductive Instr
  | count
  | build
  | mktab
  | encode
  | decode
  | clr
  deriving DecidableEq, Repr

/-- The seven address spaces of R50. -/
inductive Space
  | reg
  | ft
  | ibuf
  | bits
  | obuf
  | node
  | ct
  deriving DecidableEq, Repr

/-- The eleven registers of R21. -/
inductive Reg
  | cmd
  | status
  | ilen
  | blen
  | explen
  | olen
  | nsym
  | root
  | bpos
  | errpos
  | errsym
  deriving DecidableEq, Repr

/-- A host action (R9), as the tuple of R78: (R, space number, index) or (W, space number, index, value); and the reset event,
which the spec calls one more host-side event between steps (R200, U6). The numbers are any naturals: an address that does not
exist is an action too (R60, R61). -/
inductive HostAction
  | read (space index : Nat)
  | write (space index value : Nat)
  | reset
  deriving DecidableEq, Repr

/-- The pseudo-commands of R81 to R83. -/
inductive Pseudo
  | loadin (bytes : List Byte)
  | loadbits (bits : BitString)
  | loadft (entries : List (Byte × Word))
  | compress
  | decompress
  deriving DecidableEq, Repr

end Sys2Proof
end

