-- ==== Sys2Proof/Decode.lean ====
section
/-! DEFINITION. The command decoder, total on all 256 words and rejecting by name (R70 to R73, R76), and after it the encoder,
written from the table of R72. -/

namespace Sys2Proof

/-- Why a command word is no command. -/
inductive DecodeError
  /-- One of the 250 words 0x00 and 0x07 to 0xFF (R76). Raised by `decodeCommand`. Safe: the machine raises IllegalCommand. -/
  | illegalWord (word : Byte)
  deriving DecidableEq, Repr

/-- One row of the opcode map: a word matches when `word &&& mask = code` (R72, R73). -/
structure OpRow where
  mask : Byte
  code : Byte
  instr : Instr
  deriving DecidableEq, Repr

/-- The opcode map of R72. The mask is 0xFF in every row. -/
def opcodeMap : List OpRow :=
  [ { mask := 0xFF#8, code := 0x01#8, instr := .count },
    { mask := 0xFF#8, code := 0x02#8, instr := .build },
    { mask := 0xFF#8, code := 0x03#8, instr := .mktab },
    { mask := 0xFF#8, code := 0x04#8, instr := .encode },
    { mask := 0xFF#8, code := 0x05#8, instr := .decode },
    { mask := 0xFF#8, code := 0x06#8, instr := .clr } ]

/-- Whether a row matches a word. -/
def rowMatches (word : Byte) (row : OpRow) : Bool := word &&& row.mask == row.code

/-- The first row of a map that matches a word. -/
def findRow (word : Byte) : List OpRow → Option OpRow
  | [] => none
  | row :: rows => if rowMatches word row then some row else findRow word rows

/-- R73: the command is the row whose code equals the word, and if there is none the word is illegal. -/
def decodeCommand (word : Byte) : Except DecodeError Instr :=
  match findRow word opcodeMap with
  | some row => .ok row.instr
  | none => .error (.illegalWord word)

/-- R70: the command word is the low 8 bits of the value the host writes to CMD. -/
def commandWord (value : Nat) : Byte := BitVec.ofNat 8 value

/-- The encoder: the `op` column of R72. -/
def encodeCommand : Instr → Byte
  | .count => 0x01#8
  | .build => 0x02#8
  | .mktab => 0x03#8
  | .encode => 0x04#8
  | .decode => 0x05#8
  | .clr => 0x06#8

/-- The command the decoder reads from an instruction whose bits are `w`, `nbits` of them from the table, every bit above 0. -/
def decodeTableWord (nbits w : Nat) : Option Instr :=
  match decodeCommand (commandWord (w % 2 ^ nbits)) with
  | .ok i => some i
  | .error _ => none

theorem decode_count : decodeCommand 0b00000001#8 = .ok .count := by decide
theorem decode_build : decodeCommand 0b00000010#8 = .ok .build := by decide
theorem decode_mktab : decodeCommand 0b00000011#8 = .ok .mktab := by decide
theorem decode_encode_word : decodeCommand 0b00000100#8 = .ok .encode := by decide
theorem decode_decode_word : decodeCommand 0b00000101#8 = .ok .decode := by decide
theorem decode_clr : decodeCommand 0b00000110#8 = .ok .clr := by decide

end Sys2Proof
end

