-- ==== Sys2Proof/Config.lean ====
section
/-! DEFINITION. What an integrator fixes (MAXLEN, MAXBITS: R8, D4, U8), and the free values: what the spec leaves
unspecified (U1 to U6). A free value is an opaque constant with no body: nothing can be proved of its value. -/

namespace Sys2Proof

/-- The model arguments of R8: MAXLEN, the bytes of IBUF and of OBUF, and MAXBITS, the bits of BITS. -/
structure Params where
  maxLen : Nat
  maxBits : Nat
  deriving DecidableEq, Repr

/-- The defaults R8 gives: 65536 bytes and 8·65536 bits. -/
def Params.default : Params := { maxLen := 65536, maxBits := 524288 }

/-- ceil(MAXBITS / 8), the number of bytes of BITS (R20, R50). -/
def Params.bitsBytes (p : Params) : Nat := (p.maxBits + 7) / 8

/-- FREE VALUE (log entry 1): the byte at index `i` of a memory whose unspecified contents are named by `stamp` (U1, U4, U5). -/
opaque Config.freeByte (stamp i : Nat) : BitVec 8

/-- FREE VALUE (log entries 2 and 3): the bits of a NODE record the spec leaves unspecified (U2, U3). -/
opaque Config.freeNodeBits (stamp i : Nat) : BitVec 68

/-- FREE VALUE (log entries 2 and 3): the bits of a CT record the spec leaves unspecified (U2, U3). -/
opaque Config.freeCodeBits (stamp i : Nat) : BitVec 264

end Sys2Proof
end

