-- ==== Sys2Proof/Machine/State.lean ====
section
/-! DEFINITION. The architectural state of HUFFCORE (R20), the errors it records (R181), the reasons a step of the model can stop,
and the state after reset (R48, R200). -/

namespace Sys2Proof.Machine

/-- The `kind` bit of a NODE record: 0 = Leaf, 1 = Internal (R35). -/
inductive NodeKind
  | leaf
  | internal
  deriving DecidableEq, Repr

/-- A record of the NODE arena (R35). -/
structure NodeRec where
  valid : Bool
  kind : NodeKind
  sym : Byte
  minsym : Byte
  weight : Word
  left : NodeIdx
  right : NodeIdx
  deriving DecidableEq, Repr

/-- The all-zero record: what BUILD writes first in every place, and what an unused place holds (R36, R101). -/
def NodeRec.zero : NodeRec :=
  { valid := false, kind := .leaf, sym := 0, minsym := 0, weight := 0, left := 0, right := 0 }

/-- A record from 68 unspecified bits (U2, U3). -/
def NodeRec.ofBits (b : BitVec 68) : NodeRec :=
  { valid := b.getLsbD 67
    kind := if b.getLsbD 66 then .internal else .leaf
    sym := b.extractLsb' 58 8
    minsym := b.extractLsb' 50 8
    weight := b.extractLsb' 18 32
    left := b.extractLsb' 9 9
    right := b.extractLsb' 0 9 }

/-- A record of the code table CT (R39). `code` lists the bit cells from position 0; a cell past its end is 0. -/
structure CodeRec where
  valid : Bool
  len : BitVec 8
  code : BitString
  deriving DecidableEq, Repr

/-- {valid 0, len 0, code ""}: a ByteValue with no code (R121). -/
def CodeRec.empty : CodeRec := { valid := false, len := 0, code := [] }

/-- A record from 264 unspecified bits (U2, U3): valid, len, and the first `len` of 255 bit cells. -/
def CodeRec.ofBits (b : BitVec 264) : CodeRec :=
  { valid := b.getLsbD 263
    len := b.extractLsb' 255 8
    code := (List.range (b.extractLsb' 255 8).toNat).map b.getLsbD }

/-- A byte memory (IBUF, BITS, OBUF): the bytes something has written, by strictly rising address (`Memory.wf`), and the name of
the unspecified contents that every other byte has (U1, log entries 1 and 9). -/
structure Memory where
  cells : List Host.Cell
  stamp : Nat
  deriving DecidableEq, Repr

/-- A memory nothing has written: every byte is the free value that `stamp` names (U1). -/
def Memory.unwritten (stamp : Nat) : Memory := { cells := [], stamp := stamp }

/-- The five errors of R181. -/
inductive Err
  | tableMismatch
  | corruptArtifact
  | illegalCommand
  | sequence
  | capacity
  deriving DecidableEq, Repr

/-- Which command raises an error; DECODE with its count of bits consumed (R186). -/
inductive Raiser
  | dispatch
  | count
  | build
  | mktab
  | encode
  | decode (bpos : Nat)
  deriving DecidableEq, Repr

/-- What the block replies to a host read (R10, R60): a register, count or byte zero-extended to 32 bits, or a record. How a
record is packed on a bus is not modelled (R51, log entry 11). -/
inductive Reply
  | value (v : Word)
  | node (r : NodeRec)
  | code (r : CodeRec)
  deriving DecidableEq, Repr

/-- The reasons the model stops where the spec describes no next state. The block's own errors are NEXT states (R186), so no
constructor stands for one. Neither fault happens in a state that satisfies the invariant of Sys2Proof/Safety.lean. -/
inductive Fault
  /-- MKTAB or DECODE follows ROOT or a child index to 511, which names nothing (R35). Safe: the model stops (log entry 10). -/
  | noSuchNode (index : NodeIdx)
  /-- MKTAB finds a path of more than 255 edges, which only a cyclic arena has (R46, R125). Safe: the model stops (log entry 10). -/
  | pathTooLong
  deriving DecidableEq, Repr

/-- The reasons the model gives no meaning. -/
inductive Refusal
  /-- An instruction with no meaning yet, raised by its arm of `exec`. Safe. No arm raises it in this model. -/
  | notModelled (mnemonic : String)
  /-- `step` in a state whose MAXLEN or MAXBITS is outside the range of R8: U8 says refuse. Safe. -/
  | badParameters
  deriving DecidableEq, Repr

/-- The complete state of HUFFCORE (R20) with its parameters (R8), and the model's own account of the host (R27). -/
structure State where
  /-- REG 0, CMD (R24). -/
  cmd : Byte
  /-- REG 1, STATUS bits 3:0, ERR (R25). -/
  err : BitVec 4
  /-- REG 1, STATUS bit 4 (R25). -/
  treeValid : Bool
  /-- REG 1, STATUS bit 5 (R25). -/
  ctValid : Bool
  /-- REG 1, STATUS bit 6 (R25). -/
  rootValid : Bool
  /-- REG 2 (R22). -/
  ilen : Word
  /-- REG 3 (R22). -/
  blen : Word
  /-- REG 4 (R22). -/
  explen : Word
  /-- REG 5 (R22). -/
  olen : Word
  /-- REG 6 (R22). -/
  nsym : BitVec 9
  /-- REG 7 (R22). -/
  root : NodeIdx
  /-- REG 8 (R22). -/
  bpos : Word
  /-- REG 9 (R26). -/
  errpos : Word
  /-- REG 10 (R26). -/
  errsym : Byte
  /-- The frequency table (R33). -/
  ft : Vector Word 256
  /-- The tree arena (R35). -/
  node : Vector NodeRec 511
  /-- The code table (R39). -/
  ct : Vector CodeRec 256
  /-- The input buffer (R42). -/
  ibuf : Memory
  /-- The bit sequence memory (R43). -/
  bits : Memory
  /-- The output buffer (R44). -/
  obuf : Memory
  /-- MAXLEN and MAXBITS (R8); no step writes them. -/
  params : Params
  /-- MODEL: the host actions not yet performed, oldest first (R27, R80, log entry 8). -/
  pending : List HostAction
  /-- MODEL: the index of the next host action (R27, log entry 8). -/
  hostIndex : Nat
  /-- MODEL: the reply to the last host action (R10, log entry 8). -/
  reply : Option Reply
  /-- MODEL: the name of the next free value (log entry 9). -/
  fresh : Nat
  deriving DecidableEq, Repr

/-- The empty FrequencyTable: every count 0 (R33, R48). -/
def emptyFt : Vector Word 256 := Vector.replicate 256 0#32

/-- The block after a reset, with free values named from `n` on: registers and FT zero, everything else unspecified (R48, R200).
No host action is pending. -/
def State.afterReset (p : Params) (n : Nat) : State :=
  { cmd := 0, err := 0, treeValid := false, ctValid := false, rootValid := false
    ilen := 0, blen := 0, explen := 0, olen := 0, nsym := 0, root := 0, bpos := 0, errpos := 0, errsym := 0
    ft := emptyFt
    node := Vector.ofFn fun i => NodeRec.ofBits (Config.freeNodeBits (n + 3) i.val)
    ct := Vector.ofFn fun i => CodeRec.ofBits (Config.freeCodeBits (n + 4) i.val)
    ibuf := Memory.unwritten n
    bits := Memory.unwritten (n + 1)
    obuf := Memory.unwritten (n + 2)
    params := p
    pending := []
    hostIndex := 0
    reply := none
    fresh := n + 5 }

/-- The machine right after reset, with the default parameters of R8 and nothing asked of it yet. -/
def State.reset : State := State.afterReset Params.default 0

end Sys2Proof.Machine
end

