-- ==== Sys2Proof/Machine/Ops.lean ====
section
/-! DEFINITION. The named operations over memories, tables and bits (R14, R55), taking an error (R186) and the way back (R162,
R188), and the reset event (R200). -/

namespace Sys2Proof.Machine

/-! ### Byte memories -/

/-- The byte listed at index `i`, if any. -/
def cellsFind : List Host.Cell → Nat → Option Byte
  | [], _ => none
  | (a, v) :: cs, i => if a = i then some v else cellsFind cs i

/-- List byte `v` at index `i`, in rising order of index, in place of any byte listed there. -/
def cellsInsert : List Host.Cell → Nat → Byte → List Host.Cell
  | [], i, v => [(i, v)]
  | (a, w) :: cs, i, v =>
    if i < a then (i, v) :: (a, w) :: cs
    else if i = a then (i, v) :: cs
    else (a, w) :: cellsInsert cs i v

/-- The canonical form: addresses strictly rising. An unlisted byte holds no written value (log entry 1), so no entry can equal
what an unlisted one reads as. -/
abbrev Memory.wf (m : Memory) : Prop := m.cells.Pairwise (fun a b => a.1 < b.1)

/-- MemRead(S[i], 1) of a byte space (R14). A byte nothing has written reads as the free value of the memory's stamp (U1). -/
def memRead (m : Memory) (i : Nat) : Byte :=
  match cellsFind m.cells i with
  | some v => v
  | none => Config.freeByte m.stamp i

/-- MemWrite(S[i], 1, v) of a byte space (R14). -/
def memWrite (m : Memory) (i : Nat) (v : Byte) : Memory :=
  { m with cells := cellsInsert m.cells i v }

/-- Write bytes one after another from index `i` up (R44, R133). -/
def memWriteList : Memory → Nat → List Byte → Memory
  | m, _, [] => m
  | m, i, v :: vs => memWriteList (memWrite m i v) (i + 1) vs

/-- Bytes 0 to n − 1 become unspecified, each the free value of `stamp`; the others stay as they were (U5). -/
def memForgetBelow (m : Memory) (n stamp : Nat) : Memory :=
  { m with cells := (List.range n).map (fun a => (a, Config.freeByte stamp a)) ++ m.cells.filter (fun c => decide (n ≤ c.1)) }

/-! ### Bits in bytes -/

/-- Put bit `v` at position `p` of a byte, the rest kept (R55, BitWrite). -/
def putBit (old : Byte) (p : Nat) (v : Bool) : Byte :=
  (old &&& ~~~(1#8 <<< p)) ||| ((if v then 1#8 else 0#8) <<< p)

/-- BitRead(k): bit 7 − (k mod 8) of byte k div 8 (R55). -/
def bitRead (m : Memory) (k : Nat) : Bool := (memRead m (k / 8)).getLsbD (7 - k % 8)

/-- BitWrite(k, v) (R55). -/
def bitWrite (m : Memory) (k : Nat) (v : Bool) : Memory :=
  memWrite m (k / 8) (putBit (memRead m (k / 8)) (7 - k % 8) v)

/-- Byte `j` of a packed bit string: bits 8j to 8j + 7, most significant first, 0 past the end (R55, R133). -/
def packByte (s : BitString) (j : Nat) : Byte :=
  (List.range 8).foldl (fun b t => putBit b (7 - t) (s.getD (8 * j + t) false)) 0#8

/-- The ceil(|s| / 8) bytes of a packed bit string (R55, R133). -/
def packBits (s : BitString) : List Byte :=
  (List.range ((s.length + 7) / 8)).map (packByte s)

/-! ### Tables -/

/-- FT[b]. -/
def ftRead (ft : Vector Word 256) (b : Byte) : Word := ft[b.toNat]'b.isLt

/-- FT[b] <- v. -/
def ftWrite (ft : Vector Word 256) (b : Byte) (v : Word) : Vector Word 256 := ft.set b.toNat v b.isLt

/-- CT[b]. -/
def ctRead (ct : Vector CodeRec 256) (b : Byte) : CodeRec := ct[b.toNat]'b.isLt

/-- CT[b] <- r. -/
def ctWrite (ct : Vector CodeRec 256) (b : Byte) (r : CodeRec) : Vector CodeRec 256 := ct.set b.toNat r b.isLt

/-- NODE[i], none where the index names nothing (R35). -/
def nodeRead (node : Vector NodeRec 511) (i : Nat) : Option NodeRec :=
  if h : i < 511 then some (node[i]'h) else none

/-- NODE[i] <- r, for an index that exists. -/
def nodeWrite (node : Vector NodeRec 511) (i : Nat) (r : NodeRec) : Vector NodeRec 511 :=
  if h : i < 511 then node.set i r h else node

/-- FT[0] + ... + FT[255], exact (R101 check 1, R165). -/
def ftSum (ft : Vector Word 256) : Nat := (ft.toList.map BitVec.toNat).sum

/-! ### Taking an error, and the way back -/

/-- The value of STATUS.ERR for an error (R181). -/
def errCode : Err → BitVec 4
  | .tableMismatch => 1#4
  | .corruptArtifact => 2#4
  | .illegalCommand => 3#4
  | .sequence => 4#4
  | .capacity => 5#4

/-- `raise E(pos, sym)` by the command `c` (R186). What ENCODE and DECODE leave of BITS and OBUF is said by the command, because it
depends on how far it came (U4, U5). -/
def raiseError (c : Raiser) (e : Err) (pos : Nat) (sym : Byte) (s : State) : State :=
  let s := { s with err := errCode e, errpos := BitVec.ofNat 32 pos, errsym := sym }
  match c with
  | .dispatch => s
  | .count => s
  | .build => s
  | .mktab => s
  | .encode => { s with blen := 0 }
  | .decode bpos => { s with olen := 0, bpos := BitVec.ofNat 32 bpos }

/-- What CLR does, the only return from the error state short of reset (R162, R188). -/
def clearState (s : State) : State :=
  { s with
    err := 0, treeValid := false, ctValid := false, rootValid := false
    ilen := 0, blen := 0, explen := 0, olen := 0
    nsym := 0, root := 0, bpos := 0
    errpos := 0, errsym := 0
    cmd := 0
    ft := emptyFt }

/-- The reset event (R200, U6): the block as after reset, its unspecified contents fresh; the parameters and the model's account
of the host stay. -/
def resetEvent (s : State) : State :=
  { State.afterReset s.params s.fresh with pending := s.pending, hostIndex := s.hostIndex, reply := s.reply }

end Sys2Proof.Machine
end

