-- ==== Sys2Proof/Machine/Flags.lean ====
section
/-! DEFINITION. The STATUS register and the validity flags: their word (R25), tree and table invalidation (R31, R32), and the
error-pending rule every command but CLR obeys (R77, R161). The block has no arithmetic flags (R29). -/

namespace Sys2Proof.Machine

/-- STATUS as the host reads it: ERR in bits 3:0, TREE_VALID 4, CT_VALID 5, ROOT_VALID 6, bits 31 to 7 zero (R25). -/
def statusWord (s : State) : Word :=
  (BitVec.ofBool s.rootValid ++ BitVec.ofBool s.ctValid ++ BitVec.ofBool s.treeValid ++ s.err).setWidth 32

/-- Tree invalidation (R31). -/
def invalidateTree (s : State) : State :=
  { s with treeValid := false, rootValid := false, ctValid := false, nsym := 0, root := 0 }

/-- Table invalidation (R32). -/
def invalidateTable (s : State) : State := { s with ctValid := false }

/-- STATUS.ERR ≠ 0: an error is pending (R77). -/
def errorPending (s : State) : Bool := s.err != 0#4

/-- A command other than CLR: ignored while an error is pending (R160, R161). -/
def unlessPending (s : State) (k : State → Host.Outcome State Fault Refusal) : Host.Outcome State Fault Refusal :=
  if errorPending s then .next s else k s

end Sys2Proof.Machine
end

