-- ==== Sys2Proof/Machine/Operands.lean ====
section
/-! DEFINITION. The operands: the implicit ones of the commands (R74, R75), and the (space, index) form of the host port and its
registers (R21, R50, R169). -/

namespace Sys2Proof.Machine

/-- `bytes`: IBUF[0 .. ILEN − 1] in ascending order (R22, R42). -/
def inputBytes (s : State) : List Byte := (List.range s.ilen.toNat).map (memRead s.ibuf)

/-- The `BitSequence`: bits 0 to BLEN − 1 of BITS (R43, R55). -/
def bitSequence (s : State) : BitString := (List.range s.blen.toNat).map (bitRead s.bits)

/-- The code of a CT record: its bit cells 0 to len − 1 (R39). -/
def codeBits (r : CodeRec) : BitString := (List.range r.len.toNat).map (fun j => r.code.getD j false)

/-- The output of DECODE as a host reads it: OBUF[0 .. OLEN − 1] (R22, R44). -/
def outputBytes (s : State) : List Byte := (List.range s.olen.toNat).map (memRead s.obuf)

/-- The space of a number, 0 to 6 (R50). -/
def spaceOfNumber : Nat → Option Space
  | 0 => some .reg
  | 1 => some .ft
  | 2 => some .ibuf
  | 3 => some .bits
  | 4 => some .obuf
  | 5 => some .node
  | 6 => some .ct
  | _ => none

/-- The number of a space (R50). -/
def spaceNumber : Space → Nat
  | .reg => 0
  | .ft => 1
  | .ibuf => 2
  | .bits => 3
  | .obuf => 4
  | .node => 5
  | .ct => 6

/-- How many elements a space has; its indices run from 0 (R50). -/
def elementCount (p : Params) : Space → Nat
  | .reg => 11
  | .ft => 256
  | .ibuf => p.maxLen
  | .bits => p.bitsBytes
  | .obuf => p.maxLen
  | .node => 511
  | .ct => 256

/-- The register of a number, 0 to 10 (R21). -/
def regOfNumber : Nat → Option Reg
  | 0 => some .cmd
  | 1 => some .status
  | 2 => some .ilen
  | 3 => some .blen
  | 4 => some .explen
  | 5 => some .olen
  | 6 => some .nsym
  | 7 => some .root
  | 8 => some .bpos
  | 9 => some .errpos
  | 10 => some .errsym
  | _ => none

/-- The number of a register (R21). -/
def regNumber : Reg → Nat
  | .cmd => 0
  | .status => 1
  | .ilen => 2
  | .blen => 3
  | .explen => 4
  | .olen => 5
  | .nsym => 6
  | .root => 7
  | .bpos => 8
  | .errpos => 9
  | .errsym => 10

/-- A register as the host reads it: zeros in the upper bits of a narrow one (R21). -/
def regRead (s : State) : Reg → Word
  | .cmd => s.cmd.setWidth 32
  | .status => statusWord s
  | .ilen => s.ilen
  | .blen => s.blen
  | .explen => s.explen
  | .olen => s.olen
  | .nsym => s.nsym.setWidth 32
  | .root => s.root.setWidth 32
  | .bpos => s.bpos
  | .errpos => s.errpos
  | .errsym => s.errsym.setWidth 32

/-- What a host write stores in a register, but for what a write to CMD starts: CMD keeps 8 bits, ILEN, BLEN and EXPLEN 32, a
read-only register nothing (R21, R23, R61). -/
def regWrite (s : State) (value : Nat) : Reg → State
  | .cmd => { s with cmd := BitVec.ofNat 8 value }
  | .ilen => { s with ilen := BitVec.ofNat 32 value }
  | .blen => { s with blen := BitVec.ofNat 32 value }
  | .explen => { s with explen := BitVec.ofNat 32 value }
  | .status => s
  | .olen => s
  | .nsym => s
  | .root => s
  | .bpos => s
  | .errpos => s
  | .errsym => s

end Sys2Proof.Machine
end

