-- ==== Sys2Proof/Machine/Build.lean ====
section
/-! DEFINITION. BUILD, the priority-queue-driven deterministic merge (R100 to R115). -/

namespace Sys2Proof.Machine

/-- The transient state of BUILD (R46, R113): the arena so far, the set PQ of node indices and the number of merges done. -/
structure MergeState where
  node : Vector NodeRec 511
  pq : List Nat
  k : Nat
  deriving DecidableEq, Repr

/-- What BUILD writes when its check passes: NODE, NSYM, ROOT and ROOT_VALID (R101). -/
structure TreeResult where
  node : Vector NodeRec 511
  nsym : BitVec 9
  root : NodeIdx
  rootValid : Bool
  deriving DecidableEq, Repr

/-- The priority order `≺` on two records: weight ascending, then minsym ascending, both unsigned (R102, R114, D5). -/
def precedes (a b : NodeRec) : Bool :=
  decide (a.weight < b.weight) || (a.weight == b.weight && decide (a.minsym < b.minsym))

/-- NODE[i] of an index that exists. -/
def nodeAt (node : Vector NodeRec 511) (i : Nat) : NodeRec := (nodeRead node i).getD NodeRec.zero

/-- Of two members, the one that comes first. -/
def earlier (node : Vector NodeRec 511) (i j : Nat) : Nat :=
  if precedes (nodeAt node j) (nodeAt node i) then j else i

/-- ExtractMin(PQ): the member that comes before every other, and PQ without it (R103). None when PQ is empty. -/
def extractMin (node : Vector NodeRec 511) : List Nat → Option (Nat × List Nat)
  | [] => none
  | i :: is =>
    let m := is.foldl (earlier node) i
    some (m, (i :: is).erase m)

/-- The Leaf of ByteValue b with count w (R101, R104). -/
def leafRec (b : Byte) (w : Word) : NodeRec :=
  { valid := true, kind := .leaf, sym := b, minsym := b, weight := w, left := 0, right := 0 }

/-- The smaller of two ByteValues, unsigned (R15, R105). -/
def minSym (a b : Byte) : Byte := if b < a then b else a

/-- The Internal node that merges the first extracted node `a` and the second extracted `c` (R105). The sum cannot wrap (R109). -/
def mergeRec (node : Vector NodeRec 511) (a c : Nat) : NodeRec :=
  { valid := true
    kind := .internal
    sym := 0
    minsym := minSym (nodeAt node a).minsym (nodeAt node c).minsym
    weight := (nodeAt node a).weight + (nodeAt node c).weight
    left := BitVec.ofNat 9 a
    right := BitVec.ofNat 9 c }

/-- Insert the Leaf of b when its count w is not 0 (R104). -/
def insertLeaf (m : MergeState) (b : Nat) (w : Word) : MergeState :=
  if w = 0#32 then m
  else { m with node := nodeWrite m.node b (leafRec (BitVec.ofNat 8 b) w), pq := m.pq ++ [b] }

/-- Insert the Leaves of the counts of ByteValues b, b + 1, and so on (R104). -/
def insertLeaves : List Word → Nat → MergeState → MergeState
  | [], _, m => m
  | w :: ws, b, m => insertLeaves ws (b + 1) (insertLeaf m b w)

/-- NODE cleared, PQ empty, no merge done (R101). -/
def emptyMerge : MergeState := { node := Vector.replicate 511 NodeRec.zero, pq := [], k := 0 }

/-- The start of BUILD: NODE cleared and one Leaf per table entry in PQ (R101, R104). -/
def startMerge (ft : Vector Word 256) : MergeState := insertLeaves ft.toList 0 emptyMerge

/-- One micro-step: one merge (R105, R113). -/
def mergeStep (m : MergeState) : MergeState :=
  match extractMin m.node m.pq with
  | none => m
  | some (a, pq₁) =>
    match extractMin m.node pq₁ with
    | none => m
    | some (c, pq₂) =>
      { node := nodeWrite m.node (256 + m.k) (mergeRec m.node a c)
        pq := (256 + m.k) :: pq₂
        k := m.k + 1 }

/-- `while |PQ| >= 2` (R101), at most `fuel` merges. 255 always suffice (R113). -/
def mergeLoop : Nat → MergeState → MergeState
  | 0, m => m
  | fuel + 1, m => if 2 ≤ m.pq.length then mergeLoop fuel (mergeStep m) else m

/-- REG.ROOT: the one member of PQ, 0 when there is none (R101, R107). -/
def rootOf : List Nat → NodeIdx
  | [] => 0
  | r :: _ => BitVec.ofNat 9 r

/-- The tree of a frequency table, a function of the table alone (R100, R108). -/
def buildTree (ft : Vector Word 256) : TreeResult :=
  { node := (mergeLoop 255 (startMerge ft)).node
    nsym := BitVec.ofNat 9 (startMerge ft).pq.length
    root := rootOf (mergeLoop 255 (startMerge ft)).pq
    rootValid := !(startMerge ft).pq.isEmpty }

/-- BUILD's writes: table invalidation, then the tree (R101). -/
def installTree (t : TreeResult) (s : State) : State :=
  { invalidateTable s with node := t.node, nsym := t.nsym, root := t.root, rootValid := t.rootValid, treeValid := true }

/-- BUILD (R101): Capacity if the exact sum of FT does not fit 32 bits; else the tree of FT. -/
def execBuild (s : State) : Host.Outcome State Fault Refusal :=
  unlessPending s fun s =>
    if 2 ^ 32 - 1 < ftSum s.ft then .next (raiseError .build .capacity 0 0 s)
    else .next (installTree (buildTree s.ft) s)

end Sys2Proof.Machine
end

