-- ==== Sys2Proof/Machine/Clr.lean ====
section
/-! DEFINITION. CLR (R162, R163). -/

namespace Sys2Proof.Machine

/-- CLR (R162): always accepted, whatever STATUS.ERR holds. -/
def execClr (s : State) : Host.Outcome State Fault Refusal := .next (clearState s)

end Sys2Proof.Machine
end

