-- ==== Sys2Proof/Machine/Count.lean ====
section
/-! DEFINITION. COUNT, the frequency counter (R90 to R94). -/

namespace Sys2Proof.Machine

/-- One micro-step: count one byte (R91, R93). The increment cannot wrap (R92). -/
def countByte (ft : Vector Word 256) (b : Byte) : Vector Word 256 := ftWrite ft b (ftRead ft b + 1#32)

/-- The FrequencyTable of a buffer: FT cleared, then each byte counted in ascending order (R91, R94). -/
def countBytes (bytes : List Byte) : Vector Word 256 := bytes.foldl countByte emptyFt

/-- COUNT (R91): Capacity if ILEN > MAXLEN; else tree invalidation and the table of the input. -/
def execCount (s : State) : Host.Outcome State Fault Refusal :=
  unlessPending s fun s =>
    if s.params.maxLen < s.ilen.toNat then .next (raiseError .count .capacity 0 0 s)
    else .next { invalidateTree s with ft := countBytes (inputBytes s) }

end Sys2Proof.Machine
end

