-- ==== Sys2Proof/Machine/Encode.lean ====
section
/-! DEFINITION. ENCODE, code-table lookup and bit packing (R130 to R139). -/

namespace Sys2Proof.Machine

/-- How ENCODE's loop ends: with the bit string, or at input byte `b` of index `i` with TableMismatch or Capacity (R131). -/
inductive EncodeEnd
  | done (bits : BitString)
  | mismatch (i : Nat) (b : Byte)
  | overflow (i : Nat) (b : Byte)
  deriving DecidableEq, Repr

/-- Put a code in front of the bit string the rest of the loop ends with. -/
def prependCode (code : BitString) : EncodeEnd → EncodeEnd
  | .done bits => .done (code ++ bits)
  | .mismatch i b => .mismatch i b
  | .overflow i b => .overflow i b

/-- The loop of R131 over the input bytes from index `i` on, with `pos` bits laid down before: at each byte TableMismatch (R134),
then Capacity (R135), then the code (R132). -/
def encodeFrom (ct : Vector CodeRec 256) (maxBits : Nat) : List Byte → Nat → Nat → EncodeEnd
  | [], _, _ => .done []
  | b :: bs, i, pos =>
    if (ctRead ct b).valid then
      if maxBits < pos + (ctRead ct b).len.toNat then .overflow i b
      else prependCode (codeBits (ctRead ct b)) (encodeFrom ct maxBits bs (i + 1) (pos + (ctRead ct b).len.toNat))
    else .mismatch i b

/-- The result of ENCODE (R132, R133): exactly ceil(BLEN / 8) bytes from BITS[0], padding bits 0, and BLEN. -/
def storeSequence (bits : BitString) (s : State) : State :=
  { s with bits := memWriteList s.bits 0 (packBits bits), blen := BitVec.ofNat 32 bits.length }

/-- Every byte of BITS becomes unspecified (U4, log entry 4). -/
def forgetBits (s : State) : State := { s with bits := Memory.unwritten s.fresh, fresh := s.fresh + 1 }

/-- What ENCODE leaves, by how its loop ended (R131, R186). -/
def finishEncode (s : State) : EncodeEnd → State
  | .done bits => storeSequence bits s
  | .mismatch i b => raiseError .encode .tableMismatch i b (forgetBits s)
  | .overflow i b => raiseError .encode .capacity i b (forgetBits s)

/-- ENCODE (R131): Sequence if CT_VALID = 0, Capacity if ILEN > MAXLEN, then the loop. -/
def execEncode (s : State) : Host.Outcome State Fault Refusal :=
  unlessPending s fun s =>
    if s.ctValid then
      if s.params.maxLen < s.ilen.toNat then .next (raiseError .encode .capacity 0 0 s)
      else .next (finishEncode s (encodeFrom s.ct s.params.maxBits (inputBytes s) 0 0))
    else .next (raiseError .encode .sequence 0 0 s)

end Sys2Proof.Machine
end

