-- ==== Sys2Proof/Machine/Mktab.lean ====
section
/-! DEFINITION. MKTAB, the code table builder (R120 to R129). -/

namespace Sys2Proof.Machine

/-- Every entry invalid (R121, R124). -/
def emptyCt : Vector CodeRec 256 := Vector.replicate 256 CodeRec.empty

/-- The entry {valid 1, len |path|, code path} (R121, R122). -/
def pathRec (path : BitString) : CodeRec := { valid := true, len := BitVec.ofNat 8 path.length, code := path }

/-- Walk(i, path) (R121): depth first, left before right. `fuel` bounds the number of nodes on a path: 256, so that a path has at
most 255 edges (R125). -/
def walkTree (node : Vector NodeRec 511) : Nat → NodeIdx → BitString → Vector CodeRec 256 → Except Fault (Vector CodeRec 256)
  | 0, _, _, _ => .error .pathTooLong
  | fuel + 1, i, path, ct =>
    match nodeRead node i.toNat with
    | none => .error (.noSuchNode i)
    | some r =>
      match r.kind with
      | .leaf => .ok (ctWrite ct r.sym (pathRec path))
      | .internal =>
        match walkTree node fuel r.left (path ++ [false]) ct with
        | .error f => .error f
        | .ok ct' => walkTree node fuel r.right (path ++ [true]) ct'

/-- The code table of a tree that has a root: the single-symbol code "0" for a lone Leaf (R123), else the paths (R122). -/
def rootedTable (node : Vector NodeRec 511) (root : NodeIdx) : Except Fault (Vector CodeRec 256) :=
  match nodeRead node root.toNat with
  | none => .error (.noSuchNode root)
  | some r =>
    match r.kind with
    | .leaf => .ok (ctWrite emptyCt r.sym (pathRec [false]))
    | .internal => walkTree node 256 root [] emptyCt

/-- The code table of a tree, a function of (NODE, ROOT, ROOT_VALID) alone; the empty table for the empty tree (R120, R124). -/
def codeTable (node : Vector NodeRec 511) (root : NodeIdx) (rootValid : Bool) : Except Fault (Vector CodeRec 256) :=
  if rootValid then rootedTable node root else .ok emptyCt

/-- MKTAB (R121): Sequence if TREE_VALID = 0; else the code table of the tree. -/
def execMktab (s : State) : Host.Outcome State Fault Refusal :=
  unlessPending s fun s =>
    if s.treeValid then
      match codeTable s.node s.root s.rootValid with
      | .error f => .fault f
      | .ok ct => .next { s with ct := ct, ctValid := true }
    else .next (raiseError .mktab .sequence 0 0 s)

end Sys2Proof.Machine
end

