-- ==== Sys2Proof/Machine/TreeWalker.lean ====
section
/-! DEFINITION. DECODE, the tree walker (R140 to R155). -/

namespace Sys2Proof.Machine

/-- The transient state of DECODE (R46, R153): cursor, bits consumed, and the bytes emitted (`ocnt` is their number). -/
structure Walker where
  cur : NodeIdx
  bpos : Nat
  out : List Byte
  deriving DecidableEq, Repr

/-- How the walk ends: EXPLEN bytes emitted, CorruptArtifact with `ocnt` bytes emitted before (R147), or, in an arena no BUILD
makes, an index that names nothing (log entry 10). -/
inductive DecodeEnd
  | done (out : List Byte) (bpos : Nat)
  | corrupt (ocnt bpos : Nat)
  | stuck (f : Fault)
  deriving DecidableEq, Repr

/-- What one bit does: the walk goes on or ends. -/
inductive BitEnd
  | go (w : Walker)
  | halt (e : DecodeEnd)
  deriving DecidableEq, Repr

/-- AtLeaf: emit the symbol and return to the root (R142, R149). -/
def emitSym (root : NodeIdx) (w : Walker) (sym : Byte) : Walker :=
  { cur := root, bpos := w.bpos + 1, out := w.out ++ [sym] }

/-- One bit with a lone Leaf root: 0 emits its symbol, 1 is no code (R144). -/
def loneLeafBit (root : NodeIdx) (sym : Byte) (w : Walker) (bit : Bool) : BitEnd :=
  if bit then .halt (.corrupt w.out.length (w.bpos + 1)) else .go (emitSym root w sym)

/-- One bit from an Internal node: the left child on 0, the right child on 1; a Leaf emits (R142, R149). -/
def moveBit (node : Vector NodeRec 511) (root : NodeIdx) (w : Walker) (bit : Bool) : BitEnd :=
  match nodeRead node w.cur.toNat with
  | none => .halt (.stuck (.noSuchNode w.cur))
  | some c =>
    let child := if bit then c.right else c.left
    match nodeRead node child.toNat with
    | none => .halt (.stuck (.noSuchNode child))
    | some t =>
      match t.kind with
      | .leaf => .go (emitSym root w t.sym)
      | .internal => .go { w with cur := child, bpos := w.bpos + 1 }

/-- One micro-step: one consumed bit (R142, R153). -/
def decodeBit (node : Vector NodeRec 511) (root : NodeIdx) (w : Walker) (bit : Bool) : BitEnd :=
  match nodeRead node root.toNat with
  | none => .halt (.stuck (.noSuchNode root))
  | some r =>
    match r.kind with
    | .leaf => loneLeafBit root r.sym w bit
    | .internal => moveBit node root w bit

/-- The loop of R142 over the bits not yet consumed: it stops on the output count, and raises when the sequence ends first. -/
def decodeFrom (node : Vector NodeRec 511) (root : NodeIdx) (expLen : Nat) : BitString → Walker → DecodeEnd
  | [], w => if w.out.length < expLen then .corrupt w.out.length w.bpos else .done w.out w.bpos
  | bit :: rest, w =>
    if w.out.length < expLen then
      match decodeBit node root w bit with
      | .go w' => decodeFrom node root expLen rest w'
      | .halt e => e
    else .done w.out w.bpos

/-- OBUF[0 .. EXPLEN − 1] becomes unspecified (U5, log entry 5). -/
def forgetOutput (s : State) : State :=
  { s with obuf := memForgetBelow s.obuf s.explen.toNat s.fresh, fresh := s.fresh + 1 }

/-- The result of DECODE (R142): the bytes from OBUF[0], OLEN <- EXPLEN, BPOS <- bits consumed. -/
def storeOutput (out : List Byte) (bpos : Nat) (s : State) : State :=
  { s with obuf := memWriteList s.obuf 0 out, olen := s.explen, bpos := BitVec.ofNat 32 bpos }

/-- What DECODE leaves, by how its walk ended (R142, R147, R186). -/
def finishDecode (s : State) : DecodeEnd → Host.Outcome State Fault Refusal
  | .done out bpos => .next (storeOutput out bpos s)
  | .corrupt ocnt bpos => .next (raiseError (.decode bpos) .corruptArtifact ocnt 0 (forgetOutput s))
  | .stuck f => .fault f

/-- The walk of R142: nothing to do for expected length 0 (R143), CorruptArtifact before the first bit for the empty tree (R145),
else the loop from the root. -/
def runWalk (s : State) : Host.Outcome State Fault Refusal :=
  if s.explen.toNat = 0 then .next (storeOutput [] 0 s)
  else if s.rootValid then
    finishDecode s (decodeFrom s.node s.root s.explen.toNat (bitSequence s) { cur := s.root, bpos := 0, out := [] })
  else .next (raiseError (.decode 0) .corruptArtifact 0 0 s)

/-- DECODE (R141): Sequence if TREE_VALID = 0, Capacity if EXPLEN > MAXLEN, Capacity if BLEN > MAXBITS, then the walk. -/
def execDecode (s : State) : Host.Outcome State Fault Refusal :=
  unlessPending s fun s =>
    if s.treeValid then
      if s.params.maxLen < s.explen.toNat then .next (raiseError (.decode 0) .capacity 0 0 s)
      else if s.params.maxBits < s.blen.toNat then .next (raiseError (.decode 0) .capacity 0 0 s)
      else runWalk s
    else .next (raiseError (.decode 0) .sequence 0 0 s)

end Sys2Proof.Machine
end

