-- ==== Sys2Proof/Machine/HostPort.lean ====
section
/-! DEFINITION. The host port: host read (R60), host write (R61), and the issue of a command by a write to CMD (R160). -/

namespace Sys2Proof.Machine

/-- The value replied for an element of a space of plain values, by index in range (R60). -/
def readValue (s : State) (sp : Space) (index : Nat) : Word :=
  match sp with
  | .reg =>
    match regOfNumber index with
    | some r => regRead s r
    | none => 0
  | .ft => ftRead s.ft (BitVec.ofNat 8 index)
  | .ibuf => (memRead s.ibuf index).setWidth 32
  | .bits => (memRead s.bits index).setWidth 32
  | .obuf => (memRead s.obuf index).setWidth 32
  | .node => 0
  | .ct => 0

/-- The reply to a read of NODE: the record, unspecified while TREE_VALID = 0 (R60, U3, log entry 3). -/
def readNodeElement (s : State) (index : Nat) : State :=
  if s.treeValid then { s with reply := (nodeRead s.node index).map Reply.node }
  else { s with reply := some (.node (NodeRec.ofBits (Config.freeNodeBits s.fresh index))), fresh := s.fresh + 1 }

/-- The reply to a read of CT: the record, unspecified while CT_VALID = 0 (R60, U3, log entry 3). -/
def readCtElement (s : State) (index : Nat) : State :=
  if s.ctValid then { s with reply := some (.code (ctRead s.ct (BitVec.ofNat 8 index))) }
  else { s with reply := some (.code (CodeRec.ofBits (Config.freeCodeBits s.fresh index))), fresh := s.fresh + 1 }

/-- A read of an element that exists. -/
def readElement (s : State) (sp : Space) (index : Nat) : State :=
  match sp with
  | .reg => { s with reply := some (.value (readValue s .reg index)) }
  | .ft => { s with reply := some (.value (readValue s .ft index)) }
  | .ibuf => { s with reply := some (.value (readValue s .ibuf index)) }
  | .bits => { s with reply := some (.value (readValue s .bits index)) }
  | .obuf => { s with reply := some (.value (readValue s .obuf index)) }
  | .node => readNodeElement s index
  | .ct => readCtElement s index

/-- HostRead(space, index) (R60): 0 where the element does not exist. No state of the block changes (R59). -/
def hostRead (s : State) (space index : Nat) : State :=
  match spaceOfNumber space with
  | none => { s with reply := some (.value 0) }
  | some sp =>
    if index < elementCount s.params sp then readElement s sp index
    else { s with reply := some (.value 0) }

/-- What decoding a command word leads to (R160): an illegal word raises IllegalCommand unless an error is pending (R76, R77). -/
def runDecoded (s : State) : Except DecodeError Instr → Host.Outcome State Fault Refusal
  | .ok i => exec i s
  | .error (.illegalWord _) => unlessPending s fun s => .next (raiseError .dispatch .illegalCommand 0 0 s)

/-- The issue of a command: the word is stored in CMD, then decoded and run (R24, R160). -/
def issueCommand (s : State) (value : Nat) : Host.Outcome State Fault Refusal :=
  runDecoded (regWrite s value .cmd) (decodeCommand (commandWord value))

/-- A host write to a register that exists (R61). -/
def writeReg (s : State) (value : Nat) (r : Reg) : Host.Outcome State Fault Refusal :=
  match r with
  | .cmd => issueCommand s value
  | .status => .next (regWrite s value .status)
  | .ilen => .next (regWrite s value .ilen)
  | .blen => .next (regWrite s value .blen)
  | .explen => .next (regWrite s value .explen)
  | .olen => .next (regWrite s value .olen)
  | .nsym => .next (regWrite s value .nsym)
  | .root => .next (regWrite s value .root)
  | .bpos => .next (regWrite s value .bpos)
  | .errpos => .next (regWrite s value .errpos)
  | .errsym => .next (regWrite s value .errsym)

/-- A host write to FT[index]: store and tree invalidation (R31, R61). -/
def writeFt (s : State) (index value : Nat) : State :=
  { invalidateTree s with ft := ftWrite s.ft (BitVec.ofNat 8 index) (BitVec.ofNat 32 value) }

/-- A write to an element that exists (R61). OBUF, NODE and CT are read-only to the host. -/
def writeElement (s : State) (sp : Space) (index value : Nat) : Host.Outcome State Fault Refusal :=
  match sp with
  | .reg =>
    match regOfNumber index with
    | some r => writeReg s value r
    | none => .next s
  | .ft => .next (writeFt s index value)
  | .ibuf => .next { s with ibuf := memWrite s.ibuf index (BitVec.ofNat 8 value) }
  | .bits => .next { s with bits := memWrite s.bits index (BitVec.ofNat 8 value) }
  | .obuf => .next s
  | .node => .next s
  | .ct => .next s

/-- HostWrite(space, index, value) (R61): nothing changes where the element does not exist. -/
def hostWrite (s : State) (space index value : Nat) : Host.Outcome State Fault Refusal :=
  match spaceOfNumber space with
  | none => .next s
  | some sp =>
    if index < elementCount s.params sp then writeElement s sp index value
    else .next s

/-- The block performs one host action (R9, R10). -/
def perform (s : State) : HostAction → Host.Outcome State Fault Refusal
  | .read space index => .next (hostRead s space index)
  | .write space index value => hostWrite s space index value
  | .reset => .next (resetEvent s)

/-- The action is taken from the host program: the index grows by 1 (R27) and no reply stands yet. -/
def acceptAction (s : State) (rest : List HostAction) : State :=
  { s with pending := rest, hostIndex := s.hostIndex + 1, reply := none }

/-- The next host action, if the host has one (R27, R80). With none, nothing changes (R9, log entry 8). -/
def nextAction (s : State) : Host.Outcome State Fault Refusal :=
  match s.pending with
  | [] => .next s
  | a :: rest => perform (acceptAction s rest) a

/-- The host's write to CMD of a word `w` of `nbits` bits (R78: WR CMD, w). -/
def issueAction (nbits w : Nat) : HostAction := .write 0 0 (w % 2 ^ nbits)

end Sys2Proof.Machine
end

