-- ==== Sys2Proof/WellFormed.lean ====
section
/-! DEFINITION. Well-formedness: of the parameters (R8, U8), of a command (R74: no operand field, so nothing to check), and of a
host action (R50: the address exists, the host may make the access, the value fits). The machine does not refuse an ill-formed
host action: R60 and R61 give it a meaning. -/

namespace Sys2Proof

/-- U8: 0 < MAXLEN ≤ 2^32 − 1 and 0 < MAXBITS ≤ 2^32 − 1. -/
def Params.wf (p : Params) : Bool :=
  decide (0 < p.maxLen) && decide (p.maxLen < 2 ^ 32) && decide (0 < p.maxBits) && decide (p.maxBits < 2 ^ 32)

/-- Every command is well formed: R74 gives none an operand field. -/
def Instr.wf : Instr → Bool
  | .count => true
  | .build => true
  | .mktab => true
  | .encode => true
  | .decode => true
  | .clr => true

/-- The index range of a space, by number (R50): how many elements it has, 0 for a space that does not exist. -/
def spaceSize (p : Params) : Nat → Nat
  | 0 => 11
  | 1 => 256
  | 2 => p.maxLen
  | 3 => p.bitsBytes
  | 4 => p.maxLen
  | 5 => 511
  | 6 => 256
  | _ => 0

/-- The first number too large for a host write to (space, index), 0 where the host may not write (R21, R50). -/
def hostWriteBound : Nat → Nat → Nat
  | 0, 0 => 2 ^ 8
  | 0, 2 => 2 ^ 32
  | 0, 3 => 2 ^ 32
  | 0, 4 => 2 ^ 32
  | 1, _ => 2 ^ 32
  | 2, _ => 2 ^ 8
  | 3, _ => 2 ^ 8
  | _, _ => 0

/-- A host action whose address exists, whose access the table of R50 grants, and whose value fits the element. -/
def HostAction.wf (p : Params) : HostAction → Bool
  | .read sp i => decide (i < spaceSize p sp)
  | .write sp i v => decide (i < spaceSize p sp) && decide (v < hostWriteBound sp i)
  | .reset => true

end Sys2Proof
end

