-- ==== Sys2Proof/Machine/Step.lean ====
section
/-! DEFINITION. One step of the machine: one host action (R9, R10). -/

namespace Sys2Proof.Machine

/-- One step. Parameters outside the range of R8 are refused (U8). -/
def step (s : State) : Host.Outcome State Fault Refusal :=
  if s.params.wf then nextAction s else .refused .badParameters

/-- The state in which the host's next action is the write of the command word `w` to CMD: the block fetches no instruction, so
this is how a command comes to run (R27, log entry 8). -/
def State.withFetchWord (s : State) (nbits w : Nat) : State :=
  { s with pending := issueAction nbits w :: s.pending }

end Sys2Proof.Machine
end

