-- ==== Sys2Proof/Machine/HostNotation.lean ====
section
/-! DEFINITION. The host's side: the notation of a host action (R78), the pseudo-commands as lists of host actions (R81 to R83),
and a host program put before the machine (R27, R80). A line is written with its numbers in decimal and read
with its numbers in either base (log entry 17). -/

namespace Sys2Proof.Machine

/-- WR reg, value (R78). -/
def actionWR (r : Reg) (value : Nat) : HostAction := .write 0 (regNumber r) value

/-- RD reg (R78). -/
def actionRD (r : Reg) : HostAction := .read 0 (regNumber r)

/-- ST space[index], value (R78). -/
def actionST (sp : Space) (index value : Nat) : HostAction := .write (spaceNumber sp) index value

/-- LD space[index] (R78). -/
def actionLD (sp : Space) (index : Nat) : HostAction := .read (spaceNumber sp) index

/-- A bare mnemonic: the same as WR CMD, op (R78). -/
def actionCommand (i : Instr) : HostAction := actionWR .cmd (encodeCommand i).toNat

/-- ST space[index], b0, then space[index + 1], b1, and so on. -/
def actionsSTBytes (sp : Space) : Nat → List Byte → List HostAction
  | _, [] => []
  | index, b :: bs => actionST sp index b.toNat :: actionsSTBytes sp (index + 1) bs

/-- The expansion of a pseudo-command (R81 to R83). -/
def expandPseudo : Pseudo → List HostAction
  | .loadin bytes => actionsSTBytes .ibuf 0 bytes ++ [actionWR .ilen bytes.length]
  | .loadbits bits => actionsSTBytes .bits 0 (packBits bits) ++ [actionWR .blen bits.length]
  | .loadft entries => entries.map fun e => actionST .ft e.1.toNat e.2.toNat
  | .compress => [actionCommand .count, actionCommand .build, actionCommand .mktab, actionCommand .encode]
  | .decompress => [actionCommand .build, actionCommand .decode]

/-- The name of a register (R21). -/
def regName : Reg → String
  | .cmd => "CMD"
  | .status => "STATUS"
  | .ilen => "ILEN"
  | .blen => "BLEN"
  | .explen => "EXPLEN"
  | .olen => "OLEN"
  | .nsym => "NSYM"
  | .root => "ROOT"
  | .bpos => "BPOS"
  | .errpos => "ERRPOS"
  | .errsym => "ERRSYM"

/-- The name of a space (R50). -/
def spaceName : Space → String
  | .reg => "REG"
  | .ft => "FT"
  | .ibuf => "IBUF"
  | .bits => "BITS"
  | .obuf => "OBUF"
  | .node => "NODE"
  | .ct => "CT"

/-- The mnemonic of a command (R72, R79). -/
def mnemonicOf : Instr → String
  | .count => "COUNT"
  | .build => "BUILD"
  | .mktab => "MKTAB"
  | .encode => "ENCODE"
  | .decode => "DECODE"
  | .clr => "CLR"

/-- `LD space[index]` (R78), the index in decimal. -/
def loadLine (sp : Space) (index : Nat) : String := "LD " ++ spaceName sp ++ "[" ++ toString index ++ "]"

/-- `ST space[index], value` (R78), index and value in decimal. -/
def storeLine (sp : Space) (index value : Nat) : String :=
  "ST " ++ spaceName sp ++ "[" ++ toString index ++ "], " ++ toString value

/-- The line of R78 for a read, none where the space has no name. DESIGN CHOICE (log entry 17): R78 gives a register two lines, RD
and LD REG, and the one written is RD; an index of REG that names no register has the line LD REG alone. -/
def readLine (space index : Nat) : Option String :=
  match spaceOfNumber space with
  | none => none
  | some .reg =>
    match regOfNumber index with
    | some r => some ("RD " ++ regName r)
    | none => some (loadLine .reg index)
  | some sp => some (loadLine sp index)

/-- The line of R78 for a write to CMD. DESIGN CHOICE (log entry 17): of the lines R78 allows, the one written is the mnemonic where
the value is exactly a command word, else WR CMD. -/
def commandLine (value : Nat) : String :=
  match decodeCommand (commandWord value) with
  | .ok i => if value = (encodeCommand i).toNat then mnemonicOf i else "WR CMD, " ++ toString value
  | .error _ => "WR CMD, " ++ toString value

/-- The line of R78 for a write, none where the space has no name. DESIGN CHOICE (log entry 17): a register's line is WR and not
ST REG; an index of REG that names no register has the line ST REG alone. -/
def writeLine (space index value : Nat) : Option String :=
  match spaceOfNumber space with
  | none => none
  | some .reg =>
    match regOfNumber index with
    | none => some (storeLine .reg index value)
    | some .cmd => some (commandLine value)
    | some r => some ("WR " ++ regName r ++ ", " ++ toString value)
  | some sp => some (storeLine sp index value)

/-- The line of text of a host action (R78). A reset event is no line of a host program. -/
def actionLine : HostAction → Option String
  | .read space index => readLine space index
  | .write space index value => writeLine space index value
  | .reset => none

/-! ### Reading a line -/

/-- The parts of a line: a word (a name or a number), a comma, a left bracket, a right bracket. -/
inductive Token
  | word (chars : List Char)
  | comma
  | openBracket
  | closeBracket
  deriving DecidableEq, Repr

/-- The word collected so far, if it has a character, in front of the tokens after it. -/
def endWord (chars : List Char) (rest : List Token) : List Token :=
  match chars with
  | [] => rest
  | c :: cs => .word (c :: cs) :: rest

/-- The tokens of a line up to its comment, with `chars` the word collected so far. A semicolon starts a comment (R78). -/
def tokensFrom : List Char → List Char → List Token
  | [], chars => endWord chars []
  | c :: cs, chars =>
    if c = ';' then endWord chars []
    else if c = ' ' then endWord chars (tokensFrom cs [])
    else if c = ',' then endWord chars (.comma :: tokensFrom cs [])
    else if c = '[' then endWord chars (.openBracket :: tokensFrom cs [])
    else if c = ']' then endWord chars (.closeBracket :: tokensFrom cs [])
    else tokensFrom cs (chars ++ [c])

/-- The value of a digit in a base, 10 or 16. -/
def digitValue (base : Nat) (c : Char) : Option Nat :=
  let n := c.toNat
  let v := if 48 ≤ n ∧ n ≤ 57 then n - 48 else if 97 ≤ n ∧ n ≤ 102 then n - 87 else if 65 ≤ n ∧ n ≤ 70 then n - 55 else base
  if v < base then some v else none

/-- Digits from the most significant on, after the value `v`. -/
def digitsFrom (base : Nat) : List Char → Nat → Option Nat
  | [], v => some v
  | c :: cs, v =>
    match digitValue base c with
    | some d => digitsFrom base cs (base * v + d)
    | none => none

/-- A value: decimal, or hexadecimal with the prefix 0x (R78). -/
def numberOf (chars : List Char) : Option Nat :=
  match chars with
  | [] => none
  | '0' :: 'x' :: [] => none
  | '0' :: 'x' :: d :: ds => digitsFrom 16 (d :: ds) 0
  | d :: ds => digitsFrom 10 (d :: ds) 0

/-- The register of a name (R21). -/
def regOfName (chars : List Char) : Option Reg :=
  [Reg.cmd, .status, .ilen, .blen, .explen, .olen, .nsym, .root, .bpos, .errpos, .errsym].find?
    fun r => (regName r).toList == chars

/-- The space of a name (R50). -/
def spaceOfName (chars : List Char) : Option Space :=
  [Space.reg, .ft, .ibuf, .bits, .obuf, .node, .ct].find? fun sp => (spaceName sp).toList == chars

/-- The command of a mnemonic (R72). -/
def commandOfName (chars : List Char) : Option Instr :=
  [Instr.count, .build, .mktab, .encode, .decode, .clr].find? fun i => (mnemonicOf i).toList == chars

/-- The host action of the tokens of a line (R78), none where they form no line of the notation. -/
def actionOfTokens (tokens : List Token) : Option HostAction :=
  match tokens with
  | [.word m] => (commandOfName m).map actionCommand
  | [.word k, .word r] => if k = ['R', 'D'] then (regOfName r).map actionRD else none
  | [.word k, .word r, .comma, .word v] =>
    if k = ['W', 'R'] then
      match regOfName r, numberOf v with
      | some r, some v => some (actionWR r v)
      | _, _ => none
    else none
  | [.word k, .word sp, .openBracket, .word i, .closeBracket] =>
    if k = ['L', 'D'] then
      match spaceOfName sp, numberOf i with
      | some sp, some i => some (actionLD sp i)
      | _, _ => none
    else none
  | [.word k, .word sp, .openBracket, .word i, .closeBracket, .comma, .word v] =>
    if k = ['S', 'T'] then
      match spaceOfName sp, numberOf i, numberOf v with
      | some sp, some i, some v => some (actionST sp i v)
      | _, _, _ => none
    else none
  | _ => none

/-- The host action a line stands for (R78). None for an empty line, a comment alone, or text that is no line of the notation. -/
def readAction (line : String) : Option HostAction := actionOfTokens (tokensFrom line.toList [])

/-- The state in which the host is about to run a program of host actions (R27, R80). -/
def withProgram (s : State) (program : List HostAction) : State := { s with pending := program, hostIndex := 0 }

/-- Perform a list of host actions from the first to the last, stopping at a fault or a refusal (R80). -/
def runActions : State → List HostAction → Host.Outcome State Fault Refusal
  | s, [] => .next s
  | s, a :: rest =>
    match perform (acceptAction s rest) a with
    | .next s' => runActions s' rest
    | .fault f => .fault f
    | .refused r => .refused r

end Sys2Proof.Machine
end

