-- ==== Sys2Proof/Machine/MicroSteps.lean ====
section
/-! DEFINITION. The micro-step forms that the commands do not already have as their own loops: ENCODE writing bit by bit into BITS
(R131 as written, R138), and MKTAB with an explicit stack (R128). The micro-steps of COUNT, BUILD and DECODE are `countByte`,
`mergeStep` and `decodeBit` (R93, R113, R153). No instruction calls this file: R11 says the two levels agree. -/

namespace Sys2Proof.Machine

/-- `for j in 0 .. |code| - 1: BitWrite(pos + j, code[j])` (R131). -/
def bitWriteList : Memory → Nat → BitString → Memory
  | m, _, [] => m
  | m, pos, v :: vs => bitWriteList (bitWrite m pos v) (pos + 1) vs

/-- The transient state of ENCODE (R138), with the memory it writes. -/
structure EncodeMicro where
  i : Nat
  pos : Nat
  mem : Memory
  deriving DecidableEq, Repr

/-- How ENCODE's micro-steps end. -/
inductive EncodeMicroEnd
  | done (mem : Memory) (pos : Nat)
  | mismatch (i : Nat) (b : Byte)
  | overflow (i : Nat) (b : Byte)
  deriving DecidableEq, Repr

/-- `for q in pos .. 8*ceil(pos/8) - 1: BitWrite(q, 0)` (R131, R133). -/
def padZeros (mem : Memory) (pos : Nat) : Memory :=
  bitWriteList mem pos (List.replicate (8 * ((pos + 7) / 8) - pos) false)

/-- ENCODE as R131 writes it, over the input bytes not yet encoded. -/
def encodeMicro (ct : Vector CodeRec 256) (maxBits : Nat) : List Byte → EncodeMicro → EncodeMicroEnd
  | [], m => .done (padZeros m.mem m.pos) m.pos
  | b :: bs, m =>
    if (ctRead ct b).valid then
      if maxBits < m.pos + (ctRead ct b).len.toNat then .overflow m.i b
      else
        encodeMicro ct maxBits bs
          { i := m.i + 1
            pos := m.pos + (ctRead ct b).len.toNat
            mem := bitWriteList m.mem m.pos (codeBits (ctRead ct b)) }
    else .mismatch m.i b

/-- The transient state of MKTAB (R128): the node visited next with the length of its path, none when the walk is over; the stack
of pending (node index, path length) pairs; the one 255-bit path register, cell 0 the first edge; and the table so far. DESIGN CHOICE
(log entry 14) of what the stack holds: the right children still to visit, each the sibling of a node on the way to the current one. -/
structure MktabMicro where
  cur : Option (NodeIdx × Nat)
  pending : List (NodeIdx × Nat)
  path : Vector Bool 255
  ct : Vector CodeRec 256
  deriving DecidableEq, Repr

/-- Put an edge in a cell of the path register. -/
def setEdge (path : Vector Bool 255) (p : Nat) (v : Bool) : Vector Bool 255 := if h : p < 255 then path.set p v h else path

/-- The code that a Leaf's visit records: the first `len` cells of the path register, and "0" for the empty path, which only a lone
Leaf root has (R123). -/
def visitCode (path : Vector Bool 255) (len : Nat) : BitString := if len = 0 then [false] else path.toList.take len

/-- On to the pending node on top of the stack: a right child, so the last edge of its path is 1. -/
def popPending (m : MktabMicro) : MktabMicro :=
  match m.pending with
  | [] => { m with cur := none }
  | (i, len) :: rest => { m with cur := some (i, len), pending := rest, path := setEdge m.path (len - 1) true }

/-- The start of MKTAB's walk (R121, R128): CT cleared, and the root to visit, if there is one. -/
def startMktab (root : NodeIdx) (rootValid : Bool) : MktabMicro :=
  { cur := if rootValid then some (root, 0) else none, pending := [], path := Vector.replicate 255 false, ct := emptyCt }

/-- One visit (R128): a Leaf's code is recorded; an Internal node's right child becomes pending and its left child is next. -/
def mktabVisit (node : Vector NodeRec 511) (m : MktabMicro) : MktabMicro :=
  match m.cur with
  | none => m
  | some (i, len) =>
    match nodeRead node i.toNat with
    | none => popPending m
    | some r =>
      match r.kind with
      | .leaf => popPending { m with ct := ctWrite m.ct r.sym (pathRec (visitCode m.path len)) }
      | .internal =>
        { m with
          cur := some (r.left, len + 1), pending := (r.right, len + 1) :: m.pending, path := setEdge m.path len false }

/-- A number of visits. -/
def mktabVisits (node : Vector NodeRec 511) : Nat → MktabMicro → MktabMicro
  | 0, m => m
  | n + 1, m => mktabVisits node n (mktabVisit node m)

end Sys2Proof.Machine
end

