-- ==== Sys2Proof/Safety.lean ====
section
/-! DEFINITION. What claims are stated in: the abstract tree of R15 and the tree an arena denotes (R36), the Huffman merge on
abstract trees (R102, R105), the code of a symbol as its path (R122), and the invariant that every step keeps. -/

namespace Sys2Proof

open Sys2Proof.Machine

/-! ### The abstract tree -/

/-- HuffNode (R15): "Leaf holds (ByteValue, weight); Internal holds (weight, left child, right child)". -/
inductive HuffNode
  | leaf (sym : Byte) (weight : Nat)
  | internal (weight : Nat) (left right : HuffNode)
  deriving DecidableEq, Repr

/-- weight (R15). -/
def HuffNode.weight : HuffNode → Nat
  | .leaf _ w => w
  | .internal w _ _ => w

/-- minsym: the smallest ByteValue reachable in the node's subtree, as a natural (R15, D5). -/
def HuffNode.minsym : HuffNode → Nat
  | .leaf s _ => s.toNat
  | .internal _ l r => min l.minsym r.minsym

/-- The Leaves of a tree, left to right, each with its weight. -/
def HuffNode.leaves : HuffNode → List (Byte × Nat)
  | .leaf s w => [(s, w)]
  | .internal _ l r => l.leaves ++ r.leaves

/-- The weight of every Internal node is the sum of its children's weights (R37). -/
def HuffNode.weightsAdd : HuffNode → Prop
  | .leaf _ _ => True
  | .internal w l r => w = l.weight + r.weight ∧ l.weightsAdd ∧ r.weightsAdd

/-- The path from the root to the Leaf of a ByteValue: false for a step to a left child, true for a right one (R122). -/
def HuffNode.pathTo (b : Byte) : HuffNode → Option BitString
  | .leaf s _ => if s = b then some [] else none
  | .internal _ l r =>
    match l.pathTo b with
    | some p => some (false :: p)
    | none => (r.pathTo b).map (fun p => true :: p)

/-- The code of a ByteValue in a tree: the fixed code "0" for a lone Leaf root (R123), else the path (R122). -/
def HuffNode.codeOf (b : Byte) : HuffNode → Option BitString
  | .leaf s _ => if s = b then some [false] else none
  | .internal w l r => (HuffNode.internal w l r).pathTo b

/-- T(i) of R36, through at most `fuel` nodes on a path. -/
def treeAt (node : Vector NodeRec 511) : Nat → NodeIdx → Option HuffNode
  | 0, _ => none
  | fuel + 1, i =>
    match nodeRead node i.toNat with
    | none => none
    | some r =>
      match r.kind with
      | .leaf => some (.leaf r.sym r.weight.toNat)
      | .internal =>
        match treeAt node fuel r.left, treeAt node fuel r.right with
        | some l, some t => some (.internal r.weight.toNat l t)
        | _, _ => none

/-- The HuffTree the state denotes: none without a root, else T(ROOT) (R36). A path has at most 256 nodes (R125). -/
def denotedTree (s : State) : Option HuffNode := if s.rootValid then treeAt s.node 256 s.root else none

/-! ### The merge on abstract trees -/

/-- The priority order on abstract trees: weight, then smallest symbol (R102). -/
def HuffNode.before (a b : HuffNode) : Bool :=
  decide (a.weight < b.weight) || (a.weight == b.weight && decide (a.minsym < b.minsym))

/-- The first of a nonempty forest in the priority order. -/
def firstTree (a : HuffNode) (forest : List HuffNode) : HuffNode :=
  forest.foldl (fun m t => if t.before m then t else m) a

/-- "Repeatedly extract the two minimal nodes, merge into a new Internal node" (R105), at most `fuel` times. -/
def mergeForest : Nat → List HuffNode → List HuffNode
  | 0, forest => forest
  | fuel + 1, forest =>
    match forest with
    | [] => []
    | t :: ts =>
      let a := firstTree t ts
      match forest.erase a with
      | [] => forest
      | u :: us =>
        let c := firstTree u us
        mergeForest fuel (.internal (a.weight + c.weight) a c :: (u :: us).erase c)

/-- The entries among the counts of ByteValues b, b + 1, and so on: those with a positive count (R33). -/
def entriesFrom : List Word → Nat → List (Byte × Nat)
  | [], _ => []
  | w :: ws, b => if w = 0#32 then entriesFrom ws (b + 1) else (BitVec.ofNat 8 b, w.toNat) :: entriesFrom ws (b + 1)

/-- The entries of a frequency table in ascending order of ByteValue (R33). -/
def tableEntries (ft : Vector Word 256) : List (Byte × Nat) := entriesFrom ft.toList 0

/-- One Leaf per table entry (R104). -/
def leafForest (entries : List (Byte × Nat)) : List HuffNode := entries.map fun e => .leaf e.1 e.2

/-- The tree of a list of table entries, in whatever order they are listed (R108). -/
def huffTree (entries : List (Byte × Nat)) : Option HuffNode := (mergeForest 255 (leafForest entries)).head?

/-! ### Codes of buffers -/

/-- The concatenation of the codes of a list of bytes, in order (R132). -/
def codesOf (ct : Vector CodeRec 256) (bytes : List Byte) : BitString := bytes.flatMap fun b => codeBits (ctRead ct b)

/-- Every byte has an entry in the table (R134). -/
def allCoded (ct : Vector CodeRec 256) (bytes : List Byte) : Prop := ∀ b ∈ bytes, (ctRead ct b).valid = true

/-- The state with EXPLEN written (R61). -/
def withExplen (s : State) (v : Word) : State := { s with explen := v }

/-- Two states whose block is the same: they differ at most in the model's own account of the host and in the counter of free
values. -/
def SameBlock (s t : State) : Prop :=
  { t with pending := s.pending, hostIndex := s.hostIndex, reply := s.reply, fresh := s.fresh } = s

/-- Every register is 0 and FT is the empty table (R48). -/
def RegistersCleared (s : State) : Prop :=
  (∀ r : Reg, regRead s r = 0#32) ∧ s.err = 0#4 ∧ s.treeValid = false ∧ s.ctValid = false ∧ s.rootValid = false ∧
    ∀ b : Byte, ftRead s.ft b = 0#32

/-- NODE, CT, IBUF, BITS and OBUF hold nothing but free values (R48, U1, U2). -/
def MemoriesUnspecified (s : State) : Prop :=
  s.ibuf.cells = [] ∧ s.bits.cells = [] ∧ s.obuf.cells = [] ∧
    (∃ n, ∀ i, i < 511 → nodeRead s.node i = some (NodeRec.ofBits (Config.freeNodeBits n i))) ∧
    (∃ n, ∀ b : Byte, ctRead s.ct b = CodeRec.ofBits (Config.freeCodeBits n b.toNat))

/-! ### The invariant -/

/-- ERR is one of the codes of R181, and the error registers are 0 without an error (R26). -/
def ErrorsOk (s : State) : Prop := s.err.toNat ≤ 5 ∧ (s.err = 0#4 → s.errpos = 0#32 ∧ s.errsym = 0#8)

/-- Without a valid tree there is no root, no code table, and NSYM and ROOT are 0 (R31). -/
def NoTreeOk (s : State) : Prop :=
  s.treeValid = false → s.rootValid = false ∧ s.ctValid = false ∧ s.nsym = 0#9 ∧ s.root = 0#9

/-- TREE_VALID: NODE, ROOT, NSYM and ROOT_VALID are the result of BUILD on the present FT (R25), whose sum fits (R109). -/
def TreeOk (s : State) : Prop :=
  s.treeValid = true →
    ftSum s.ft ≤ 2 ^ 32 - 1 ∧ s.node = (buildTree s.ft).node ∧ s.nsym = (buildTree s.ft).nsym ∧
      s.root = (buildTree s.ft).root ∧ s.rootValid = (buildTree s.ft).rootValid

/-- CT_VALID: CT is the result of MKTAB on the present tree (R25). -/
def TableOk (s : State) : Prop := s.ctValid = true → codeTable s.node s.root s.rootValid = .ok s.ct

/-- A byte memory is in canonical form, lists no index at or past `size`, and its stamp was handed out before. -/
def MemoryOk (m : Memory) (size fresh : Nat) : Prop := m.wf ∧ (∀ c ∈ m.cells, c.1 < size) ∧ m.stamp < fresh

/-- The three byte memories (R42 to R44). -/
def MemoriesOk (s : State) : Prop :=
  MemoryOk s.ibuf s.params.maxLen s.fresh ∧ MemoryOk s.bits s.params.bitsBytes s.fresh ∧
    MemoryOk s.obuf s.params.maxLen s.fresh

/-- The results of DECODE lie within the capacities (R44, R152). -/
def ResultsOk (s : State) : Prop := s.olen.toNat ≤ s.params.maxLen ∧ s.bpos.toNat ≤ s.params.maxBits

/-- The invariant of the machine. -/
def Inv (s : State) : Prop :=
  s.params.wf = true ∧ ErrorsOk s ∧ NoTreeOk s ∧ TreeOk s ∧ TableOk s ∧ MemoriesOk s ∧ ResultsOk s

/-- A state some sequence of host actions leads to from reset: the host may put any actions before the machine at any time. -/
inductive Reachable : State → Prop
  | afterReset : Reachable State.reset
  | hostAsks (s : State) (actions : List HostAction) : Reachable s → Reachable { s with pending := actions }
  | afterStep (s t : State) : Reachable s → step s = .next t → Reachable t

end Sys2Proof
end

