-- ==== Sys2Proof/Certificates/Slice0/Obligations.lean ====
section
/-! DEFINITION. The statements for the provers, each from the rules of the spec that its entry in OBLIGATIONS.json cites. -/

open Sys2Proof Sys2Proof.Machine

/-- Each command word, written out bit by bit from the opcode map, decodes to its command; 0x00, 0x07 and 0xFF are rejected by
name. (30_encoding.md section 2, table of rule R72) -/
def Obligations.OpcodeWordsDecode : Prop :=
  decodeCommand 0b00000001#8 = .ok .count ∧ decodeCommand 0b00000010#8 = .ok .build ∧
  decodeCommand 0b00000011#8 = .ok .mktab ∧ decodeCommand 0b00000100#8 = .ok .encode ∧
  decodeCommand 0b00000101#8 = .ok .decode ∧ decodeCommand 0b00000110#8 = .ok .clr ∧
  decodeCommand 0x00#8 = .error (.illegalWord 0x00#8) ∧ decodeCommand 0x07#8 = .error (.illegalWord 0x07#8) ∧
  decodeCommand 0xFF#8 = .error (.illegalWord 0xFF#8)

/-- A word decodes to a command exactly when it is that command's code, and it is rejected as illegal exactly when it is 0x00 or
0x07 to 0xFF. (R73) -/
def Obligations.DecoderIsTotalAndExact : Prop :=
  ∀ w : Byte, (∀ i : Instr, decodeCommand w = .ok i ↔ encodeCommand i = w) ∧
    (decodeCommand w = .error (.illegalWord w) ↔ w = 0#8 ∨ 7#8 ≤ w)

/-- When the next host action is a write of v to CMD and the low 8 bits of v decode to the command i, step is exec of i on the
state in which the action is taken from the host, no reply stands, and CMD holds the word. (45_system.md section 1;
00_scope.md section 5) -/
def Obligations.StepRunsIssuedCommand : Prop :=
  ∀ (s : State) (v : Nat) (rest : List HostAction) (i : Instr),
    s.params.wf = true → s.pending = .write 0 0 v :: rest → decodeCommand (BitVec.ofNat 8 v) = .ok i → i.wf = true →
      step s = exec i { s with pending := rest, hostIndex := s.hostIndex + 1, reply := none, cmd := BitVec.ofNat 8 v }

/-- Two writes to CMD whose values agree in the low 8 bits make the same step. (30_encoding.md section 1) -/
def Obligations.HighBitsOfCommandWordIgnored : Prop :=
  ∀ (s : State) (v w : Nat) (rest : List HostAction), v % 256 = w % 256 →
    step { s with pending := .write 0 0 v :: rest } = step { s with pending := .write 0 0 w :: rest }

/-- A write of an illegal word to CMD while no error is pending stores the word, sets ERR to 3 and ERRPOS and ERRSYM to 0, and
changes no other state. (R76; R182) -/
def Obligations.IllegalWordRaises : Prop :=
  ∀ (s : State) (v : Nat) (rest : List HostAction),
    s.params.wf = true → s.pending = .write 0 0 v :: rest → s.err = 0#4 → (v % 256 = 0 ∨ 7 ≤ v % 256) →
      ∃ t, step s = .next t ∧ t.pending = rest ∧
        SameBlock { s with cmd := BitVec.ofNat 8 v, err := 3#4, errpos := 0#32, errsym := 0#8 } t

/-- While ERR is not 0, a write to CMD of any word other than 0x06 stores the word in CMD and changes nothing else, and no command
but CLR changes anything. (R77; R161) -/
def Obligations.PendingErrorIgnoresCommands : Prop :=
  (∀ (s : State) (v : Nat) (rest : List HostAction),
    s.params.wf = true → s.pending = .write 0 0 v :: rest → s.err ≠ 0#4 → v % 256 ≠ 6 →
      ∃ t, step s = .next t ∧ t.pending = rest ∧ SameBlock { s with cmd := BitVec.ofNat 8 v } t) ∧
  (∀ (s : State) (i : Instr), s.err ≠ 0#4 → i ≠ .clr → exec i s = .next s)

/-- After reset, and after a reset event in any state, every register and every count is 0, no flag is set, and NODE, CT, IBUF,
BITS and OBUF hold nothing but free values. The model's choice: the form of the free values (log entries 1 and 2), and that
the parameters and the host's further actions are kept (log entry 6). (10_state.md section 8; 70_reset_and_hazards.md section
1; 93_implementation_defined.md section 1, U1, U2 and U6) -/
def Obligations.ResetValues : Prop :=
  RegistersCleared State.reset ∧ MemoriesUnspecified State.reset ∧
  (∀ (s : State) (rest : List HostAction), s.params.wf = true → s.pending = .reset :: rest →
    ∃ t, step s = .next t ∧ RegistersCleared t ∧ MemoriesUnspecified t ∧ t.params = s.params ∧ t.pending = rest)

/-- The word read from STATUS is ERR + 16·TREE_VALID + 32·CT_VALID + 64·ROOT_VALID, so bits 31 to 7 are 0. (10_state.md section 2,
table of rule R25) -/
def Obligations.StatusWordFields : Prop :=
  ∀ s : State, (regRead s .status).toNat =
    s.err.toNat + 16 * s.treeValid.toNat + 32 * s.ctValid.toNat + 64 * s.rootValid.toNat

/-- CMD, NSYM, ROOT and ERRSYM read as their value with zeros above their width; the 32-bit registers read as they are.
(10_state.md section 2) -/
def Obligations.NarrowRegistersReadZeroExtended : Prop :=
  ∀ s : State,
    (regRead s .cmd).toNat = s.cmd.toNat ∧ (regRead s .nsym).toNat = s.nsym.toNat ∧
    (regRead s .root).toNat = s.root.toNat ∧ (regRead s .errsym).toNat = s.errsym.toNat ∧
    regRead s .ilen = s.ilen ∧ regRead s .blen = s.blen ∧ regRead s .explen = s.explen ∧ regRead s .olen = s.olen ∧
    regRead s .bpos = s.bpos ∧ regRead s .errpos = s.errpos

/-- A host read replies 0 for an element that does not exist, the register, the count, the byte, and the NODE or CT record when
its validity flag is set; otherwise a NODE or CT read replies some record (a free value). (20_memory.md section 5, rule R60
(log entry 3 for the free reply)) -/
def Obligations.HostReadReplies : Prop :=
  ∀ (s : State) (n i : Nat) (rest : List HostAction), s.params.wf = true → s.pending = .read n i :: rest →
    ∃ t, step s = .next t ∧
      (6 < n → t.reply = some (.value 0#32)) ∧
      (∀ sp, spaceOfNumber n = some sp → elementCount s.params sp ≤ i → t.reply = some (.value 0#32)) ∧
      (n = 0 → ∀ r, regOfNumber i = some r → t.reply = some (.value (regRead s r))) ∧
      (n = 1 → i < 256 → t.reply = some (.value (ftRead s.ft (BitVec.ofNat 8 i)))) ∧
      (n = 2 → i < s.params.maxLen → t.reply = some (.value ((memRead s.ibuf i).setWidth 32))) ∧
      (n = 3 → i < s.params.bitsBytes → t.reply = some (.value ((memRead s.bits i).setWidth 32))) ∧
      (n = 4 → i < s.params.maxLen → t.reply = some (.value ((memRead s.obuf i).setWidth 32))) ∧
      (n = 5 → i < 511 → s.treeValid = true → t.reply = (nodeRead s.node i).map .node) ∧
      (n = 5 → i < 511 → s.treeValid = false →
        t.reply = some (.node (NodeRec.ofBits (Config.freeNodeBits s.fresh i))) ∧ t.fresh = s.fresh + 1) ∧
      (n = 6 → i < 256 → s.ctValid = true → t.reply = some (.code (ctRead s.ct (BitVec.ofNat 8 i)))) ∧
      (n = 6 → i < 256 → s.ctValid = false →
        t.reply = some (.code (CodeRec.ofBits (Config.freeCodeBits s.fresh i))) ∧ t.fresh = s.fresh + 1)

/-- A step that performs a host read, of an existing element or not, leaves the whole block as it was. (20_memory.md section 4,
rule R59; 20_memory.md section 5, rule R60) -/
def Obligations.HostReadHasNoSideEffect : Prop :=
  ∀ (s : State) (n i : Nat) (rest : List HostAction), s.params.wf = true → s.pending = .read n i :: rest →
    ∃ t, step s = .next t ∧ SameBlock s t ∧ t.pending = rest

/-- A host write of v to FT[i] makes FT[i] the low 32 bits of v, clears the three validity flags, NSYM and ROOT, and changes
nothing else, even when the value is the one already there. (10_state.md section 4, rule R31; 20_memory.md section 5, rule
R61) -/
def Obligations.HostWriteToCountInvalidatesTree : Prop :=
  ∀ (s : State) (i v : Nat) (rest : List HostAction), s.params.wf = true → i < 256 → s.pending = .write 1 i v :: rest →
    ∃ ft', step s = .next
        { s with
          pending := rest, hostIndex := s.hostIndex + 1, reply := none
          treeValid := false, rootValid := false, ctValid := false, nsym := 0#9, root := 0#9, ft := ft' } ∧
      ∀ b : Byte, ftRead ft' b = if b.toNat = i then BitVec.ofNat 32 v else ftRead s.ft b

/-- A host write to IBUF or BITS stores the low 8 bits in that byte and leaves every other byte as it was; a write to ILEN, BLEN
or EXPLEN stores the low 32 bits unchecked; none changes a flag or any other state. (R62) -/
def Obligations.HostWriteStoresBytesAndLengths : Prop :=
  ∀ (s : State) (i v : Nat) (rest : List HostAction), s.params.wf = true →
    (i < s.params.maxLen → s.pending = .write 2 i v :: rest →
      ∃ t, step s = .next t ∧ t.pending = rest ∧ SameBlock { s with ibuf := t.ibuf } t ∧
        ∀ j, memRead t.ibuf j = if i = j then BitVec.ofNat 8 v else memRead s.ibuf j) ∧
    (i < s.params.bitsBytes → s.pending = .write 3 i v :: rest →
      ∃ t, step s = .next t ∧ t.pending = rest ∧ SameBlock { s with bits := t.bits } t ∧
        ∀ j, memRead t.bits j = if i = j then BitVec.ofNat 8 v else memRead s.bits j) ∧
    (s.pending = .write 0 2 v :: rest →
      ∃ t, step s = .next t ∧ t.pending = rest ∧ SameBlock { s with ilen := BitVec.ofNat 32 v } t) ∧
    (s.pending = .write 0 3 v :: rest →
      ∃ t, step s = .next t ∧ t.pending = rest ∧ SameBlock { s with blen := BitVec.ofNat 32 v } t) ∧
    (s.pending = .write 0 4 v :: rest →
      ∃ t, step s = .next t ∧ t.pending = rest ∧ SameBlock { s with explen := BitVec.ofNat 32 v } t)

/-- A host write to OBUF, NODE, CT, a read-only register, a register number of 11 or more, an index outside its space or a space
that does not exist leaves the block as it was. (10_state.md section 2; 20_memory.md section 5, rule R61) -/
def Obligations.HostWriteElsewhereChangesNothing : Prop :=
  ∀ (s : State) (n i v : Nat) (rest : List HostAction), s.params.wf = true → s.pending = .write n i v :: rest →
    (n = 4 ∨ 5 ≤ n ∨ (n = 0 ∧ i ≠ 0 ∧ i ≠ 2 ∧ i ≠ 3 ∧ i ≠ 4) ∨ (n = 1 ∧ 256 ≤ i) ∨
      (n = 2 ∧ s.params.maxLen ≤ i) ∨ (n = 3 ∧ s.params.bitsBytes ≤ i)) →
    step s = .next { s with pending := rest, hostIndex := s.hostIndex + 1, reply := none }

/-- The model's own choice (log entries 7 and 8): with no host action pending a step leaves the state as it is, and with MAXLEN or
MAXBITS outside the range of R8 a step is refused, as U8 says. (93_implementation_defined.md section 1, U8; 00_scope.md
section 5 (log entries 7 and 8)) -/
def Obligations.IdleAndRefusedSteps : Prop :=
  ∀ s : State, (s.params.wf = true → s.pending = [] → step s = .next s) ∧
    (s.params.wf = false → step s = .refused .badParameters)

/-- BitRead(k) is the bit at position 7 - (k mod 8) of BITS[k div 8]; BitWrite(k, v) puts v there and leaves every other bit of
the memory as it was; the string 1110 packs to 0xE0 and 10000000 1 to 0x80 0x80. (20_memory.md section 2, rule R55) -/
def Obligations.BitReadAndBitWrite : Prop :=
  (∀ (m : Memory) (k : Nat), (bitRead m k).toNat = (memRead m (k / 8)).toNat / 2 ^ (7 - k % 8) % 2) ∧
  (∀ (m : Memory) (k j : Nat) (v : Bool), bitRead (bitWrite m k v) j = if j = k then v else bitRead m j) ∧
  packBits [true, true, true, false] = [0xE0#8] ∧
  packBits [true, false, false, false, false, false, false, false, true] = [0x80#8, 0x80#8]

/-- After the packed bytes of a bit string are written from index 0, bit k reads as element k of the string, the padding bits of
the last byte read 0, and every byte past the last one reads as before. (20_memory.md section 2, rules R55 and R56;
43_encode.md, rule R133) -/
def Obligations.PackedSequenceReadsBack : Prop :=
  ∀ (m : Memory) (s : BitString),
    (∀ k, k < s.length → bitRead (memWriteList m 0 (packBits s)) k = s.getD k false) ∧
    (∀ k, s.length ≤ k → k < 8 * ((s.length + 7) / 8) → bitRead (memWriteList m 0 (packBits s)) k = false) ∧
    (∀ j, (s.length + 7) / 8 ≤ j → memRead (memWriteList m 0 (packBits s)) j = memRead m j)

/-- With no error pending and ILEN ≤ MAXLEN, COUNT answers a next state in which FT[b] is the exact number of i < ILEN with
IBUF[i] = b for every b, the three validity flags, NSYM and ROOT are 0, and everything else, all other memory included, is
unchanged. (40_count.md, rule R91) -/
def Obligations.CountTabulatesInput : Prop :=
  ∀ s : State, s.err = 0#4 → s.ilen.toNat ≤ s.params.maxLen →
    ∃ ft', exec .count s = .next
        { s with ft := ft', treeValid := false, ctValid := false, rootValid := false, nsym := 0#9, root := 0#9 } ∧
      ∀ b : Byte, (ftRead ft' b).toNat = (List.range s.ilen.toNat).countP fun i => memRead s.ibuf i == b

/-- After a COUNT that raises no error the exact sum of FT is ILEN. (10_state.md section 5, rule R34) -/
def Obligations.CountSumIsInputLength : Prop :=
  ∀ s : State, s.err = 0#4 → s.ilen.toNat ≤ s.params.maxLen →
    ∃ t, exec .count s = .next t ∧ t.err = 0#4 ∧ ftSum t.ft = s.ilen.toNat

/-- Two states with the same ILEN and the same first ILEN bytes of IBUF, whatever else differs, get the same FT from COUNT; bytes
at indices ILEN and above and the old FT do not matter. (40_count.md, rules R90, R92 and R94) -/
def Obligations.CountDependsOnInputOnly : Prop :=
  ∀ s t : State, s.err = 0#4 → t.err = 0#4 → s.ilen = t.ilen → s.ilen.toNat ≤ s.params.maxLen →
    t.ilen.toNat ≤ t.params.maxLen → (∀ i, i < s.ilen.toNat → memRead s.ibuf i = memRead t.ibuf i) →
    ∃ s' t', exec .count s = .next s' ∧ exec .count t = .next t' ∧ s'.ft = t'.ft

/-- COUNT and ENCODE with ILEN > MAXLEN, BUILD with a table whose exact sum is over 2^32 - 1, and DECODE with EXPLEN > MAXLEN or
BLEN > MAXBITS (even when EXPLEN is 0) set ERR to 5 and ERRPOS and ERRSYM to 0, ENCODE also BLEN to 0 and DECODE also OLEN and
BPOS to 0; nothing else changes. (60_exceptions.md section 1, rule R184; 60_exceptions.md section 2, rule R186;
93_implementation_defined.md section 1, U4 (log entry 4); 93_implementation_defined.md section 1, U5 (log entry 5)) -/
def Obligations.CapacityChecks : Prop :=
  ∀ s : State, s.err = 0#4 →
    (s.params.maxLen < s.ilen.toNat →
      exec .count s = .next { s with err := 5#4, errpos := 0#32, errsym := 0#8 }) ∧
    (2 ^ 32 - 1 < ftSum s.ft →
      exec .build s = .next { s with err := 5#4, errpos := 0#32, errsym := 0#8 }) ∧
    (s.ctValid = true → s.params.maxLen < s.ilen.toNat →
      exec .encode s = .next { s with err := 5#4, errpos := 0#32, errsym := 0#8, blen := 0#32 }) ∧
    (s.treeValid = true → (s.params.maxLen < s.explen.toNat ∨ s.params.maxBits < s.blen.toNat) →
      exec .decode s = .next { s with err := 5#4, errpos := 0#32, errsym := 0#8, olen := 0#32, bpos := 0#32 })

/-- MKTAB or DECODE with TREE_VALID = 0 and ENCODE with CT_VALID = 0 set ERR to 4 and ERRPOS and ERRSYM to 0, ENCODE also BLEN to
0 and DECODE also OLEN and BPOS to 0, whatever the lengths are; nothing else changes. (60_exceptions.md section 1, rule R183;
60_exceptions.md section 2, rule R186; 60_exceptions.md section 4, rule R190; 93_implementation_defined.md section 1, U4 (log
entry 4); 93_implementation_defined.md section 1, U5 (log entry 5)) -/
def Obligations.SequenceChecks : Prop :=
  ∀ s : State, s.err = 0#4 →
    (s.treeValid = false →
      exec .mktab s = .next { s with err := 4#4, errpos := 0#32, errsym := 0#8 } ∧
      exec .decode s = .next { s with err := 4#4, errpos := 0#32, errsym := 0#8, olen := 0#32, bpos := 0#32 }) ∧
    (s.ctValid = false →
      exec .encode s = .next { s with err := 4#4, errpos := 0#32, errsym := 0#8, blen := 0#32 })

/-- One record precedes another exactly when its weight is smaller or the weights are equal and its minsym is smaller, both
unsigned; the order is irreflexive and transitive, and of two records with different minsym exactly one precedes the other.
(R102) -/
def Obligations.PriorityOrderIsStrictTotal : Prop :=
  (∀ a b : NodeRec, precedes a b = true ↔
    a.weight.toNat < b.weight.toNat ∨ (a.weight.toNat = b.weight.toNat ∧ a.minsym.toNat < b.minsym.toNat)) ∧
  (∀ a : NodeRec, precedes a a = false) ∧
  (∀ a b c : NodeRec, precedes a b = true → precedes b c = true → precedes a c = true) ∧
  (∀ a b : NodeRec, a.minsym ≠ b.minsym → (precedes a b = true ↔ ¬ precedes b a = true))

/-- When the members of PQ have pairwise different minsym and PQ is not empty, ExtractMin answers a member that precedes every
other member, and PQ without it. (41_build.md section 2, rule R103) -/
def Obligations.ExtractMinTakesTheFirst : Prop :=
  ∀ (node : Vector NodeRec 511) (pq : List Nat), pq ≠ [] →
    pq.Pairwise (fun i j => (nodeAt node i).minsym ≠ (nodeAt node j).minsym) →
    ∃ m, extractMin node pq = some (m, pq.erase m) ∧ m ∈ pq ∧
      ∀ j ∈ pq, j ≠ m → precedes (nodeAt node m) (nodeAt node j) = true

/-- With no error pending and a table whose sum fits 32 bits, BUILD answers a next state in which only NODE, NSYM, ROOT and the
three flags may differ: NSYM is the number n of ByteValues with a positive count, TREE_VALID is 1, CT_VALID is 0, ROOT_VALID
is 1 exactly when n ≥ 1, and ROOT is 0 for n = 0, the one ByteValue for n = 1, and 254 + n for n ≥ 2. (41_build.md section 3,
rule R107; 10_state.md section 5, rule R38; 41_build.md section 4, rule R112) -/
def Obligations.BuildCompletesWithRoot : Prop :=
  ∀ s : State, s.err = 0#4 → ftSum s.ft ≤ 2 ^ 32 - 1 →
    ∃ node' nsym' root', exec .build s = .next
        { s with
          node := node', nsym := nsym', root := root', treeValid := true, ctValid := false
          rootValid := decide (1 ≤ (tableEntries s.ft).length) } ∧
      nsym'.toNat = (tableEntries s.ft).length ∧
      ((tableEntries s.ft).length = 0 → root'.toNat = 0) ∧
      (∀ b w, tableEntries s.ft = [(b, w)] → root'.toNat = b.toNat) ∧
      (2 ≤ (tableEntries s.ft).length → root'.toNat = 254 + (tableEntries s.ft).length)

/-- In the arena BUILD makes, NODE[b] for b below 256 is {valid 1, Leaf, sym b, minsym b, weight FT[b], left 0, right 0} when
FT[b] is positive and the all-zero record when it is 0, and every record at 256 + k with k ≥ n - 1 is the all-zero record.
(10_state.md section 5, rule R36; 41_build.md section 4, rule R110) -/
def Obligations.BuildPlacesLeaves : Prop :=
  ∀ s : State, s.err = 0#4 → ftSum s.ft ≤ 2 ^ 32 - 1 → ∃ t, exec .build s = .next t ∧
    (∀ b : Byte, nodeRead t.node b.toNat = some
      (if ftRead s.ft b = 0#32 then
        { valid := false, kind := .leaf, sym := 0#8, minsym := 0#8, weight := 0#32, left := 0#9, right := 0#9 }
      else
        { valid := true, kind := .leaf, sym := b, minsym := b, weight := ftRead s.ft b, left := 0#9, right := 0#9 })) ∧
    (∀ k, (tableEntries s.ft).length ≤ k + 1 → 256 + k < 511 → nodeRead t.node (256 + k) = some
      { valid := false, kind := .leaf, sym := 0#8, minsym := 0#8, weight := 0#32, left := 0#9, right := 0#9 })

/-- For a table of n entries whose sum fits 32 bits and every k < n - 1, NODE[256 + k] is a valid Internal node with sym 0 whose
two children are different valid records of smaller index, the left one before the right one in the priority order; its weight
is the exact sum of theirs and its minsym the smaller of theirs. (41_build.md section 3, rule R105; 41_build.md section 4,
rule R110) -/
def Obligations.BuildMergesOrderedPairs : Prop :=
  ∀ s : State, s.err = 0#4 → ftSum s.ft ≤ 2 ^ 32 - 1 → ∃ t, exec .build s = .next t ∧
    ∀ k, k + 1 < (tableEntries s.ft).length →
      ∃ r a c, nodeRead t.node (256 + k) = some r ∧ nodeRead t.node r.left.toNat = some a ∧
        nodeRead t.node r.right.toNat = some c ∧
        r.valid = true ∧ r.kind = .internal ∧ r.sym = 0#8 ∧ a.valid = true ∧ c.valid = true ∧
        r.left.toNat < 256 + k ∧ r.right.toNat < 256 + k ∧ r.left ≠ r.right ∧
        precedes a c = true ∧
        r.weight.toNat = a.weight.toNat + c.weight.toNat ∧
        r.minsym.toNat = min a.minsym.toNat c.minsym.toNat

/-- In the arena BUILD makes, two different merged nodes have no child in common. (41_build.md section 4, rule R110; 10_state.md
section 5, rule R36) -/
def Obligations.BuildSharesNoNode : Prop :=
  ∀ s : State, s.err = 0#4 → ftSum s.ft ≤ 2 ^ 32 - 1 → ∃ t, exec .build s = .next t ∧
    ∀ j k, j < k → k + 1 < (tableEntries s.ft).length →
      ∃ p q, nodeRead t.node (256 + j) = some p ∧ nodeRead t.node (256 + k) = some q ∧
        p.left ≠ q.left ∧ p.left ≠ q.right ∧ p.right ≠ q.left ∧ p.right ≠ q.right

/-- For a nonempty table whose sum fits 32 bits the arena denotes a tree whose Leaves are exactly the table's entries with their
counts, whose Internal weights are the sums of their children's, and whose root weighs the sum of the table; for the empty
table it denotes no tree. (10_state.md section 5, rules R36 and R37; 41_build.md section 4, rule R110) -/
def Obligations.BuildTreeHoldsTheTable : Prop :=
  ∀ s : State, s.err = 0#4 → ftSum s.ft ≤ 2 ^ 32 - 1 → ∃ t, exec .build s = .next t ∧
    (tableEntries s.ft = [] → denotedTree t = none) ∧
    (tableEntries s.ft ≠ [] → ∃ h, denotedTree t = some h ∧
      h.leaves.Perm (tableEntries s.ft) ∧ h.weightsAdd ∧ h.weight = ftSum s.ft)

/-- With no error pending and a table whose sum fits 32 bits, the tree that the arena denotes after BUILD is the one that
repeatedly merging the two first trees in the priority order gives, from the Leaves of the entries listed in any order.
(41_build.md section 3, rules R104 and R105; 41_build.md section 3, rule R108; 00_scope.md section 6, rule R15) -/
def Obligations.BuildRefinesTheMergeOfTrees : Prop :=
  ∀ s : State, s.err = 0#4 → ftSum s.ft ≤ 2 ^ 32 - 1 →
    ∃ t, exec .build s = .next t ∧
      ∀ entries : List (Byte × Nat), entries.Perm (tableEntries s.ft) → denotedTree t = huffTree entries

/-- From any reordering of the members of PQ after initialisation, the merges give bit for bit the same NODE and the same root as
BUILD writes. (41_build.md section 3, rule R108) -/
def Obligations.BuildIsInsertionOrderIndependent : Prop :=
  ∀ (ft : Vector Word 256) (pq : List Nat), pq.Perm (startMerge ft).pq →
    (mergeLoop 255 { startMerge ft with pq := pq }).node = (buildTree ft).node ∧
      rootOf (mergeLoop 255 { startMerge ft with pq := pq }).pq = (buildTree ft).root ∧
      (∀ s : State, s.ft = ft → s.err = 0#4 → ftSum ft ≤ 2 ^ 32 - 1 →
        ∃ t, exec .build s = .next t ∧ t.node = (mergeLoop 255 { startMerge ft with pq := pq }).node ∧
          t.root = rootOf (mergeLoop 255 { startMerge ft with pq := pq }).pq ∧
          t.nsym = BitVec.ofNat 9 pq.length)

/-- For every table with n entries the merge loop of BUILD performs exactly max(n - 1, 0) merges, at most 255, and leaves min(n,
1) members in PQ. (41_build.md section 5, rule R113) -/
def Obligations.BuildTakesOneMergePerSymbol : Prop :=
  ∀ ft : Vector Word 256,
    (mergeLoop 255 (startMerge ft)).k = (tableEntries ft).length - 1 ∧ (tableEntries ft).length - 1 ≤ 255 ∧
      (mergeLoop 255 (startMerge ft)).pq.length = min (tableEntries ft).length 1

/-- In a state of the invariant with no error pending and a valid tree, MKTAB answers a next state in which only CT and CT_VALID
may differ: CT_VALID is 1, and CT[b] is {valid 1, len |p|, code p} where p is the path of b in the denoted tree (the code "0"
for a lone Leaf), and the empty record where b is not in the tree or there is no tree. (42_mktab.md, rules R121 to R124 and
R127) -/
def Obligations.MktabRecordsPaths : Prop :=
  ∀ s : State, Inv s → s.err = 0#4 → s.treeValid = true →
    ∃ ct', exec .mktab s = .next { s with ct := ct', ctValid := true } ∧
      ∀ b : Byte, ctRead ct' b =
        match (denotedTree s).bind (HuffNode.codeOf b) with
        | some p => { valid := true, len := BitVec.ofNat 8 p.length, code := p }
        | none => { valid := false, len := 0#8, code := [] }

/-- In a state of the invariant with a valid code table, CT[b] is valid exactly when FT[b] > 0; a valid code has 1 to 255 bits and
as many code bits as its len says; an invalid record is {valid 0, len 0, code empty}. (10_state.md section 5, rules R39 and
R40; 42_mktab.md, rules R125 and R126) -/
def Obligations.MktabMatchesTheTable : Prop :=
  ∀ s : State, Inv s → s.ctValid = true → ∀ b : Byte,
    ((ctRead s.ct b).valid = true ↔ 0 < (ftRead s.ft b).toNat) ∧
    ((ctRead s.ct b).valid = true → 1 ≤ (ctRead s.ct b).len.toNat ∧ (ctRead s.ct b).len.toNat ≤ 255 ∧
      (ctRead s.ct b).code.length = (ctRead s.ct b).len.toNat) ∧
    ((ctRead s.ct b).valid = false → ctRead s.ct b = { valid := false, len := 0#8, code := [] })

/-- In a state of the invariant with a valid code table, for two different bytes with codes neither code is a prefix of the other.
(42_mktab.md, rule R126; 10_state.md section 5, rule R40) -/
def Obligations.CodesArePrefixFree : Prop :=
  ∀ s : State, Inv s → s.ctValid = true → ∀ b c : Byte, b ≠ c →
    (ctRead s.ct b).valid = true → (ctRead s.ct c).valid = true →
      ¬ codeBits (ctRead s.ct b) <+: codeBits (ctRead s.ct c)

/-- In a state of the invariant with a valid code table and NSYM ≥ 2, the sum over the valid codes of 2^(255 - len) is 2^255, that
is, the sum of 2^(-len) is 1. (42_mktab.md, rule R126) -/
def Obligations.CodesFillTheCodeSpace : Prop :=
  ∀ s : State, Inv s → s.ctValid = true → 2 ≤ s.nsym.toNat →
    ((List.range 256).map fun b =>
      if (ctRead s.ct (BitVec.ofNat 8 b)).valid then 2 ^ (255 - (ctRead s.ct (BitVec.ofNat 8 b)).len.toNat) else 0).sum = 2 ^ 255

/-- In a state of the invariant with a valid tree and n = NSYM, the stack form of the walk ends after exactly 2n - 1 visits (none
when n = 0) with an empty stack and the table MKTAB writes, the lone Leaf's code "0" included; after fewer visits a node is
still to be visited; and at every moment there are at most 255 pending pairs and no path is longer than 255. (42_mktab.md,
rule R128; 10_state.md section 7, rule R46) -/
def Obligations.MktabStackFormAgrees : Prop :=
  ∀ s : State, Inv s → s.err = 0#4 → s.treeValid = true →
    ∃ t, exec .mktab s = .next t ∧
      (mktabVisits s.node (2 * s.nsym.toNat - 1) (startMktab s.root s.rootValid)).cur = none ∧
      (mktabVisits s.node (2 * s.nsym.toNat - 1) (startMktab s.root s.rootValid)).pending = [] ∧
      (mktabVisits s.node (2 * s.nsym.toNat - 1) (startMktab s.root s.rootValid)).ct = t.ct ∧
      (∀ v, v < 2 * s.nsym.toNat - 1 → (mktabVisits s.node v (startMktab s.root s.rootValid)).cur ≠ none) ∧
      ∀ v, (mktabVisits s.node v (startMktab s.root s.rootValid)).pending.length ≤ 255 ∧
        (∀ p ∈ (mktabVisits s.node v (startMktab s.root s.rootValid)).pending, p.2 ≤ 255) ∧
        ∀ p, (mktabVisits s.node v (startMktab s.root s.rootValid)).cur = some p → p.2 ≤ 255

/-- With no error pending, a valid code table, ILEN ≤ MAXLEN, every input byte coded and the total length within MAXBITS, ENCODE
answers a next state in which only BITS and BLEN may differ: bit k is element k of the concatenated codes, the padding bits of
the last byte are 0, every byte from ceil(BLEN / 8) on is unchanged, and BLEN is the total length. (R132; R133) -/
def Obligations.EncodeConcatenatesCodes : Prop :=
  ∀ s : State, s.params.wf = true → s.err = 0#4 → s.ctValid = true → s.ilen.toNat ≤ s.params.maxLen →
    allCoded s.ct (inputBytes s) → (codesOf s.ct (inputBytes s)).length ≤ s.params.maxBits →
    ∃ m n, exec .encode s = .next { s with bits := m, blen := n } ∧
      n.toNat = (codesOf s.ct (inputBytes s)).length ∧
      n.toNat = ((inputBytes s).map fun b => (ctRead s.ct b).len.toNat).sum ∧
      (∀ k, k < n.toNat → bitRead m k = (codesOf s.ct (inputBytes s)).getD k false) ∧
      (∀ k, n.toNat ≤ k → k < 8 * ((n.toNat + 7) / 8) → bitRead m k = false) ∧
      (∀ j, (n.toNat + 7) / 8 ≤ j → memRead m j = memRead s.bits j)

/-- With no error pending, a valid code table and ILEN ≤ MAXLEN, when the input is pre ++ b :: post, every byte of pre is coded
and their codes fit MAXBITS: a byte b without an entry raises TableMismatch, and a coded b whose code does not fit raises
Capacity, each with ERRPOS = |pre|, ERRSYM = b and BLEN = 0; only BITS (unspecified then) may differ besides, and the counter
of free values. (43_encode.md, rules R131, R134 and R135; 60_exceptions.md section 1, rule R185; 93_implementation_defined.md
section 1, U4 (log entries 4 and 9)) -/
def Obligations.EncodeRaisesAtTheFirstBadByte : Prop :=
  ∀ (s : State) (pre post : List Byte) (b : Byte), s.err = 0#4 → s.ctValid = true →
    s.ilen.toNat ≤ s.params.maxLen → inputBytes s = pre ++ b :: post → allCoded s.ct pre →
    (codesOf s.ct pre).length ≤ s.params.maxBits →
    ((ctRead s.ct b).valid = false → ∃ m, exec .encode s = .next
      { s with
        err := 1#4, errpos := BitVec.ofNat 32 pre.length, errsym := b, blen := 0#32, bits := m, fresh := s.fresh + 1 }) ∧
    ((ctRead s.ct b).valid = true → s.params.maxBits < (codesOf s.ct pre).length + (ctRead s.ct b).len.toNat →
      ∃ m, exec .encode s = .next
        { s with
          err := 5#4, errpos := BitVec.ofNat 32 pre.length, errsym := b, blen := 0#32, bits := m, fresh := s.fresh + 1 })

/-- In every state, the loop of R131 that writes each code bit with BitWrite and then the padding bits ends as the model's ENCODE
loop does: with the same position and the same byte at every index, or with the same error at the same byte. (43_encode.md,
rules R131 and R138) -/
def Obligations.EncodeBitByBitAgrees : Prop :=
  ∀ s : State,
    match encodeFrom s.ct s.params.maxBits (inputBytes s) 0 0 with
    | .done str => ∃ m, encodeMicro s.ct s.params.maxBits (inputBytes s) { i := 0, pos := 0, mem := s.bits } =
        .done m str.length ∧ ∀ j, memRead m j = memRead (memWriteList s.bits 0 (packBits str)) j
    | .mismatch i b => encodeMicro s.ct s.params.maxBits (inputBytes s) { i := 0, pos := 0, mem := s.bits } = .mismatch i b
    | .overflow i b => encodeMicro s.ct s.params.maxBits (inputBytes s) { i := 0, pos := 0, mem := s.bits } = .overflow i b

/-- With no error pending, a valid (perhaps empty) tree, EXPLEN = 0 and BLEN ≤ MAXBITS, DECODE sets OLEN and BPOS to 0 and changes
nothing else. (44_decode.md, rule R143) -/
def Obligations.DecodeOfLengthZero : Prop :=
  ∀ s : State, s.err = 0#4 → s.treeValid = true → s.explen = 0#32 → s.blen.toNat ≤ s.params.maxBits →
    exec .decode s = .next { s with olen := 0#32, bpos := 0#32 }

/-- With no error pending, a valid empty tree, 0 < EXPLEN ≤ MAXLEN and BLEN ≤ MAXBITS, DECODE sets ERR to 2, ERRPOS, ERRSYM, OLEN
and BPOS to 0, and changes nothing else. (44_decode.md, rules R145 and R147; 93_implementation_defined.md section 1, U5 (log
entry 5)) -/
def Obligations.DecodeOfEmptyTree : Prop :=
  ∀ s : State, s.err = 0#4 → s.treeValid = true → s.rootValid = false → 0 < s.explen.toNat →
    s.explen.toNat ≤ s.params.maxLen → s.blen.toNat ≤ s.params.maxBits →
    exec .decode s = .next { s with err := 2#4, errpos := 0#32, errsym := 0#8, olen := 0#32, bpos := 0#32 }

/-- With no error pending, a valid tree whose root is a Leaf of symbol y, EXPLEN > 0 and both lengths within capacity: EXPLEN zero
bits give EXPLEN bytes y; a 1 at position k < EXPLEN after k zeros raises CorruptArtifact with ERRPOS k and BPOS k + 1; only
zeros but fewer than EXPLEN raise CorruptArtifact with ERRPOS and BPOS equal to BLEN; OBUF from index EXPLEN on is unchanged.
(44_decode.md, rules R144 and R147; 93_implementation_defined.md section 1, U5 (log entries 5 and 9)) -/
def Obligations.DecodeOfLoneLeaf : Prop :=
  ∀ (s : State) (r : NodeRec), s.params.wf = true → s.err = 0#4 → s.treeValid = true → s.rootValid = true →
    nodeRead s.node s.root.toNat = some r → r.kind = .leaf → 0 < s.explen.toNat →
    s.explen.toNat ≤ s.params.maxLen → s.blen.toNat ≤ s.params.maxBits →
    ((∃ rest, bitSequence s = List.replicate s.explen.toNat false ++ rest) →
      ∃ m, exec .decode s = .next { s with obuf := m, olen := s.explen, bpos := s.explen } ∧
        (∀ i, i < s.explen.toNat → memRead m i = r.sym) ∧
        ∀ i, s.explen.toNat ≤ i → memRead m i = memRead s.obuf i) ∧
    (∀ k rest, k < s.explen.toNat → bitSequence s = List.replicate k false ++ true :: rest →
      ∃ m, exec .decode s = .next
        { s with
          err := 2#4, errpos := BitVec.ofNat 32 k, errsym := 0#8, olen := 0#32, bpos := BitVec.ofNat 32 (k + 1), obuf := m
          fresh := s.fresh + 1 } ∧
        ∀ i, s.explen.toNat ≤ i → memRead m i = memRead s.obuf i) ∧
    (s.blen.toNat < s.explen.toNat → bitSequence s = List.replicate s.blen.toNat false →
      ∃ m, exec .decode s = .next
        { s with
          err := 2#4, errpos := s.blen, errsym := 0#8, olen := 0#32, bpos := s.blen, obuf := m, fresh := s.fresh + 1 } ∧
        ∀ i, s.explen.toNat ≤ i → memRead m i = memRead s.obuf i)

/-- In a state of the invariant with no error pending, a valid tree and both lengths within capacity, let ct be the code table of
the tree: if the bit sequence is the concatenated codes of EXPLEN coded symbols followed by any bits, DECODE answers a next
state in which OBUF[0 .. EXPLEN-1] are the symbols, every other byte of OBUF is unchanged, OLEN is EXPLEN, BPOS is the total
length of those codes, and nothing else changes. (44_decode.md, rules R142, R146, R148 and R150) -/
def Obligations.DecodeOfCodesGivesSymbols : Prop :=
  ∀ (s : State) (ct : Vector CodeRec 256) (syms : List Byte) (rest : BitString), Inv s → s.err = 0#4 → s.treeValid = true →
    s.explen.toNat ≤ s.params.maxLen → s.blen.toNat ≤ s.params.maxBits →
    codeTable s.node s.root s.rootValid = .ok ct → allCoded ct syms → syms.length = s.explen.toNat →
    bitSequence s = codesOf ct syms ++ rest →
    ∃ m, exec .decode s = .next
        { s with obuf := m, olen := s.explen, bpos := BitVec.ofNat 32 (codesOf ct syms).length } ∧
      (∀ i, i < syms.length → memRead m i = syms.getD i 0#8) ∧
      ∀ i, syms.length ≤ i → memRead m i = memRead s.obuf i

/-- In a state of the invariant with no error pending, a valid tree and both lengths within capacity, let ct be the code table of
the tree: if the bit sequence is the codes of fewer than EXPLEN symbols followed by a proper prefix, perhaps empty, of some
code, DECODE raises CorruptArtifact with ERRPOS the number of symbols, ERRSYM 0, OLEN 0 and BPOS = BLEN; OBUF from index
EXPLEN on is unchanged, and nothing else but the counter of free values changes. (44_decode.md, rules R147 and R150;
93_implementation_defined.md section 1, U5 (log entries 5 and 9)) -/
def Obligations.DecodeOfShortSequenceRaises : Prop :=
  ∀ (s : State) (ct : Vector CodeRec 256) (syms : List Byte) (p q : BitString) (b : Byte), Inv s → s.err = 0#4 →
    s.treeValid = true → s.explen.toNat ≤ s.params.maxLen → s.blen.toNat ≤ s.params.maxBits →
    codeTable s.node s.root s.rootValid = .ok ct → allCoded ct syms → syms.length < s.explen.toNat →
    (ctRead ct b).valid = true → codeBits (ctRead ct b) = p ++ q → q ≠ [] →
    bitSequence s = codesOf ct syms ++ p →
    ∃ m, exec .decode s = .next
        { s with
          err := 2#4, errpos := BitVec.ofNat 32 syms.length, errsym := 0#8, olen := 0#32, bpos := s.blen, obuf := m
          fresh := s.fresh + 1 } ∧
      ∀ i, s.explen.toNat ≤ i → memRead m i = memRead s.obuf i

/-- If DECODE succeeds with BPOS = p, then with any other contents of BITS that agree on the first p bits and any BLEN from p to
MAXBITS it succeeds with the same OLEN, BPOS and output bytes: padding and trailing bits are never interpreted. (44_decode.md,
rule R146; 20_memory.md section 2, rule R56) -/
def Obligations.DecodeNeverReadsPastItsPosition : Prop :=
  ∀ (s t : State) (m : Memory) (n : Word), Inv s → s.err = 0#4 → exec .decode s = .next t → t.err = 0#4 →
    t.bpos.toNat ≤ n.toNat → n.toNat ≤ s.params.maxBits →
    (∀ k, k < t.bpos.toNat → bitRead m k = bitRead s.bits k) →
    ∃ t', exec .decode { s with bits := m, blen := n } = .next t' ∧ t'.err = 0#4 ∧ t'.olen = t.olen ∧ t'.bpos = t.bpos ∧
      outputBytes t' = outputBytes t

/-- In a state of the invariant with no error pending, DECODE answers a next state in which only ERR, ERRPOS, ERRSYM, OLEN, BPOS,
OBUF below EXPLEN and the counter of free values may differ; either ERR stays 0, OLEN = EXPLEN and OLEN ≤ BPOS ≤ BLEN, or ERR
is 2, 4 or 5, OLEN is 0, BPOS ≤ BLEN and ERRSYM is 0. (44_decode.md, rules R141, R150 and R152; 60_exceptions.md section 2,
rule R186; 93_implementation_defined.md section 1, U5 (log entries 5 and 9)) -/
def Obligations.DecodeOutcome : Prop :=
  ∀ s : State, Inv s → s.err = 0#4 →
    ∃ t, exec .decode s = .next t ∧
      t = { s with
            err := t.err, errpos := t.errpos, errsym := t.errsym, olen := t.olen, bpos := t.bpos, obuf := t.obuf
            fresh := t.fresh } ∧
      (∀ i, s.explen.toNat ≤ i → memRead t.obuf i = memRead s.obuf i) ∧
      ((t.err = 0#4 ∧ t.olen = s.explen ∧ t.olen.toNat ≤ t.bpos.toNat ∧ t.bpos.toNat ≤ s.blen.toNat ∧
          t.errpos = s.errpos ∧ t.errsym = s.errsym) ∨
        ((t.err = 2#4 ∨ t.err = 4#4 ∨ t.err = 5#4) ∧ t.olen = 0#32 ∧ t.errsym = 0#8 ∧ t.bpos.toNat ≤ s.blen.toNat))

/-- In a state of the invariant with no error pending, when DECODE ends with ERR = 0 and ct is the code table of the tree, the
output bytes all have codes and the first BPOS bits of the sequence are their concatenated codes. (44_decode.md, rule R152) -/
def Obligations.BitsConsumedAreTheCodesOfTheOutput : Prop :=
  ∀ (s t : State) (ct : Vector CodeRec 256), Inv s → s.err = 0#4 → exec .decode s = .next t → t.err = 0#4 →
    codeTable s.node s.root s.rootValid = .ok ct →
      allCoded ct (outputBytes t) ∧ (bitSequence s).take t.bpos.toNat = codesOf ct (outputBytes t) ∧
        t.bpos.toNat = ((outputBytes t).map fun b => (ctRead ct b).len.toNat).sum

/-- From every state, CLR answers the state in which every register (CMD too, and STATUS with its flags) and every count is 0 and
everything else is unchanged. (45_system.md section 2, rule R162) -/
def Obligations.ClrClearsRegistersAndCounts : Prop :=
  ∀ s : State, ∃ ft', exec .clr s = .next
      { s with
        cmd := 0#8, err := 0#4, treeValid := false, ctValid := false, rootValid := false
        ilen := 0#32, blen := 0#32, explen := 0#32, olen := 0#32, nsym := 0#9, root := 0#9, bpos := 0#32
        errpos := 0#32, errsym := 0#8, ft := ft' } ∧ ∀ b : Byte, ftRead ft' b = 0#32

/-- Whenever a command answers a next state: IBUF, the parameters and the host's account are unchanged; only ENCODE changes BITS,
only DECODE OBUF, only COUNT and CLR FT, only BUILD NODE, only MKTAB CT; only CLR changes CMD, ILEN and EXPLEN; BLEN is
changed only by ENCODE and CLR, OLEN and BPOS only by DECODE and CLR, NSYM, ROOT, TREE_VALID and ROOT_VALID only by COUNT,
BUILD and CLR, CT_VALID not by ENCODE or DECODE; and ERRPOS and ERRSYM only together with ERR. (45_system.md section 6, rule
R170; 30_encoding.md section 3, rule R74) -/
def Obligations.CommandsChangeOnlyTheirResults : Prop :=
  ∀ (i : Instr) (s t : State), exec i s = .next t →
    t.ibuf = s.ibuf ∧ t.params = s.params ∧ t.pending = s.pending ∧ t.hostIndex = s.hostIndex ∧ t.reply = s.reply ∧
    (i ≠ .encode → t.bits = s.bits) ∧
    (i ≠ .decode → t.obuf = s.obuf) ∧
    (i ≠ .count → i ≠ .clr → t.ft = s.ft) ∧
    (i ≠ .build → t.node = s.node) ∧
    (i ≠ .mktab → t.ct = s.ct) ∧
    (i ≠ .clr → t.cmd = s.cmd ∧ t.ilen = s.ilen ∧ t.explen = s.explen) ∧
    (i ≠ .encode → i ≠ .clr → t.blen = s.blen) ∧
    (i ≠ .decode → i ≠ .clr → t.olen = s.olen ∧ t.bpos = s.bpos) ∧
    (i ≠ .count → i ≠ .build → i ≠ .clr →
      t.nsym = s.nsym ∧ t.root = s.root ∧ t.treeValid = s.treeValid ∧ t.rootValid = s.rootValid) ∧
    (i = .encode ∨ i = .decode → t.ctValid = s.ctValid) ∧
    (i ≠ .encode → i ≠ .decode → t.fresh = s.fresh) ∧
    (i ≠ .clr → t.err = s.err → t.errpos = s.errpos ∧ t.errsym = s.errsym)

/-- Whenever COUNT, BUILD, MKTAB or CLR answers the state t, issuing it again in t answers t. (40_count.md, rule R92; 41_build.md
section 4, rule R111; 42_mktab.md, rule R127) -/
def Obligations.RepeatedCommandsAgree : Prop :=
  ∀ (i : Instr) (s t : State), i = .count ∨ i = .build ∨ i = .mktab ∨ i = .clr →
    exec i s = .next t → exec i t = .next t

/-- While ERR is not 0, every step whose host action is neither a reset event nor a write of a word 0x06 to CMD answers a next
state with the same ERR, ERRPOS and ERRSYM; no second error is raised on top of a pending one. (60_exceptions.md section 3,
rules R188 and R189) -/
def Obligations.PendingErrorSurvivesEveryOtherAction : Prop :=
  ∀ (s : State) (a : HostAction) (rest : List HostAction), s.params.wf = true → s.pending = a :: rest → s.err ≠ 0#4 →
    a ≠ .reset → (∀ v, a = .write 0 0 v → v % 256 ≠ 6) →
    ∃ t, step s = .next t ∧ t.err = s.err ∧ t.errpos = s.errpos ∧ t.errsym = s.errsym

/-- The state after reset satisfies the invariant. (10_state.md section 8; 20_memory.md section 1) -/
def Obligations.InvHoldsAtReset : Prop :=
  Inv State.reset

/-- From every state of the invariant, whatever the host asks, the next state satisfies the invariant: TREE_VALID means that NODE,
ROOT, NSYM and ROOT_VALID are BUILD of the present FT, CT_VALID means that CT is MKTAB of the present tree, ERR is 0 to 5 with
ERRPOS and ERRSYM 0 when it is 0, the memories are canonical and in range, and OLEN and BPOS are within the capacities.
(10_state.md section 2, rules R25 and R26; 10_state.md section 4, rules R30 to R32; 60_exceptions.md section 1, rule R181) -/
def Obligations.StepKeepsInv : Prop :=
  ∀ s t : State, Inv s → step s = .next t → Inv t

/-- From every state of the invariant, for every next host action, step answers a next state; no fault and no refusal can happen.
(45_system.md section 6, rule R171; 41_build.md section 4, rule R110; 44_decode.md, rule R150) -/
def Obligations.StepNeverStops : Prop :=
  ∀ s : State, Inv s → ∃ t, step s = .next t

/-- In a state of the invariant with no error pending and a valid code table, if ENCODE succeeds and EXPLEN is set to ILEN, DECODE
succeeds with OBUF[0 .. ILEN-1] = IBUF[0 .. ILEN-1], OLEN = ILEN and BPOS = BLEN. (44_decode.md, rule R151) -/
def Obligations.DecodeInvertsEncode : Prop :=
  ∀ s t : State, Inv s → s.err = 0#4 → s.ctValid = true → exec .encode s = .next t → t.err = 0#4 →
    ∃ u, exec .decode { t with explen := s.ilen } = .next u ∧ u.err = 0#4 ∧ outputBytes u = inputBytes s ∧
      (∀ i, i < s.ilen.toNat → memRead u.obuf i = memRead s.ibuf i) ∧ u.olen = s.ilen ∧ u.bpos = t.blen

/-- For every buffer in IBUF (the empty one too), with no error pending and ILEN ≤ MAXLEN: COUNT, BUILD and MKTAB raise no error
and give every byte of the buffer a code; if the encoded length fits MAXBITS then ENCODE raises no error and sets BLEN to it,
and DECODE with EXPLEN = ILEN raises none, OLEN = ILEN and OBUF[0 .. ILEN-1] is the buffer. (R18) -/
def Obligations.CompressionRoundTrip : Prop :=
  ∀ s : State, s.params.wf = true → s.err = 0#4 → s.ilen.toNat ≤ s.params.maxLen →
    ∃ s₁ s₂ s₃, exec .count s = .next s₁ ∧ exec .build s₁ = .next s₂ ∧ exec .mktab s₂ = .next s₃ ∧
      s₃.err = 0#4 ∧ s₃.ctValid = true ∧ allCoded s₃.ct (inputBytes s) ∧
      ((codesOf s₃.ct (inputBytes s)).length ≤ s.params.maxBits →
        ∃ s₄ u, exec .encode s₃ = .next s₄ ∧ s₄.err = 0#4 ∧
          s₄.blen.toNat = (codesOf s₃.ct (inputBytes s)).length ∧ exec .decode { s₄ with explen := s.ilen } = .next u ∧
          u.err = 0#4 ∧ u.olen = s.ilen ∧ outputBytes u = inputBytes s)

/-- For every nonempty buffer in IBUF with ILEN ≤ MAXLEN and no error pending, after COUNT and BUILD the record at ROOT weighs
ILEN; if all its bytes are the same and ILEN ≤ MAXBITS, then after MKTAB and ENCODE the bit sequence is ILEN zeros.
(00_scope.md section 8, rule R19; 43_encode.md, rule R136) -/
def Obligations.WeightInvariantAndDegenerateAlphabet : Prop :=
  ∀ s : State, s.params.wf = true → s.err = 0#4 → s.ilen.toNat ≤ s.params.maxLen → 0 < s.ilen.toNat →
    ∃ s₁ s₂ r, exec .count s = .next s₁ ∧ exec .build s₁ = .next s₂ ∧ s₂.rootValid = true ∧
      nodeRead s₂.node s₂.root.toNat = some r ∧ r.weight = s.ilen ∧
      ((∀ i, i < s.ilen.toNat → memRead s.ibuf i = memRead s.ibuf 0) → s.ilen.toNat ≤ s.params.maxBits →
        ∃ s₃ s₄, exec .mktab s₂ = .next s₃ ∧ exec .encode s₃ = .next s₄ ∧ s₄.err = 0#4 ∧
          bitSequence s₄ = List.replicate s.ilen.toNat false)

/-- LOADIN with at most MAXLEN bytes makes the input buffer those bytes; LOADBITS with at most MAXBITS bits makes the bit sequence
those bits; LOADFT writes the listed counts in order and no other; LOADIN and LOADBITS leave the validity flags and ERR as
they were. (30_encoding.md section 6, rule R81) -/
def Obligations.LoadPseudoCommandsLoad : Prop :=
  (∀ (s : State) (bytes : List Byte), s.params.wf = true → bytes.length ≤ s.params.maxLen →
    ∃ t, runActions s (expandPseudo (.loadin bytes)) = .next t ∧ inputBytes t = bytes ∧ t.ilen.toNat = bytes.length ∧
      t.err = s.err ∧ t.treeValid = s.treeValid ∧ t.ctValid = s.ctValid ∧ t.rootValid = s.rootValid) ∧
  (∀ (s : State) (bits : BitString), s.params.wf = true → bits.length ≤ s.params.maxBits →
    ∃ t, runActions s (expandPseudo (.loadbits bits)) = .next t ∧ bitSequence t = bits ∧ t.blen.toNat = bits.length ∧
      t.err = s.err ∧ t.treeValid = s.treeValid ∧ t.ctValid = s.ctValid ∧ t.rootValid = s.rootValid) ∧
  (∀ (s : State) (entries : List (Byte × Word)),
    ∃ t, runActions s (expandPseudo (.loadft entries)) = .next t ∧
      ∀ b : Byte, ftRead t.ft b = ((entries.reverse.find? fun e => e.1 == b).map Prod.snd).getD (ftRead s.ft b))

/-- In a state of the invariant with a valid tree, no two visits of the stack form are of the same node, and a record of NODE is
visited exactly when it is valid. (42_mktab.md, rule R128; 41_build.md section 4, rule R110) -/
def Obligations.MktabVisitsEachNodeOnce : Prop :=
  ∀ s : State, Inv s → s.treeValid = true →
    (∀ v w p q, (mktabVisits s.node v (startMktab s.root s.rootValid)).cur = some p →
      (mktabVisits s.node w (startMktab s.root s.rootValid)).cur = some q → p.1 = q.1 → v = w) ∧
    ∀ (i : NodeIdx) (r : NodeRec), nodeRead s.node i.toNat = some r →
      (r.valid = true ↔ ∃ v len, (mktabVisits s.node v (startMktab s.root s.rootValid)).cur = some (i, len))
end

