-- ==== Sys2Proof/Laws/Memory.lean ====
section
/-! SUPPORT. The laws of the byte memories and of the tables: a read after a write, and that every memory operation keeps the
canonical form and the index range. -/

namespace Sys2Proof.Machine

/-! ### Reads after writes -/

theorem cellsFind_cellsInsert (cs : List Host.Cell) (i j : Nat) (v : Byte) :
    cellsFind (cellsInsert cs i v) j = if i = j then some v else cellsFind cs j := by
  induction cs with
  | nil => simp [cellsInsert, cellsFind]
  | cons c cs ih =>
    obtain ⟨a, w⟩ := c
    simp only [cellsInsert]
    split
    · simp [cellsFind]
    · split
      · rename_i h
        subst h
        by_cases h : i = j <;> simp [cellsFind, h]
      · rename_i h₁ h₂
        simp only [cellsFind, ih]
        by_cases ha : a = j
        · subst ha
          simp [h₂]
        · simp [ha]

theorem memRead_memWrite (m : Memory) (i j : Nat) (v : Byte) :
    memRead (memWrite m i v) j = if i = j then v else memRead m j := by
  simp only [memRead, memWrite, cellsFind_cellsInsert]
  by_cases h : i = j <;> simp [h]

@[simp] theorem memRead_memWrite_same (m : Memory) (i : Nat) (v : Byte) : memRead (memWrite m i v) i = v := by
  simp [memRead_memWrite]

theorem memRead_memWrite_other (m : Memory) {i j : Nat} (v : Byte) (h : i ≠ j) :
    memRead (memWrite m i v) j = memRead m j := by
  simp [memRead_memWrite, h]

/-- What a run of writes leaves at each index. -/
theorem memRead_memWriteList (vs : List Byte) (m : Memory) (i j : Nat) :
    memRead (memWriteList m i vs) j = if i ≤ j then (vs[j - i]?).getD (memRead m j) else memRead m j := by
  induction vs generalizing m i with
  | nil => simp [memWriteList]
  | cons v vs ih =>
    rw [memWriteList, ih, memRead_memWrite]
    rcases Nat.lt_trichotomy j i with h | rfl | h
    · rw [if_neg (by omega), if_neg (by omega), if_neg (by omega)]
    · rw [if_neg (by omega), if_pos rfl, if_pos (le_refl _)]
      simp
    · obtain ⟨d, rfl⟩ : ∃ d, j = i + 1 + d := ⟨j - (i + 1), by omega⟩
      rw [if_pos (by omega), if_neg (by omega), if_pos (by omega), show i + 1 + d - (i + 1) = d by omega,
        show i + 1 + d - i = d + 1 by omega, List.getElem?_cons_succ]

@[simp] theorem memWriteList_stamp (vs : List Byte) (m : Memory) (i : Nat) : (memWriteList m i vs).stamp = m.stamp := by
  induction vs generalizing m i with
  | nil => rfl
  | cons v vs ih => rw [memWriteList, ih]; rfl

@[simp] theorem memWrite_stamp (m : Memory) (i : Nat) (v : Byte) : (memWrite m i v).stamp = m.stamp := rfl

@[simp] theorem memForgetBelow_stamp (m : Memory) (n st : Nat) : (memForgetBelow m n st).stamp = m.stamp := rfl

theorem cellsFind_append (cs ds : List Host.Cell) (j : Nat) :
    cellsFind (cs ++ ds) j = (cellsFind cs j).or (cellsFind ds j) := by
  induction cs with
  | nil => rfl
  | cons c cs ih =>
    obtain ⟨a, w⟩ := c
    simp only [List.cons_append, cellsFind, ih]
    split <;> simp

theorem cellsFind_map_range (f : Nat → Byte) (n j : Nat) :
    cellsFind ((List.range n).map fun a => (a, f a)) j = if j < n then some (f j) else none := by
  induction n with
  | zero => rfl
  | succ n ih =>
    rw [List.range_succ, List.map_append, cellsFind_append, ih]
    rcases Nat.lt_trichotomy j n with h | rfl | h
    · simp [h, Nat.lt_succ_of_lt h]
    · simp [cellsFind]
    · rw [if_neg (by omega), if_neg (by omega)]
      simp [cellsFind, show n ≠ j by omega]

theorem cellsFind_filter_ge (cs : List Host.Cell) (n j : Nat) (h : n ≤ j) :
    cellsFind (cs.filter fun c => decide (n ≤ c.1)) j = cellsFind cs j := by
  induction cs with
  | nil => rfl
  | cons c cs ih =>
    obtain ⟨a, w⟩ := c
    by_cases ha : n ≤ a
    · simp [ha, cellsFind, ih]
    · simp [ha, cellsFind, ih, show a ≠ j by omega]

/-- The forgotten bytes are free values; the others read as before (U5). -/
theorem memRead_memForgetBelow (m : Memory) (n st j : Nat) :
    memRead (memForgetBelow m n st) j = if j < n then Config.freeByte st j else memRead m j := by
  simp only [memRead, memForgetBelow, cellsFind_append, cellsFind_map_range]
  by_cases h : j < n
  · simp [h]
  · simp [h, cellsFind_filter_ge _ n j (by omega)]

/-! ### The canonical form -/

theorem mem_cellsInsert {cs : List Host.Cell} {i : Nat} {v : Byte} {c : Host.Cell} (h : c ∈ cellsInsert cs i v) :
    c = (i, v) ∨ c ∈ cs := by
  induction cs with
  | nil => simpa [cellsInsert] using h
  | cons d cs ih =>
    obtain ⟨a, w⟩ := d
    simp only [cellsInsert] at h
    split at h
    · simpa using h
    · split at h
      · rcases List.mem_cons.1 h with h | h
        · exact .inl h
        · exact .inr (List.mem_cons_of_mem _ h)
      · rcases List.mem_cons.1 h with h | h
        · exact .inr (h ▸ List.mem_cons_self)
        · exact (ih h).imp id (List.mem_cons_of_mem _)

theorem memWrite_wf {m : Memory} (h : m.wf) (i : Nat) (v : Byte) : (memWrite m i v).wf := by
  obtain ⟨cs, st⟩ := m
  simp only [Memory.wf, memWrite] at h ⊢
  induction cs with
  | nil => simp [cellsInsert]
  | cons c cs ih =>
    obtain ⟨a, w⟩ := c
    obtain ⟨hhead, htail⟩ := List.pairwise_cons.1 h
    simp only [cellsInsert]
    split
    · rename_i hia
      refine List.pairwise_cons.2 ⟨fun d hd => ?_, h⟩
      rcases List.mem_cons.1 hd with rfl | hd
      · exact hia
      · exact Nat.lt_trans hia (hhead d hd)
    · split
      · rename_i hia
        subst hia
        exact List.pairwise_cons.2 ⟨hhead, htail⟩
      · refine List.pairwise_cons.2 ⟨fun d hd => ?_, ih htail⟩
        rcases mem_cellsInsert hd with rfl | hd
        · show a < i
          omega
        · exact hhead d hd

theorem memWriteList_wf (vs : List Byte) {m : Memory} (h : m.wf) (i : Nat) : (memWriteList m i vs).wf := by
  induction vs generalizing m i with
  | nil => exact h
  | cons v vs ih => exact ih (memWrite_wf h i v) (i + 1)

theorem memForgetBelow_wf {m : Memory} (h : m.wf) (n st : Nat) : (memForgetBelow m n st).wf := by
  refine List.pairwise_append.2 ⟨?_, List.Pairwise.filter _ h, fun c hc d hd => ?_⟩
  · exact List.pairwise_map.2 (List.pairwise_lt_range.imp fun h => h)
  · obtain ⟨a, ha, rfl⟩ := List.mem_map.1 hc
    have := List.mem_range.1 ha
    have := of_decide_eq_true (List.mem_filter.1 hd).2
    show a < d.1
    omega

theorem unwritten_wf (n : Nat) : (Memory.unwritten n).wf := List.Pairwise.nil

/-- The memories of the state after reset are canonical. -/
theorem reset_memories_wf : State.reset.ibuf.wf ∧ State.reset.bits.wf ∧ State.reset.obuf.wf :=
  ⟨unwritten_wf _, unwritten_wf _, unwritten_wf _⟩

/-! ### The index range -/

theorem memWrite_range {m : Memory} {size : Nat} (h : ∀ c ∈ m.cells, c.1 < size) {i : Nat} (hi : i < size) (v : Byte) :
    ∀ c ∈ (memWrite m i v).cells, c.1 < size := fun c hc => by
  rcases mem_cellsInsert hc with rfl | hc
  · exact hi
  · exact h c hc

theorem memWriteList_range (vs : List Byte) {m : Memory} {size : Nat} (h : ∀ c ∈ m.cells, c.1 < size) {i : Nat}
    (hi : i + vs.length ≤ size) : ∀ c ∈ (memWriteList m i vs).cells, c.1 < size := by
  induction vs generalizing m i with
  | nil => exact h
  | cons v vs ih =>
    simp only [List.length_cons] at hi
    exact ih (memWrite_range h (by omega) v) (by omega)

theorem memForgetBelow_range {m : Memory} {size : Nat} (h : ∀ c ∈ m.cells, c.1 < size) {n : Nat} (hn : n ≤ size) (st : Nat) :
    ∀ c ∈ (memForgetBelow m n st).cells, c.1 < size := fun c hc => by
  rcases List.mem_append.1 hc with hc | hc
  · obtain ⟨a, ha, rfl⟩ := List.mem_map.1 hc
    exact Nat.lt_of_lt_of_le (List.mem_range.1 ha) hn
  · exact h c (List.mem_filter.1 hc).1

/-! ### Tables -/

theorem ftRead_ftWrite (ft : Vector Word 256) (b c : Byte) (v : Word) :
    ftRead (ftWrite ft b v) c = if b = c then v else ftRead ft c := by
  simp only [ftRead, ftWrite, Vector.getElem_set, BitVec.toNat_inj]

@[simp] theorem ftRead_emptyFt (b : Byte) : ftRead emptyFt b = 0 := by
  simp [ftRead, emptyFt]

theorem ctRead_ctWrite (ct : Vector CodeRec 256) (b c : Byte) (r : CodeRec) :
    ctRead (ctWrite ct b r) c = if b = c then r else ctRead ct c := by
  simp only [ctRead, ctWrite, Vector.getElem_set, BitVec.toNat_inj]

theorem nodeRead_some_iff (node : Vector NodeRec 511) (i : Nat) : (∃ r, nodeRead node i = some r) ↔ i < 511 := by
  unfold nodeRead
  split <;> simp_all

theorem nodeRead_nodeWrite (node : Vector NodeRec 511) (i j : Nat) (r : NodeRec) :
    nodeRead (nodeWrite node i r) j = if i = j ∧ j < 511 then some r else nodeRead node j := by
  unfold nodeRead nodeWrite
  by_cases hj : j < 511
  · by_cases hi : i < 511
    · by_cases hij : i = j <;> simp [hj, hi, hij]
    · simp [hj, hi, show i ≠ j by omega]
  · simp [hj]

/-- Two tables are equal when they read equal everywhere. -/
theorem ft_ext {f g : Vector Word 256} (h : ∀ b, ftRead f b = ftRead g b) : f = g := by
  apply Vector.ext
  intro i hi
  have := h (BitVec.ofNat 8 i)
  simpa [ftRead, Nat.mod_eq_of_lt hi] using this

theorem ct_ext {f g : Vector CodeRec 256} (h : ∀ b, ctRead f b = ctRead g b) : f = g := by
  apply Vector.ext
  intro i hi
  have := h (BitVec.ofNat 8 i)
  simpa [ctRead, Nat.mod_eq_of_lt hi] using this

end Sys2Proof.Machine
end

