-- ==== Sys2Proof/Laws/State.lean ====
section
/-! SUPPORT. One lemma per field per update of State, so that no later proof unfolds a record update. -/

namespace Sys2Proof.Machine

/-! ### invalidateTree -/

@[simp] theorem invalidateTree_cmd (s : State) : (invalidateTree s).cmd = s.cmd := rfl
@[simp] theorem invalidateTree_err (s : State) : (invalidateTree s).err = s.err := rfl
@[simp] theorem invalidateTree_treeValid (s : State) : (invalidateTree s).treeValid = false := rfl
@[simp] theorem invalidateTree_ctValid (s : State) : (invalidateTree s).ctValid = false := rfl
@[simp] theorem invalidateTree_rootValid (s : State) : (invalidateTree s).rootValid = false := rfl
@[simp] theorem invalidateTree_ilen (s : State) : (invalidateTree s).ilen = s.ilen := rfl
@[simp] theorem invalidateTree_blen (s : State) : (invalidateTree s).blen = s.blen := rfl
@[simp] theorem invalidateTree_explen (s : State) : (invalidateTree s).explen = s.explen := rfl
@[simp] theorem invalidateTree_olen (s : State) : (invalidateTree s).olen = s.olen := rfl
@[simp] theorem invalidateTree_nsym (s : State) : (invalidateTree s).nsym = 0 := rfl
@[simp] theorem invalidateTree_root (s : State) : (invalidateTree s).root = 0 := rfl
@[simp] theorem invalidateTree_bpos (s : State) : (invalidateTree s).bpos = s.bpos := rfl
@[simp] theorem invalidateTree_errpos (s : State) : (invalidateTree s).errpos = s.errpos := rfl
@[simp] theorem invalidateTree_errsym (s : State) : (invalidateTree s).errsym = s.errsym := rfl
@[simp] theorem invalidateTree_ft (s : State) : (invalidateTree s).ft = s.ft := rfl
@[simp] theorem invalidateTree_node (s : State) : (invalidateTree s).node = s.node := rfl
@[simp] theorem invalidateTree_ct (s : State) : (invalidateTree s).ct = s.ct := rfl
@[simp] theorem invalidateTree_ibuf (s : State) : (invalidateTree s).ibuf = s.ibuf := rfl
@[simp] theorem invalidateTree_bits (s : State) : (invalidateTree s).bits = s.bits := rfl
@[simp] theorem invalidateTree_obuf (s : State) : (invalidateTree s).obuf = s.obuf := rfl
@[simp] theorem invalidateTree_params (s : State) : (invalidateTree s).params = s.params := rfl
@[simp] theorem invalidateTree_pending (s : State) : (invalidateTree s).pending = s.pending := rfl
@[simp] theorem invalidateTree_hostIndex (s : State) : (invalidateTree s).hostIndex = s.hostIndex := rfl
@[simp] theorem invalidateTree_reply (s : State) : (invalidateTree s).reply = s.reply := rfl
@[simp] theorem invalidateTree_fresh (s : State) : (invalidateTree s).fresh = s.fresh := rfl

/-! ### invalidateTable -/

@[simp] theorem invalidateTable_cmd (s : State) : (invalidateTable s).cmd = s.cmd := rfl
@[simp] theorem invalidateTable_err (s : State) : (invalidateTable s).err = s.err := rfl
@[simp] theorem invalidateTable_treeValid (s : State) : (invalidateTable s).treeValid = s.treeValid := rfl
@[simp] theorem invalidateTable_ctValid (s : State) : (invalidateTable s).ctValid = false := rfl
@[simp] theorem invalidateTable_rootValid (s : State) : (invalidateTable s).rootValid = s.rootValid := rfl
@[simp] theorem invalidateTable_ilen (s : State) : (invalidateTable s).ilen = s.ilen := rfl
@[simp] theorem invalidateTable_blen (s : State) : (invalidateTable s).blen = s.blen := rfl
@[simp] theorem invalidateTable_explen (s : State) : (invalidateTable s).explen = s.explen := rfl
@[simp] theorem invalidateTable_olen (s : State) : (invalidateTable s).olen = s.olen := rfl
@[simp] theorem invalidateTable_nsym (s : State) : (invalidateTable s).nsym = s.nsym := rfl
@[simp] theorem invalidateTable_root (s : State) : (invalidateTable s).root = s.root := rfl
@[simp] theorem invalidateTable_bpos (s : State) : (invalidateTable s).bpos = s.bpos := rfl
@[simp] theorem invalidateTable_errpos (s : State) : (invalidateTable s).errpos = s.errpos := rfl
@[simp] theorem invalidateTable_errsym (s : State) : (invalidateTable s).errsym = s.errsym := rfl
@[simp] theorem invalidateTable_ft (s : State) : (invalidateTable s).ft = s.ft := rfl
@[simp] theorem invalidateTable_node (s : State) : (invalidateTable s).node = s.node := rfl
@[simp] theorem invalidateTable_ct (s : State) : (invalidateTable s).ct = s.ct := rfl
@[simp] theorem invalidateTable_ibuf (s : State) : (invalidateTable s).ibuf = s.ibuf := rfl
@[simp] theorem invalidateTable_bits (s : State) : (invalidateTable s).bits = s.bits := rfl
@[simp] theorem invalidateTable_obuf (s : State) : (invalidateTable s).obuf = s.obuf := rfl
@[simp] theorem invalidateTable_params (s : State) : (invalidateTable s).params = s.params := rfl
@[simp] theorem invalidateTable_pending (s : State) : (invalidateTable s).pending = s.pending := rfl
@[simp] theorem invalidateTable_hostIndex (s : State) : (invalidateTable s).hostIndex = s.hostIndex := rfl
@[simp] theorem invalidateTable_reply (s : State) : (invalidateTable s).reply = s.reply := rfl
@[simp] theorem invalidateTable_fresh (s : State) : (invalidateTable s).fresh = s.fresh := rfl

/-! ### clearState -/

@[simp] theorem clearState_cmd (s : State) : (clearState s).cmd = 0 := rfl
@[simp] theorem clearState_err (s : State) : (clearState s).err = 0 := rfl
@[simp] theorem clearState_treeValid (s : State) : (clearState s).treeValid = false := rfl
@[simp] theorem clearState_ctValid (s : State) : (clearState s).ctValid = false := rfl
@[simp] theorem clearState_rootValid (s : State) : (clearState s).rootValid = false := rfl
@[simp] theorem clearState_ilen (s : State) : (clearState s).ilen = 0 := rfl
@[simp] theorem clearState_blen (s : State) : (clearState s).blen = 0 := rfl
@[simp] theorem clearState_explen (s : State) : (clearState s).explen = 0 := rfl
@[simp] theorem clearState_olen (s : State) : (clearState s).olen = 0 := rfl
@[simp] theorem clearState_nsym (s : State) : (clearState s).nsym = 0 := rfl
@[simp] theorem clearState_root (s : State) : (clearState s).root = 0 := rfl
@[simp] theorem clearState_bpos (s : State) : (clearState s).bpos = 0 := rfl
@[simp] theorem clearState_errpos (s : State) : (clearState s).errpos = 0 := rfl
@[simp] theorem clearState_errsym (s : State) : (clearState s).errsym = 0 := rfl
@[simp] theorem clearState_ft (s : State) : (clearState s).ft = emptyFt := rfl
@[simp] theorem clearState_node (s : State) : (clearState s).node = s.node := rfl
@[simp] theorem clearState_ct (s : State) : (clearState s).ct = s.ct := rfl
@[simp] theorem clearState_ibuf (s : State) : (clearState s).ibuf = s.ibuf := rfl
@[simp] theorem clearState_bits (s : State) : (clearState s).bits = s.bits := rfl
@[simp] theorem clearState_obuf (s : State) : (clearState s).obuf = s.obuf := rfl
@[simp] theorem clearState_params (s : State) : (clearState s).params = s.params := rfl
@[simp] theorem clearState_pending (s : State) : (clearState s).pending = s.pending := rfl
@[simp] theorem clearState_hostIndex (s : State) : (clearState s).hostIndex = s.hostIndex := rfl
@[simp] theorem clearState_reply (s : State) : (clearState s).reply = s.reply := rfl
@[simp] theorem clearState_fresh (s : State) : (clearState s).fresh = s.fresh := rfl

/-! ### installTree -/

@[simp] theorem installTree_cmd (t : TreeResult) (s : State) : (installTree t s).cmd = s.cmd := rfl
@[simp] theorem installTree_err (t : TreeResult) (s : State) : (installTree t s).err = s.err := rfl
@[simp] theorem installTree_treeValid (t : TreeResult) (s : State) : (installTree t s).treeValid = true := rfl
@[simp] theorem installTree_ctValid (t : TreeResult) (s : State) : (installTree t s).ctValid = false := rfl
@[simp] theorem installTree_rootValid (t : TreeResult) (s : State) : (installTree t s).rootValid = t.rootValid := rfl
@[simp] theorem installTree_ilen (t : TreeResult) (s : State) : (installTree t s).ilen = s.ilen := rfl
@[simp] theorem installTree_blen (t : TreeResult) (s : State) : (installTree t s).blen = s.blen := rfl
@[simp] theorem installTree_explen (t : TreeResult) (s : State) : (installTree t s).explen = s.explen := rfl
@[simp] theorem installTree_olen (t : TreeResult) (s : State) : (installTree t s).olen = s.olen := rfl
@[simp] theorem installTree_nsym (t : TreeResult) (s : State) : (installTree t s).nsym = t.nsym := rfl
@[simp] theorem installTree_root (t : TreeResult) (s : State) : (installTree t s).root = t.root := rfl
@[simp] theorem installTree_bpos (t : TreeResult) (s : State) : (installTree t s).bpos = s.bpos := rfl
@[simp] theorem installTree_errpos (t : TreeResult) (s : State) : (installTree t s).errpos = s.errpos := rfl
@[simp] theorem installTree_errsym (t : TreeResult) (s : State) : (installTree t s).errsym = s.errsym := rfl
@[simp] theorem installTree_ft (t : TreeResult) (s : State) : (installTree t s).ft = s.ft := rfl
@[simp] theorem installTree_node (t : TreeResult) (s : State) : (installTree t s).node = t.node := rfl
@[simp] theorem installTree_ct (t : TreeResult) (s : State) : (installTree t s).ct = s.ct := rfl
@[simp] theorem installTree_ibuf (t : TreeResult) (s : State) : (installTree t s).ibuf = s.ibuf := rfl
@[simp] theorem installTree_bits (t : TreeResult) (s : State) : (installTree t s).bits = s.bits := rfl
@[simp] theorem installTree_obuf (t : TreeResult) (s : State) : (installTree t s).obuf = s.obuf := rfl
@[simp] theorem installTree_params (t : TreeResult) (s : State) : (installTree t s).params = s.params := rfl
@[simp] theorem installTree_pending (t : TreeResult) (s : State) : (installTree t s).pending = s.pending := rfl
@[simp] theorem installTree_hostIndex (t : TreeResult) (s : State) : (installTree t s).hostIndex = s.hostIndex := rfl
@[simp] theorem installTree_reply (t : TreeResult) (s : State) : (installTree t s).reply = s.reply := rfl
@[simp] theorem installTree_fresh (t : TreeResult) (s : State) : (installTree t s).fresh = s.fresh := rfl

/-! ### storeSequence -/

@[simp] theorem storeSequence_cmd (b : BitString) (s : State) : (storeSequence b s).cmd = s.cmd := rfl
@[simp] theorem storeSequence_err (b : BitString) (s : State) : (storeSequence b s).err = s.err := rfl
@[simp] theorem storeSequence_treeValid (b : BitString) (s : State) : (storeSequence b s).treeValid = s.treeValid := rfl
@[simp] theorem storeSequence_ctValid (b : BitString) (s : State) : (storeSequence b s).ctValid = s.ctValid := rfl
@[simp] theorem storeSequence_rootValid (b : BitString) (s : State) : (storeSequence b s).rootValid = s.rootValid := rfl
@[simp] theorem storeSequence_ilen (b : BitString) (s : State) : (storeSequence b s).ilen = s.ilen := rfl
@[simp] theorem storeSequence_blen (b : BitString) (s : State) : (storeSequence b s).blen = BitVec.ofNat 32 b.length := rfl
@[simp] theorem storeSequence_explen (b : BitString) (s : State) : (storeSequence b s).explen = s.explen := rfl
@[simp] theorem storeSequence_olen (b : BitString) (s : State) : (storeSequence b s).olen = s.olen := rfl
@[simp] theorem storeSequence_nsym (b : BitString) (s : State) : (storeSequence b s).nsym = s.nsym := rfl
@[simp] theorem storeSequence_root (b : BitString) (s : State) : (storeSequence b s).root = s.root := rfl
@[simp] theorem storeSequence_bpos (b : BitString) (s : State) : (storeSequence b s).bpos = s.bpos := rfl
@[simp] theorem storeSequence_errpos (b : BitString) (s : State) : (storeSequence b s).errpos = s.errpos := rfl
@[simp] theorem storeSequence_errsym (b : BitString) (s : State) : (storeSequence b s).errsym = s.errsym := rfl
@[simp] theorem storeSequence_ft (b : BitString) (s : State) : (storeSequence b s).ft = s.ft := rfl
@[simp] theorem storeSequence_node (b : BitString) (s : State) : (storeSequence b s).node = s.node := rfl
@[simp] theorem storeSequence_ct (b : BitString) (s : State) : (storeSequence b s).ct = s.ct := rfl
@[simp] theorem storeSequence_ibuf (b : BitString) (s : State) : (storeSequence b s).ibuf = s.ibuf := rfl
@[simp] theorem storeSequence_bits (b : BitString) (s : State) : (storeSequence b s).bits = memWriteList s.bits 0 (packBits b) := rfl
@[simp] theorem storeSequence_obuf (b : BitString) (s : State) : (storeSequence b s).obuf = s.obuf := rfl
@[simp] theorem storeSequence_params (b : BitString) (s : State) : (storeSequence b s).params = s.params := rfl
@[simp] theorem storeSequence_pending (b : BitString) (s : State) : (storeSequence b s).pending = s.pending := rfl
@[simp] theorem storeSequence_hostIndex (b : BitString) (s : State) : (storeSequence b s).hostIndex = s.hostIndex := rfl
@[simp] theorem storeSequence_reply (b : BitString) (s : State) : (storeSequence b s).reply = s.reply := rfl
@[simp] theorem storeSequence_fresh (b : BitString) (s : State) : (storeSequence b s).fresh = s.fresh := rfl

/-! ### forgetBits -/

@[simp] theorem forgetBits_cmd (s : State) : (forgetBits s).cmd = s.cmd := rfl
@[simp] theorem forgetBits_err (s : State) : (forgetBits s).err = s.err := rfl
@[simp] theorem forgetBits_treeValid (s : State) : (forgetBits s).treeValid = s.treeValid := rfl
@[simp] theorem forgetBits_ctValid (s : State) : (forgetBits s).ctValid = s.ctValid := rfl
@[simp] theorem forgetBits_rootValid (s : State) : (forgetBits s).rootValid = s.rootValid := rfl
@[simp] theorem forgetBits_ilen (s : State) : (forgetBits s).ilen = s.ilen := rfl
@[simp] theorem forgetBits_blen (s : State) : (forgetBits s).blen = s.blen := rfl
@[simp] theorem forgetBits_explen (s : State) : (forgetBits s).explen = s.explen := rfl
@[simp] theorem forgetBits_olen (s : State) : (forgetBits s).olen = s.olen := rfl
@[simp] theorem forgetBits_nsym (s : State) : (forgetBits s).nsym = s.nsym := rfl
@[simp] theorem forgetBits_root (s : State) : (forgetBits s).root = s.root := rfl
@[simp] theorem forgetBits_bpos (s : State) : (forgetBits s).bpos = s.bpos := rfl
@[simp] theorem forgetBits_errpos (s : State) : (forgetBits s).errpos = s.errpos := rfl
@[simp] theorem forgetBits_errsym (s : State) : (forgetBits s).errsym = s.errsym := rfl
@[simp] theorem forgetBits_ft (s : State) : (forgetBits s).ft = s.ft := rfl
@[simp] theorem forgetBits_node (s : State) : (forgetBits s).node = s.node := rfl
@[simp] theorem forgetBits_ct (s : State) : (forgetBits s).ct = s.ct := rfl
@[simp] theorem forgetBits_ibuf (s : State) : (forgetBits s).ibuf = s.ibuf := rfl
@[simp] theorem forgetBits_bits (s : State) : (forgetBits s).bits = Memory.unwritten s.fresh := rfl
@[simp] theorem forgetBits_obuf (s : State) : (forgetBits s).obuf = s.obuf := rfl
@[simp] theorem forgetBits_params (s : State) : (forgetBits s).params = s.params := rfl
@[simp] theorem forgetBits_pending (s : State) : (forgetBits s).pending = s.pending := rfl
@[simp] theorem forgetBits_hostIndex (s : State) : (forgetBits s).hostIndex = s.hostIndex := rfl
@[simp] theorem forgetBits_reply (s : State) : (forgetBits s).reply = s.reply := rfl
@[simp] theorem forgetBits_fresh (s : State) : (forgetBits s).fresh = s.fresh + 1 := rfl

/-! ### storeOutput -/

@[simp] theorem storeOutput_cmd (out : List Byte) (p : Nat) (s : State) : (storeOutput out p s).cmd = s.cmd := rfl
@[simp] theorem storeOutput_err (out : List Byte) (p : Nat) (s : State) : (storeOutput out p s).err = s.err := rfl
@[simp] theorem storeOutput_treeValid (out : List Byte) (p : Nat) (s : State) : (storeOutput out p s).treeValid = s.treeValid := rfl
@[simp] theorem storeOutput_ctValid (out : List Byte) (p : Nat) (s : State) : (storeOutput out p s).ctValid = s.ctValid := rfl
@[simp] theorem storeOutput_rootValid (out : List Byte) (p : Nat) (s : State) : (storeOutput out p s).rootValid = s.rootValid := rfl
@[simp] theorem storeOutput_ilen (out : List Byte) (p : Nat) (s : State) : (storeOutput out p s).ilen = s.ilen := rfl
@[simp] theorem storeOutput_blen (out : List Byte) (p : Nat) (s : State) : (storeOutput out p s).blen = s.blen := rfl
@[simp] theorem storeOutput_explen (out : List Byte) (p : Nat) (s : State) : (storeOutput out p s).explen = s.explen := rfl
@[simp] theorem storeOutput_olen (out : List Byte) (p : Nat) (s : State) : (storeOutput out p s).olen = s.explen := rfl
@[simp] theorem storeOutput_nsym (out : List Byte) (p : Nat) (s : State) : (storeOutput out p s).nsym = s.nsym := rfl
@[simp] theorem storeOutput_root (out : List Byte) (p : Nat) (s : State) : (storeOutput out p s).root = s.root := rfl
@[simp] theorem storeOutput_bpos (out : List Byte) (p : Nat) (s : State) : (storeOutput out p s).bpos = BitVec.ofNat 32 p := rfl
@[simp] theorem storeOutput_errpos (out : List Byte) (p : Nat) (s : State) : (storeOutput out p s).errpos = s.errpos := rfl
@[simp] theorem storeOutput_errsym (out : List Byte) (p : Nat) (s : State) : (storeOutput out p s).errsym = s.errsym := rfl
@[simp] theorem storeOutput_ft (out : List Byte) (p : Nat) (s : State) : (storeOutput out p s).ft = s.ft := rfl
@[simp] theorem storeOutput_node (out : List Byte) (p : Nat) (s : State) : (storeOutput out p s).node = s.node := rfl
@[simp] theorem storeOutput_ct (out : List Byte) (p : Nat) (s : State) : (storeOutput out p s).ct = s.ct := rfl
@[simp] theorem storeOutput_ibuf (out : List Byte) (p : Nat) (s : State) : (storeOutput out p s).ibuf = s.ibuf := rfl
@[simp] theorem storeOutput_bits (out : List Byte) (p : Nat) (s : State) : (storeOutput out p s).bits = s.bits := rfl
@[simp] theorem storeOutput_obuf (out : List Byte) (p : Nat) (s : State) : (storeOutput out p s).obuf = memWriteList s.obuf 0 out := rfl
@[simp] theorem storeOutput_params (out : List Byte) (p : Nat) (s : State) : (storeOutput out p s).params = s.params := rfl
@[simp] theorem storeOutput_pending (out : List Byte) (p : Nat) (s : State) : (storeOutput out p s).pending = s.pending := rfl
@[simp] theorem storeOutput_hostIndex (out : List Byte) (p : Nat) (s : State) : (storeOutput out p s).hostIndex = s.hostIndex := rfl
@[simp] theorem storeOutput_reply (out : List Byte) (p : Nat) (s : State) : (storeOutput out p s).reply = s.reply := rfl
@[simp] theorem storeOutput_fresh (out : List Byte) (p : Nat) (s : State) : (storeOutput out p s).fresh = s.fresh := rfl

/-! ### forgetOutput -/

@[simp] theorem forgetOutput_cmd (s : State) : (forgetOutput s).cmd = s.cmd := rfl
@[simp] theorem forgetOutput_err (s : State) : (forgetOutput s).err = s.err := rfl
@[simp] theorem forgetOutput_treeValid (s : State) : (forgetOutput s).treeValid = s.treeValid := rfl
@[simp] theorem forgetOutput_ctValid (s : State) : (forgetOutput s).ctValid = s.ctValid := rfl
@[simp] theorem forgetOutput_rootValid (s : State) : (forgetOutput s).rootValid = s.rootValid := rfl
@[simp] theorem forgetOutput_ilen (s : State) : (forgetOutput s).ilen = s.ilen := rfl
@[simp] theorem forgetOutput_blen (s : State) : (forgetOutput s).blen = s.blen := rfl
@[simp] theorem forgetOutput_explen (s : State) : (forgetOutput s).explen = s.explen := rfl
@[simp] theorem forgetOutput_olen (s : State) : (forgetOutput s).olen = s.olen := rfl
@[simp] theorem forgetOutput_nsym (s : State) : (forgetOutput s).nsym = s.nsym := rfl
@[simp] theorem forgetOutput_root (s : State) : (forgetOutput s).root = s.root := rfl
@[simp] theorem forgetOutput_bpos (s : State) : (forgetOutput s).bpos = s.bpos := rfl
@[simp] theorem forgetOutput_errpos (s : State) : (forgetOutput s).errpos = s.errpos := rfl
@[simp] theorem forgetOutput_errsym (s : State) : (forgetOutput s).errsym = s.errsym := rfl
@[simp] theorem forgetOutput_ft (s : State) : (forgetOutput s).ft = s.ft := rfl
@[simp] theorem forgetOutput_node (s : State) : (forgetOutput s).node = s.node := rfl
@[simp] theorem forgetOutput_ct (s : State) : (forgetOutput s).ct = s.ct := rfl
@[simp] theorem forgetOutput_ibuf (s : State) : (forgetOutput s).ibuf = s.ibuf := rfl
@[simp] theorem forgetOutput_bits (s : State) : (forgetOutput s).bits = s.bits := rfl
@[simp] theorem forgetOutput_obuf (s : State) : (forgetOutput s).obuf = memForgetBelow s.obuf s.explen.toNat s.fresh := rfl
@[simp] theorem forgetOutput_params (s : State) : (forgetOutput s).params = s.params := rfl
@[simp] theorem forgetOutput_pending (s : State) : (forgetOutput s).pending = s.pending := rfl
@[simp] theorem forgetOutput_hostIndex (s : State) : (forgetOutput s).hostIndex = s.hostIndex := rfl
@[simp] theorem forgetOutput_reply (s : State) : (forgetOutput s).reply = s.reply := rfl
@[simp] theorem forgetOutput_fresh (s : State) : (forgetOutput s).fresh = s.fresh + 1 := rfl

/-! ### acceptAction -/

@[simp] theorem acceptAction_cmd (s : State) (rest : List HostAction) : (acceptAction s rest).cmd = s.cmd := rfl
@[simp] theorem acceptAction_err (s : State) (rest : List HostAction) : (acceptAction s rest).err = s.err := rfl
@[simp] theorem acceptAction_treeValid (s : State) (rest : List HostAction) : (acceptAction s rest).treeValid = s.treeValid := rfl
@[simp] theorem acceptAction_ctValid (s : State) (rest : List HostAction) : (acceptAction s rest).ctValid = s.ctValid := rfl
@[simp] theorem acceptAction_rootValid (s : State) (rest : List HostAction) : (acceptAction s rest).rootValid = s.rootValid := rfl
@[simp] theorem acceptAction_ilen (s : State) (rest : List HostAction) : (acceptAction s rest).ilen = s.ilen := rfl
@[simp] theorem acceptAction_blen (s : State) (rest : List HostAction) : (acceptAction s rest).blen = s.blen := rfl
@[simp] theorem acceptAction_explen (s : State) (rest : List HostAction) : (acceptAction s rest).explen = s.explen := rfl
@[simp] theorem acceptAction_olen (s : State) (rest : List HostAction) : (acceptAction s rest).olen = s.olen := rfl
@[simp] theorem acceptAction_nsym (s : State) (rest : List HostAction) : (acceptAction s rest).nsym = s.nsym := rfl
@[simp] theorem acceptAction_root (s : State) (rest : List HostAction) : (acceptAction s rest).root = s.root := rfl
@[simp] theorem acceptAction_bpos (s : State) (rest : List HostAction) : (acceptAction s rest).bpos = s.bpos := rfl
@[simp] theorem acceptAction_errpos (s : State) (rest : List HostAction) : (acceptAction s rest).errpos = s.errpos := rfl
@[simp] theorem acceptAction_errsym (s : State) (rest : List HostAction) : (acceptAction s rest).errsym = s.errsym := rfl
@[simp] theorem acceptAction_ft (s : State) (rest : List HostAction) : (acceptAction s rest).ft = s.ft := rfl
@[simp] theorem acceptAction_node (s : State) (rest : List HostAction) : (acceptAction s rest).node = s.node := rfl
@[simp] theorem acceptAction_ct (s : State) (rest : List HostAction) : (acceptAction s rest).ct = s.ct := rfl
@[simp] theorem acceptAction_ibuf (s : State) (rest : List HostAction) : (acceptAction s rest).ibuf = s.ibuf := rfl
@[simp] theorem acceptAction_bits (s : State) (rest : List HostAction) : (acceptAction s rest).bits = s.bits := rfl
@[simp] theorem acceptAction_obuf (s : State) (rest : List HostAction) : (acceptAction s rest).obuf = s.obuf := rfl
@[simp] theorem acceptAction_params (s : State) (rest : List HostAction) : (acceptAction s rest).params = s.params := rfl
@[simp] theorem acceptAction_pending (s : State) (rest : List HostAction) : (acceptAction s rest).pending = rest := rfl
@[simp] theorem acceptAction_hostIndex (s : State) (rest : List HostAction) : (acceptAction s rest).hostIndex = s.hostIndex + 1 := rfl
@[simp] theorem acceptAction_reply (s : State) (rest : List HostAction) : (acceptAction s rest).reply = none := rfl
@[simp] theorem acceptAction_fresh (s : State) (rest : List HostAction) : (acceptAction s rest).fresh = s.fresh := rfl

/-! ### writeFt -/

@[simp] theorem writeFt_cmd (s : State) (i v : Nat) : (writeFt s i v).cmd = s.cmd := rfl
@[simp] theorem writeFt_err (s : State) (i v : Nat) : (writeFt s i v).err = s.err := rfl
@[simp] theorem writeFt_treeValid (s : State) (i v : Nat) : (writeFt s i v).treeValid = false := rfl
@[simp] theorem writeFt_ctValid (s : State) (i v : Nat) : (writeFt s i v).ctValid = false := rfl
@[simp] theorem writeFt_rootValid (s : State) (i v : Nat) : (writeFt s i v).rootValid = false := rfl
@[simp] theorem writeFt_ilen (s : State) (i v : Nat) : (writeFt s i v).ilen = s.ilen := rfl
@[simp] theorem writeFt_blen (s : State) (i v : Nat) : (writeFt s i v).blen = s.blen := rfl
@[simp] theorem writeFt_explen (s : State) (i v : Nat) : (writeFt s i v).explen = s.explen := rfl
@[simp] theorem writeFt_olen (s : State) (i v : Nat) : (writeFt s i v).olen = s.olen := rfl
@[simp] theorem writeFt_nsym (s : State) (i v : Nat) : (writeFt s i v).nsym = 0 := rfl
@[simp] theorem writeFt_root (s : State) (i v : Nat) : (writeFt s i v).root = 0 := rfl
@[simp] theorem writeFt_bpos (s : State) (i v : Nat) : (writeFt s i v).bpos = s.bpos := rfl
@[simp] theorem writeFt_errpos (s : State) (i v : Nat) : (writeFt s i v).errpos = s.errpos := rfl
@[simp] theorem writeFt_errsym (s : State) (i v : Nat) : (writeFt s i v).errsym = s.errsym := rfl
@[simp] theorem writeFt_ft (s : State) (i v : Nat) : (writeFt s i v).ft = ftWrite s.ft (BitVec.ofNat 8 i) (BitVec.ofNat 32 v) := rfl
@[simp] theorem writeFt_node (s : State) (i v : Nat) : (writeFt s i v).node = s.node := rfl
@[simp] theorem writeFt_ct (s : State) (i v : Nat) : (writeFt s i v).ct = s.ct := rfl
@[simp] theorem writeFt_ibuf (s : State) (i v : Nat) : (writeFt s i v).ibuf = s.ibuf := rfl
@[simp] theorem writeFt_bits (s : State) (i v : Nat) : (writeFt s i v).bits = s.bits := rfl
@[simp] theorem writeFt_obuf (s : State) (i v : Nat) : (writeFt s i v).obuf = s.obuf := rfl
@[simp] theorem writeFt_params (s : State) (i v : Nat) : (writeFt s i v).params = s.params := rfl
@[simp] theorem writeFt_pending (s : State) (i v : Nat) : (writeFt s i v).pending = s.pending := rfl
@[simp] theorem writeFt_hostIndex (s : State) (i v : Nat) : (writeFt s i v).hostIndex = s.hostIndex := rfl
@[simp] theorem writeFt_reply (s : State) (i v : Nat) : (writeFt s i v).reply = s.reply := rfl
@[simp] theorem writeFt_fresh (s : State) (i v : Nat) : (writeFt s i v).fresh = s.fresh := rfl

/-! ### withFetchWord -/

@[simp] theorem withFetchWord_cmd (s : State) (n w : Nat) : (s.withFetchWord n w).cmd = s.cmd := rfl
@[simp] theorem withFetchWord_err (s : State) (n w : Nat) : (s.withFetchWord n w).err = s.err := rfl
@[simp] theorem withFetchWord_treeValid (s : State) (n w : Nat) : (s.withFetchWord n w).treeValid = s.treeValid := rfl
@[simp] theorem withFetchWord_ctValid (s : State) (n w : Nat) : (s.withFetchWord n w).ctValid = s.ctValid := rfl
@[simp] theorem withFetchWord_rootValid (s : State) (n w : Nat) : (s.withFetchWord n w).rootValid = s.rootValid := rfl
@[simp] theorem withFetchWord_ilen (s : State) (n w : Nat) : (s.withFetchWord n w).ilen = s.ilen := rfl
@[simp] theorem withFetchWord_blen (s : State) (n w : Nat) : (s.withFetchWord n w).blen = s.blen := rfl
@[simp] theorem withFetchWord_explen (s : State) (n w : Nat) : (s.withFetchWord n w).explen = s.explen := rfl
@[simp] theorem withFetchWord_olen (s : State) (n w : Nat) : (s.withFetchWord n w).olen = s.olen := rfl
@[simp] theorem withFetchWord_nsym (s : State) (n w : Nat) : (s.withFetchWord n w).nsym = s.nsym := rfl
@[simp] theorem withFetchWord_root (s : State) (n w : Nat) : (s.withFetchWord n w).root = s.root := rfl
@[simp] theorem withFetchWord_bpos (s : State) (n w : Nat) : (s.withFetchWord n w).bpos = s.bpos := rfl
@[simp] theorem withFetchWord_errpos (s : State) (n w : Nat) : (s.withFetchWord n w).errpos = s.errpos := rfl
@[simp] theorem withFetchWord_errsym (s : State) (n w : Nat) : (s.withFetchWord n w).errsym = s.errsym := rfl
@[simp] theorem withFetchWord_ft (s : State) (n w : Nat) : (s.withFetchWord n w).ft = s.ft := rfl
@[simp] theorem withFetchWord_node (s : State) (n w : Nat) : (s.withFetchWord n w).node = s.node := rfl
@[simp] theorem withFetchWord_ct (s : State) (n w : Nat) : (s.withFetchWord n w).ct = s.ct := rfl
@[simp] theorem withFetchWord_ibuf (s : State) (n w : Nat) : (s.withFetchWord n w).ibuf = s.ibuf := rfl
@[simp] theorem withFetchWord_bits (s : State) (n w : Nat) : (s.withFetchWord n w).bits = s.bits := rfl
@[simp] theorem withFetchWord_obuf (s : State) (n w : Nat) : (s.withFetchWord n w).obuf = s.obuf := rfl
@[simp] theorem withFetchWord_params (s : State) (n w : Nat) : (s.withFetchWord n w).params = s.params := rfl
@[simp] theorem withFetchWord_pending (s : State) (n w : Nat) : (s.withFetchWord n w).pending = issueAction n w :: s.pending := rfl
@[simp] theorem withFetchWord_hostIndex (s : State) (n w : Nat) : (s.withFetchWord n w).hostIndex = s.hostIndex := rfl
@[simp] theorem withFetchWord_reply (s : State) (n w : Nat) : (s.withFetchWord n w).reply = s.reply := rfl
@[simp] theorem withFetchWord_fresh (s : State) (n w : Nat) : (s.withFetchWord n w).fresh = s.fresh := rfl

/-! ### raiseError -/

@[simp] theorem raiseError_cmd (c : Raiser) (e : Err) (p : Nat) (y : Byte) (s : State) : (raiseError c e p y s).cmd = s.cmd := by cases c <;> rfl
@[simp] theorem raiseError_err (c : Raiser) (e : Err) (p : Nat) (y : Byte) (s : State) : (raiseError c e p y s).err = errCode e := by cases c <;> rfl
@[simp] theorem raiseError_treeValid (c : Raiser) (e : Err) (p : Nat) (y : Byte) (s : State) : (raiseError c e p y s).treeValid = s.treeValid := by cases c <;> rfl
@[simp] theorem raiseError_ctValid (c : Raiser) (e : Err) (p : Nat) (y : Byte) (s : State) : (raiseError c e p y s).ctValid = s.ctValid := by cases c <;> rfl
@[simp] theorem raiseError_rootValid (c : Raiser) (e : Err) (p : Nat) (y : Byte) (s : State) : (raiseError c e p y s).rootValid = s.rootValid := by cases c <;> rfl
@[simp] theorem raiseError_ilen (c : Raiser) (e : Err) (p : Nat) (y : Byte) (s : State) : (raiseError c e p y s).ilen = s.ilen := by cases c <;> rfl
@[simp] theorem raiseError_explen (c : Raiser) (e : Err) (p : Nat) (y : Byte) (s : State) : (raiseError c e p y s).explen = s.explen := by cases c <;> rfl
@[simp] theorem raiseError_nsym (c : Raiser) (e : Err) (p : Nat) (y : Byte) (s : State) : (raiseError c e p y s).nsym = s.nsym := by cases c <;> rfl
@[simp] theorem raiseError_root (c : Raiser) (e : Err) (p : Nat) (y : Byte) (s : State) : (raiseError c e p y s).root = s.root := by cases c <;> rfl
@[simp] theorem raiseError_errpos (c : Raiser) (e : Err) (p : Nat) (y : Byte) (s : State) : (raiseError c e p y s).errpos = BitVec.ofNat 32 p := by cases c <;> rfl
@[simp] theorem raiseError_errsym (c : Raiser) (e : Err) (p : Nat) (y : Byte) (s : State) : (raiseError c e p y s).errsym = y := by cases c <;> rfl
@[simp] theorem raiseError_ft (c : Raiser) (e : Err) (p : Nat) (y : Byte) (s : State) : (raiseError c e p y s).ft = s.ft := by cases c <;> rfl
@[simp] theorem raiseError_node (c : Raiser) (e : Err) (p : Nat) (y : Byte) (s : State) : (raiseError c e p y s).node = s.node := by cases c <;> rfl
@[simp] theorem raiseError_ct (c : Raiser) (e : Err) (p : Nat) (y : Byte) (s : State) : (raiseError c e p y s).ct = s.ct := by cases c <;> rfl
@[simp] theorem raiseError_ibuf (c : Raiser) (e : Err) (p : Nat) (y : Byte) (s : State) : (raiseError c e p y s).ibuf = s.ibuf := by cases c <;> rfl
@[simp] theorem raiseError_bits (c : Raiser) (e : Err) (p : Nat) (y : Byte) (s : State) : (raiseError c e p y s).bits = s.bits := by cases c <;> rfl
@[simp] theorem raiseError_obuf (c : Raiser) (e : Err) (p : Nat) (y : Byte) (s : State) : (raiseError c e p y s).obuf = s.obuf := by cases c <;> rfl
@[simp] theorem raiseError_params (c : Raiser) (e : Err) (p : Nat) (y : Byte) (s : State) : (raiseError c e p y s).params = s.params := by cases c <;> rfl
@[simp] theorem raiseError_pending (c : Raiser) (e : Err) (p : Nat) (y : Byte) (s : State) : (raiseError c e p y s).pending = s.pending := by cases c <;> rfl
@[simp] theorem raiseError_hostIndex (c : Raiser) (e : Err) (p : Nat) (y : Byte) (s : State) : (raiseError c e p y s).hostIndex = s.hostIndex := by cases c <;> rfl
@[simp] theorem raiseError_reply (c : Raiser) (e : Err) (p : Nat) (y : Byte) (s : State) : (raiseError c e p y s).reply = s.reply := by cases c <;> rfl
@[simp] theorem raiseError_fresh (c : Raiser) (e : Err) (p : Nat) (y : Byte) (s : State) : (raiseError c e p y s).fresh = s.fresh := by cases c <;> rfl

/-! ### raiseError: the result lengths (R186) -/

@[simp] theorem raiseError_blen (c : Raiser) (e : Err) (p : Nat) (y : Byte) (s : State) :
    (raiseError c e p y s).blen = if c = .encode then 0 else s.blen := by cases c <;> rfl
@[simp] theorem raiseError_olen_decode (q : Nat) (e : Err) (p : Nat) (y : Byte) (s : State) :
    (raiseError (.decode q) e p y s).olen = 0 := rfl
@[simp] theorem raiseError_bpos_decode (q : Nat) (e : Err) (p : Nat) (y : Byte) (s : State) :
    (raiseError (.decode q) e p y s).bpos = BitVec.ofNat 32 q := rfl
theorem raiseError_olen_of_not_decode (c : Raiser) (e : Err) (p : Nat) (y : Byte) (s : State)
    (h : ∀ q, c ≠ .decode q) : (raiseError c e p y s).olen = s.olen := by
  cases c <;> first | rfl | exact absurd rfl (h _)
theorem raiseError_bpos_of_not_decode (c : Raiser) (e : Err) (p : Nat) (y : Byte) (s : State)
    (h : ∀ q, c ≠ .decode q) : (raiseError c e p y s).bpos = s.bpos := by
  cases c <;> first | rfl | exact absurd rfl (h _)

/-! ### resetEvent: the host's account and the parameters stay, the rest is the state after reset (R200) -/

theorem resetEvent_eq (s : State) :
    resetEvent s = { State.afterReset s.params s.fresh with pending := s.pending, hostIndex := s.hostIndex, reply := s.reply } := rfl

@[simp] theorem resetEvent_cmd (s : State) : (resetEvent s).cmd = 0 := rfl
@[simp] theorem resetEvent_err (s : State) : (resetEvent s).err = 0 := rfl
@[simp] theorem resetEvent_treeValid (s : State) : (resetEvent s).treeValid = false := rfl
@[simp] theorem resetEvent_ctValid (s : State) : (resetEvent s).ctValid = false := rfl
@[simp] theorem resetEvent_rootValid (s : State) : (resetEvent s).rootValid = false := rfl
@[simp] theorem resetEvent_ilen (s : State) : (resetEvent s).ilen = 0 := rfl
@[simp] theorem resetEvent_blen (s : State) : (resetEvent s).blen = 0 := rfl
@[simp] theorem resetEvent_explen (s : State) : (resetEvent s).explen = 0 := rfl
@[simp] theorem resetEvent_olen (s : State) : (resetEvent s).olen = 0 := rfl
@[simp] theorem resetEvent_nsym (s : State) : (resetEvent s).nsym = 0 := rfl
@[simp] theorem resetEvent_root (s : State) : (resetEvent s).root = 0 := rfl
@[simp] theorem resetEvent_bpos (s : State) : (resetEvent s).bpos = 0 := rfl
@[simp] theorem resetEvent_errpos (s : State) : (resetEvent s).errpos = 0 := rfl
@[simp] theorem resetEvent_errsym (s : State) : (resetEvent s).errsym = 0 := rfl
@[simp] theorem resetEvent_ft (s : State) : (resetEvent s).ft = emptyFt := rfl
@[simp] theorem resetEvent_ibuf (s : State) : (resetEvent s).ibuf = Memory.unwritten s.fresh := rfl
@[simp] theorem resetEvent_bits (s : State) : (resetEvent s).bits = Memory.unwritten (s.fresh + 1) := rfl
@[simp] theorem resetEvent_obuf (s : State) : (resetEvent s).obuf = Memory.unwritten (s.fresh + 2) := rfl
@[simp] theorem resetEvent_params (s : State) : (resetEvent s).params = s.params := rfl
@[simp] theorem resetEvent_pending (s : State) : (resetEvent s).pending = s.pending := rfl
@[simp] theorem resetEvent_hostIndex (s : State) : (resetEvent s).hostIndex = s.hostIndex := rfl
@[simp] theorem resetEvent_reply (s : State) : (resetEvent s).reply = s.reply := rfl
@[simp] theorem resetEvent_fresh (s : State) : (resetEvent s).fresh = s.fresh + 5 := rfl

end Sys2Proof.Machine
end

