-- ==== Sys2Proof/Laws/Commands.lean ====
section
/-! SUPPORT. What each command and each host action can do, said once: later proofs cite these instead of unfolding `exec` or
`step`. -/

namespace Sys2Proof.Machine

/-! ### Lengths of the operands -/

@[simp] theorem inputBytes_length (s : State) : (inputBytes s).length = s.ilen.toNat := by simp [inputBytes]

@[simp] theorem bitSequence_length (s : State) : (bitSequence s).length = s.blen.toNat := by simp [bitSequence]

@[simp] theorem codeBits_length (r : CodeRec) : (codeBits r).length = r.len.toNat := by simp [codeBits]

@[simp] theorem packBits_length (s : BitString) : (packBits s).length = (s.length + 7) / 8 := by simp [packBits]

@[simp] theorem outputBytes_length (s : State) : (outputBytes s).length = s.olen.toNat := by simp [outputBytes]

/-! ### The error-pending rule -/

theorem errorPending_iff (s : State) : errorPending s = true ↔ s.err ≠ 0#4 := by simp [errorPending]

theorem unlessPending_of_pending {s : State} {k : State → Host.Outcome State Fault Refusal} (h : s.err ≠ 0#4) :
    unlessPending s k = .next s := by simp [unlessPending, errorPending, h]

theorem unlessPending_of_clear {s : State} {k : State → Host.Outcome State Fault Refusal} (h : s.err = 0#4) :
    unlessPending s k = k s := by simp [unlessPending, errorPending, h]

/-- Either an error is pending and the command is ignored, or it runs. -/
theorem unlessPending_cases {s : State} {k : State → Host.Outcome State Fault Refusal} {o : Host.Outcome State Fault Refusal}
    (h : unlessPending s k = o) : (s.err ≠ 0#4 ∧ o = .next s) ∨ (s.err = 0#4 ∧ k s = o) := by
  by_cases he : s.err = 0#4
  · exact .inr ⟨he, by rwa [unlessPending_of_clear he] at h⟩
  · exact .inl ⟨he, by rwa [unlessPending_of_pending he, eq_comm] at h⟩

/-! ### What a command can do -/

theorem execCount_cases {s t : State} (h : execCount s = .next t) :
    (s.err ≠ 0#4 ∧ t = s) ∨
    (s.err = 0#4 ∧ s.params.maxLen < s.ilen.toNat ∧ t = raiseError .count .capacity 0 0 s) ∨
    (s.err = 0#4 ∧ s.ilen.toNat ≤ s.params.maxLen ∧ t = { invalidateTree s with ft := countBytes (inputBytes s) }) := by
  rcases unlessPending_cases h with ⟨he, h⟩ | ⟨he, h⟩
  · cases h; exact .inl ⟨he, rfl⟩
  · by_cases hc : s.params.maxLen < s.ilen.toNat
    · rw [if_pos hc] at h; cases h; exact .inr (.inl ⟨he, hc, rfl⟩)
    · rw [if_neg hc] at h; cases h; exact .inr (.inr ⟨he, Nat.le_of_not_lt hc, rfl⟩)

theorem execBuild_cases {s t : State} (h : execBuild s = .next t) :
    (s.err ≠ 0#4 ∧ t = s) ∨
    (s.err = 0#4 ∧ 2 ^ 32 - 1 < ftSum s.ft ∧ t = raiseError .build .capacity 0 0 s) ∨
    (s.err = 0#4 ∧ ftSum s.ft ≤ 2 ^ 32 - 1 ∧ t = installTree (buildTree s.ft) s) := by
  rcases unlessPending_cases h with ⟨he, h⟩ | ⟨he, h⟩
  · cases h; exact .inl ⟨he, rfl⟩
  · by_cases hc : 2 ^ 32 - 1 < ftSum s.ft
    · rw [if_pos hc] at h; cases h; exact .inr (.inl ⟨he, hc, rfl⟩)
    · rw [if_neg hc] at h; cases h; exact .inr (.inr ⟨he, Nat.le_of_not_lt hc, rfl⟩)

theorem execMktab_cases {s t : State} (h : execMktab s = .next t) :
    (s.err ≠ 0#4 ∧ t = s) ∨
    (s.err = 0#4 ∧ s.treeValid = false ∧ t = raiseError .mktab .sequence 0 0 s) ∨
    (s.err = 0#4 ∧ s.treeValid = true ∧
      ∃ ct, codeTable s.node s.root s.rootValid = .ok ct ∧ t = { s with ct := ct, ctValid := true }) := by
  rcases unlessPending_cases h with ⟨he, h⟩ | ⟨he, h⟩
  · cases h; exact .inl ⟨he, rfl⟩
  · cases hv : s.treeValid
    · simp only [hv] at h; cases h; exact .inr (.inl ⟨he, rfl, rfl⟩)
    · simp only [hv, if_true] at h
      cases hc : codeTable s.node s.root s.rootValid with
      | error f => rw [hc] at h; cases h
      | ok ct => rw [hc] at h; cases h; exact .inr (.inr ⟨he, rfl, ct, rfl, rfl⟩)

theorem execEncode_cases {s t : State} (h : execEncode s = .next t) :
    (s.err ≠ 0#4 ∧ t = s) ∨
    (s.err = 0#4 ∧ s.ctValid = false ∧ t = raiseError .encode .sequence 0 0 s) ∨
    (s.err = 0#4 ∧ s.ctValid = true ∧ s.params.maxLen < s.ilen.toNat ∧ t = raiseError .encode .capacity 0 0 s) ∨
    (s.err = 0#4 ∧ s.ctValid = true ∧ s.ilen.toNat ≤ s.params.maxLen ∧
      t = finishEncode s (encodeFrom s.ct s.params.maxBits (inputBytes s) 0 0)) := by
  rcases unlessPending_cases h with ⟨he, h⟩ | ⟨he, h⟩
  · cases h; exact .inl ⟨he, rfl⟩
  · cases hv : s.ctValid
    · simp only [hv] at h; cases h; exact .inr (.inl ⟨he, rfl, rfl⟩)
    · simp only [hv, if_true] at h
      by_cases hc : s.params.maxLen < s.ilen.toNat
      · rw [if_pos hc] at h; cases h; exact .inr (.inr (.inl ⟨he, rfl, hc, rfl⟩))
      · rw [if_neg hc] at h; cases h; exact .inr (.inr (.inr ⟨he, rfl, Nat.le_of_not_lt hc, rfl⟩))

theorem execDecode_cases {s : State} {o : Host.Outcome State Fault Refusal} (h : execDecode s = o) :
    (s.err ≠ 0#4 ∧ o = .next s) ∨
    (s.err = 0#4 ∧ s.treeValid = false ∧ o = .next (raiseError (.decode 0) .sequence 0 0 s)) ∨
    (s.err = 0#4 ∧ s.treeValid = true ∧ (s.params.maxLen < s.explen.toNat ∨ s.params.maxBits < s.blen.toNat) ∧
      o = .next (raiseError (.decode 0) .capacity 0 0 s)) ∨
    (s.err = 0#4 ∧ s.treeValid = true ∧ s.explen.toNat ≤ s.params.maxLen ∧ s.blen.toNat ≤ s.params.maxBits ∧
      o = runWalk s) := by
  rcases unlessPending_cases h with ⟨he, h⟩ | ⟨he, h⟩
  · exact .inl ⟨he, h⟩
  · cases hv : s.treeValid
    · simp only [hv] at h; exact .inr (.inl ⟨he, rfl, h.symm⟩)
    · simp only [hv, if_true] at h
      by_cases hc : s.params.maxLen < s.explen.toNat
      · rw [if_pos hc] at h; exact .inr (.inr (.inl ⟨he, rfl, .inl hc, h.symm⟩))
      · rw [if_neg hc] at h
        by_cases hb : s.params.maxBits < s.blen.toNat
        · rw [if_pos hb] at h; exact .inr (.inr (.inl ⟨he, rfl, .inr hb, h.symm⟩))
        · rw [if_neg hb] at h
          exact .inr (.inr (.inr ⟨he, rfl, Nat.le_of_not_lt hc, Nat.le_of_not_lt hb, h.symm⟩))

/-- How the walk of a DECODE that passed its checks ends. -/
theorem runWalk_cases (s : State) :
    (s.explen.toNat = 0 ∧ runWalk s = .next (storeOutput [] 0 s)) ∨
    (s.explen.toNat ≠ 0 ∧ s.rootValid = false ∧ runWalk s = .next (raiseError (.decode 0) .corruptArtifact 0 0 s)) ∨
    (s.explen.toNat ≠ 0 ∧ s.rootValid = true ∧
      runWalk s = finishDecode s
        (decodeFrom s.node s.root s.explen.toNat (bitSequence s) { cur := s.root, bpos := 0, out := [] })) := by
  by_cases h0 : s.explen.toNat = 0
  · exact .inl ⟨h0, by rw [runWalk, if_pos h0]⟩
  · cases hr : s.rootValid
    · exact .inr (.inl ⟨h0, rfl, by rw [runWalk, if_neg h0, hr]; rfl⟩)
    · exact .inr (.inr ⟨h0, rfl, by rw [runWalk, if_neg h0, hr]; rfl⟩)

@[simp] theorem execClr_eq (s : State) : execClr s = .next (clearState s) := rfl

/-! ### What a step can do -/

theorem step_badParameters {s : State} (h : s.params.wf = false) : step s = .refused .badParameters := by simp [step, h]

theorem step_idle {s : State} (hp : s.params.wf = true) (h : s.pending = []) : step s = .next s := by
  simp [step, hp, nextAction, h]

theorem step_perform {s : State} {a : HostAction} {rest : List HostAction} (hp : s.params.wf = true)
    (h : s.pending = a :: rest) : step s = perform (acceptAction s rest) a := by
  simp [step, hp, nextAction, h]

/-- The issue of a legal command word. -/
theorem issueCommand_ok {s : State} {v : Nat} {i : Instr} (h : decodeCommand (commandWord v) = .ok i) :
    issueCommand s v = exec i { s with cmd := BitVec.ofNat 8 v } := by
  simp [issueCommand, h, runDecoded, regWrite]

/-- What a host write to an element that exists leads to, by space. -/
theorem hostWrite_element {s : State} {n i v : Nat} {sp : Space} (h : spaceOfNumber n = some sp)
    (hi : i < elementCount s.params sp) : hostWrite s n i v = writeElement s sp i v := by
  simp [hostWrite, h, hi]

/-- Numbers and names of the spaces (R50). -/
@[simp] theorem spaceOfNumber_spaceNumber (sp : Space) : spaceOfNumber (spaceNumber sp) = some sp := by cases sp <;> rfl

/-- Numbers and names of the registers (R21). -/
@[simp] theorem regOfNumber_regNumber (r : Reg) : regOfNumber (regNumber r) = some r := by cases r <;> rfl

/-- The sizes that well-formedness and the host port use are the same (R50). -/
theorem spaceSize_eq (p : Params) (sp : Space) : spaceSize p (spaceNumber sp) = elementCount p sp := by cases sp <;> rfl

/-! ### The priority structure -/

theorem foldl_earlier_mem (node : Vector NodeRec 511) (is : List Nat) (i : Nat) : is.foldl (earlier node) i ∈ i :: is := by
  induction is generalizing i with
  | nil => simp
  | cons j js ih =>
    rw [List.foldl_cons]
    have hj : earlier node i j = i ∨ earlier node i j = j := by unfold earlier; split <;> simp
    rcases List.mem_cons.1 (ih (earlier node i j)) with h | h
    · rw [h]
      rcases hj with e | e <;> simp [e]
    · exact List.mem_cons_of_mem _ (List.mem_cons_of_mem _ h)

/-- ExtractMin takes a member out and leaves the others (R103). -/
theorem extractMin_mem {node : Vector NodeRec 511} {pq rest : List Nat} {m : Nat} (h : extractMin node pq = some (m, rest)) :
    m ∈ pq ∧ rest = pq.erase m := by
  cases pq with
  | nil => cases h
  | cons i is =>
    simp only [extractMin, Option.some.injEq, Prod.mk.injEq] at h
    obtain ⟨rfl, rfl⟩ := h
    exact ⟨foldl_earlier_mem node is i, rfl⟩

theorem extractMin_isSome (node : Vector NodeRec 511) (i : Nat) (is : List Nat) :
    ∃ m, extractMin node (i :: is) = some (m, (i :: is).erase m) := ⟨_, rfl⟩

end Sys2Proof.Machine
end

