-- ==== Sys2Proof/Laws/Invariant.lean ====
section
/-! SUPPORT. The induction over reachable states, packaged once: a property of every state after reset, kept by the host's choice
of actions and by every step, holds of every reachable state. -/

namespace Sys2Proof

open Sys2Proof.Machine

theorem Reachable.induct {P : State → Prop} (hreset : P State.reset)
    (hhost : ∀ s actions, P s → P { s with pending := actions })
    (hstep : ∀ s t, P s → step s = .next t → P t) {s : State} (h : Reachable s) : P s := by
  induction h with
  | afterReset => exact hreset
  | hostAsks s actions _ ih => exact hhost s actions ih
  | afterStep s t _ hst ih => exact hstep s t ih hst

/-- The invariant does not speak of the host's pending actions. -/
theorem Inv.withPending {s : State} (h : Inv s) (actions : List HostAction) : Inv { s with pending := actions } := h

/-- If the invariant holds at reset and every step keeps it, it holds of every reachable state. -/
theorem Reachable.inv (hreset : Inv State.reset) (hstep : ∀ s t, Inv s → step s = .next t → Inv t) {s : State}
    (h : Reachable s) : Inv s := h.induct hreset (fun _ actions hs => hs.withPending actions) hstep

end Sys2Proof
end

