-- ==== Sys2Proof/Laws/PerInstr.lean ====
section
/-! SUPPORT. Per-instruction statements: a command as syntax and its encoding (R70 to R73). -/

namespace Sys2Proof.Laws

/-- A command is well formed and its word decodes to it. -/
def Encoding.Statement (i : Instr) : Prop := i.wf = true ∧ decodeCommand (encodeCommand i) = .ok i

theorem Encoding.count : Encoding.Statement .count := ⟨rfl, by decide⟩
theorem Encoding.build : Encoding.Statement .build := ⟨rfl, by decide⟩
theorem Encoding.mktab : Encoding.Statement .mktab := ⟨rfl, by decide⟩
theorem Encoding.encode : Encoding.Statement .encode := ⟨rfl, by decide⟩
theorem Encoding.decode : Encoding.Statement .decode := ⟨rfl, by decide⟩
theorem Encoding.clr : Encoding.Statement .clr := ⟨rfl, by decide⟩

end Sys2Proof.Laws
end

