-- ==== Sys2Proof/Tests/Slice0.lean ====
section
/-! SUPPORT. The model's own tests: the well-formedness smoke, command words, one step each on small states with the results of
spec/95_test_vectors.md, and a witness for the hypotheses of every obligation. -/

namespace Sys2Proof.Tests

open Sys2Proof.Machine

-- One proof at a time: many kernel evaluations waiting side by side would each reserve a thread's stack.
set_option Elab.async false

/-! ### Well-formedness smoke: one ill-formed term for each check -/

theorem test_params_default_wf : Params.default.wf = true := by decide
theorem test_params_maxLen_zero : Params.wf { maxLen := 0, maxBits := 8 } = false := by decide
theorem test_params_maxLen_large : Params.wf { maxLen := 4294967296, maxBits := 8 } = false := by decide
theorem test_params_maxBits_zero : Params.wf { maxLen := 1, maxBits := 0 } = false := by decide
theorem test_params_maxBits_large : Params.wf { maxLen := 1, maxBits := 4294967296 } = false := by decide
theorem test_action_no_space : HostAction.wf Params.default (.read 7 0) = false := by decide
theorem test_action_index_past_end : HostAction.wf Params.default (.read 1 256) = false := by decide
theorem test_action_read_only : HostAction.wf Params.default (.write 4 0 1) = false := by decide
theorem test_action_value_too_wide : HostAction.wf Params.default (.write 2 0 256) = false := by decide
theorem test_action_ok : HostAction.wf Params.default (.write 0 0 6) = true := by decide

/-! ### Command words (R72, R76) -/

theorem test_table_words :
    [0b00000001, 0b00000010, 0b00000011, 0b00000100, 0b00000101, 0b00000110].map (decodeTableWord 8) =
      [some .count, some .build, some .mktab, some .encode, some .decode, some .clr] := by decide
theorem test_word_zero_illegal : decodeCommand 0x00#8 = .error (.illegalWord 0x00#8) := by decide
theorem test_word_seven_illegal : decodeCommand 0x07#8 = .error (.illegalWord 0x07#8) := by decide
theorem test_word_ff_illegal : decodeCommand 0xFF#8 = .error (.illegalWord 0xFF#8) := by decide

/-! ### Small states -/

/-- Whether an outcome is a next state of which a check holds. -/
def nextIs (o : Host.Outcome State Fault Refusal) (check : State → Bool) : Bool :=
  match o with
  | .next s => check s
  | .fault _ => false
  | .refused _ => false

/-- A byte memory that lists bytes from index 0. -/
def listed (stamp : Nat) (bytes : List Byte) : Memory :=
  { cells := (List.range bytes.length).zip bytes, stamp := stamp }

/-- A frequency table with the listed entries (95_test_vectors, Notation). -/
def tableOf (entries : List (Byte × Word)) : Vector Word 256 := entries.foldl (fun ft e => ftWrite ft e.1 e.2) emptyFt

/-- The state after reset with a frequency table. -/
def withTable (entries : List (Byte × Word)) : State := { State.reset with ft := tableOf entries }

/-- The state after BUILD on a table. -/
def built (entries : List (Byte × Word)) : State := installTree (buildTree (tableOf entries)) (withTable entries)

/-- The code table of a built state. -/
def codesIn (entries : List (Byte × Word)) : Vector CodeRec 256 :=
  match codeTable (built entries).node (built entries).root (built entries).rootValid with
  | .ok ct => ct
  | .error _ => emptyCt

/-- The state after BUILD and MKTAB on a table. -/
def tabled (entries : List (Byte × Word)) : State := { built entries with ct := codesIn entries, ctValid := true }

/-- A state with an input buffer (LOADIN, R81). -/
def withInput (s : State) (bytes : List Byte) : State :=
  { s with ibuf := listed 0 bytes, ilen := BitVec.ofNat 32 bytes.length }

/-- A state with packed bytes in BITS, BLEN and EXPLEN. -/
def withBits (s : State) (bytes : List Byte) (blen explen : Nat) : State :=
  { s with bits := listed 1 bytes, blen := BitVec.ofNat 32 blen, explen := BitVec.ofNat 32 explen }

/-- The table of the source's example, {65: 3, 66: 1} (V1). -/
def v1 : List (Byte × Word) := [(65, 3), (66, 1)]

/-- The table of the degenerate alphabet, {7: 4} (V2). -/
def v2 : List (Byte × Word) := [(7, 4)]

/-! ### One step of each command, against spec/95_test_vectors.md -/

/-- V5a. -/
theorem test_count_v5a : nextIs (step ((withInput State.reset [65, 65, 65, 66]).withFetchWord 8 0x01)) (fun s =>
    ftRead s.ft 65 == 3 && ftRead s.ft 66 == 1 && ftSum s.ft == 4 && s.cmd == 0x01) = true := by decide +kernel

/-- V5c: the byte 255 indexes FT[255]. -/
theorem test_count_v5c : nextIs (exec .count (withInput State.reset [255, 0, 255])) (fun s =>
    ftRead s.ft 0 == 1 && ftRead s.ft 255 == 2) = true := by decide +kernel

/-- V7: the key of the merged node is the smaller of its children's, not the left child's. -/
theorem test_build_v7 : nextIs (exec .build (withTable [(50, 3), (60, 4), (80, 1)])) (fun s =>
    s.root == 257 && (nodeAt s.node 256).left == 80 && (nodeAt s.node 256).right == 50 && (nodeAt s.node 256).minsym == 50 &&
      (nodeAt s.node 257).left == 256 && (nodeAt s.node 257).right == 60) = true := by decide +kernel

/-- V6k: unsigned order, 127 before 128. -/
theorem test_build_v6k : nextIs (exec .build (withTable [(128, 1), (127, 1)])) (fun s =>
    (nodeAt s.node 256).left == 127 && (nodeAt s.node 256).right == 128) = true := by decide +kernel

/-- V8f: 10: "0"; 20: "10"; 30: "11". -/
theorem test_mktab_v8f : nextIs (exec .mktab (built [(10, 2), (20, 1), (30, 1)])) (fun s =>
    codeBits (ctRead s.ct 10) == [false] && codeBits (ctRead s.ct 20) == [true, false] &&
      codeBits (ctRead s.ct 30) == [true, true] && !(ctRead s.ct 11).valid) = true := by decide +kernel

/-- V8b: the single-symbol policy. -/
theorem test_mktab_v8b : nextIs (exec .mktab (built v2)) (fun s =>
    ctRead s.ct 7 == { valid := true, len := 1, code := [false] }) = true := by decide +kernel

/-- V8b by the stack form: a lone Leaf is one visit, which records "0" (R123, R128). -/
theorem test_mktab_stack_v8b :
    ctRead (mktabVisits (built v2).node 1 (startMktab (built v2).root (built v2).rootValid)).ct 7 =
      { valid := true, len := 1, code := [false] } := by decide +kernel

/-- V8f by the stack form: after the first of five visits one right child is pending; the fifth records 30: "11". -/
theorem test_mktab_stack_v8f :
    let s := built [(10, 2), (20, 1), (30, 1)]
    (mktabVisits s.node 1 (startMktab s.root s.rootValid)).pending.length = 1 ∧
      (mktabVisits s.node 4 (startMktab s.root s.rootValid)).cur ≠ none ∧
      (mktabVisits s.node 5 (startMktab s.root s.rootValid)).cur = none ∧
      ctRead (mktabVisits s.node 5 (startMktab s.root s.rootValid)).ct 30 =
        { valid := true, len := 2, code := [true, true] } := by decide +kernel

/-- V9p: padding bits forced to 0, the next byte kept. -/
theorem test_encode_v9p : nextIs (exec .encode { withInput (tabled v1) [65, 65, 65, 66] with bits := listed 1 [0xFF, 0xFF] })
    (fun s => s.blen == 4 && memRead s.bits 0 == 0xE0 && memRead s.bits 1 == 0xFF && s.err == 0) = true := by decide +kernel

/-- V9n: Capacity inside the loop, at index 3, with MAXBITS = 7. -/
theorem test_encode_v9n : nextIs
    (exec .encode { withInput (tabled [(1, 1), (2, 1), (3, 1), (4, 1)]) [1, 2, 3, 4] with
      params := { maxLen := 4, maxBits := 7 } })
    (fun s => statusWord s == 0x75 && s.errpos == 3 && s.errsym == 4 && s.blen == 0) = true := by decide +kernel

/-- V10b: four trailing bits not consumed. -/
theorem test_decode_v10b : nextIs (exec .decode (withBits (built v1) [0xE0] 8 4)) (fun s =>
    outputBytes s == [65, 65, 65, 66] && s.olen == 4 && s.bpos == 4 && s.err == 0) = true := by decide +kernel

/-- V10h: lone Leaf and a 1 bit. -/
theorem test_decode_v10h : nextIs (exec .decode (withBits (built v2) [0x20] 4 4)) (fun s =>
    s.err == 2 && s.errpos == 2 && s.bpos == 3 && s.olen == 0) = true := by decide +kernel

/-- V11h: CLR leaves the error state, and CMD reads 0. -/
theorem test_clr_v11h : nextIs (step ({ withBits (built v1) [0xE0] 3 4 with err := 2 }.withFetchWord 8 0x06)) (fun s =>
    statusWord s == 0 && s.cmd == 0 && ftRead s.ft 65 == 0 && s.bits == listed 1 [0xE0]) = true := by decide +kernel

/-! ### Dispatch and the host port -/

/-- V11d and V11f: an illegal word raises, a second one is ignored. -/
theorem test_illegal_word : nextIs (runActions State.reset [.write 0 0 0xFF, .write 0 0 0x99]) (fun s =>
    statusWord s == 0x03 && s.cmd == 0x99) = true := by decide +kernel

/-- V12d: a host write to FT of an equal value invalidates the tree. -/
theorem test_write_ft_v12d : nextIs (hostWrite (tabled v1) 1 3 0) (fun s =>
    statusWord s == 0 && s.nsym == 0 && s.root == 0) = true := by decide +kernel

/-- V12g and V12h: the low bits are kept. -/
theorem test_write_low_bits : nextIs (runActions State.reset [.write 0 2 0x1FFFFFFFF, .write 2 0 0x141]) (fun s =>
    s.ilen == 0xFFFFFFFF && memRead s.ibuf 0 == 0x41) = true := by decide +kernel

/-- V12a and V12b: a read-only register keeps its value, register 11 reads 0. -/
theorem test_registers_v12 : nextIs (runActions { State.reset with olen := 4 } [.write 0 5 9, .read 0 11]) (fun s =>
    s.olen == 4 && s.reply == some (.value 0)) = true := by decide +kernel

/-- V12j: the record of NODE[256] after V6a. -/
theorem test_read_node_v12j : (hostRead (built v1) 5 256).reply = some (.node
    { valid := true, kind := .internal, sym := 0, minsym := 65, weight := 4, left := 66, right := 65 }) := by decide +kernel

/-- R81: LOADBITS "1110". -/
theorem test_loadbits : expandPseudo (.loadbits [true, true, true, false]) = [.write 3 0 0xE0, .write 0 3 4] := by decide

/-- R78: both lines of a register are read as one access, and a register number past the last has the lines of its space. -/
theorem test_register_lines : readAction "LD REG[2]" = readAction "RD ILEN" ∧ readAction "ST REG[2], 4" = readAction "WR ILEN, 4" ∧
    actionLine (actionLD .reg 11) = some "LD REG[11]" ∧ actionLine (actionST .reg 11 1) = some "ST REG[11], 1" ∧
    readAction "ST REG[11], 1" = some (actionST .reg 11 1) := by decide +kernel

/-- R78: lines as P1 and V12 write them, in both bases, with a comment, and text that is no line. -/
theorem test_read_lines : readAction "ST BITS[0], 0xE0 ; packed" = some (.write 3 0 224) ∧
    readAction "WR ILEN, 4" = some (.write 0 2 4) ∧ readAction "LD NODE[256]" = some (.read 5 256) ∧
    readAction "RD STATUS" = some (.read 0 1) ∧ readAction "MKTAB" = some (.write 0 0 3) ∧
    readAction "WR ILEN, 4G" = none := by decide +kernel

/-- R78: the notation of P1's first and third lines. -/
theorem test_action_lines : actionLine (actionCommand .clr) = some "CLR" ∧
    actionLine (actionST .ibuf 1 65) = some "ST IBUF[1], 65" ∧ actionLine (actionWR .ilen 4) = some "WR ILEN, 4" ∧
    actionLine (actionRD .status) = some "RD STATUS" := by decide +kernel

/-! ### Witnesses: states and operands that meet the hypotheses of the obligations -/

theorem nextIs_exists {o : Host.Outcome State Fault Refusal} {f : State → Bool} (h : nextIs o f = true) :
    ∃ t, o = .next t ∧ f t = true := by
  cases o with
  | next s => exact ⟨s, rfl, h⟩
  | fault r => cases h
  | refused r => cases h

/-- A built state meets the invariant. -/
theorem built_inv {entries : List (Byte × Word)} (h : ftSum (tableOf entries) ≤ 2 ^ 32 - 1) : Inv (built entries) := by
  have hmem (n : Nat) (size : Nat) (hn : n < 5) : MemoryOk (Memory.unwritten n) size 5 :=
    ⟨unwritten_wf n, fun c hc => absurd hc List.not_mem_nil, hn⟩
  exact ⟨rfl, ⟨Nat.zero_le 5, fun _ => ⟨rfl, rfl⟩⟩, fun h => Bool.noConfusion h, fun _ => ⟨h, rfl, rfl, rfl, rfl⟩,
    fun h => Bool.noConfusion h, ⟨hmem 0 _ (by decide), hmem 1 _ (by decide), hmem 2 _ (by decide)⟩,
    Nat.zero_le _, Nat.zero_le _⟩

/-- A built state whose code table exists meets the invariant with that table. -/
theorem tabled_inv {entries : List (Byte × Word)} (h : ftSum (tableOf entries) ≤ 2 ^ 32 - 1)
    (hc : (codeTable (built entries).node (built entries).root (built entries).rootValid).isOk = true) : Inv (tabled entries) := by
  obtain ⟨hp, he, -, ht, -, hm, hr⟩ := built_inv h
  refine ⟨hp, he, fun h => Bool.noConfusion h, ht, fun _ => ?_, hm, hr⟩
  show codeTable (built entries).node (built entries).root (built entries).rootValid = .ok (codesIn entries)
  unfold codesIn
  cases hct : codeTable (built entries).node (built entries).root (built entries).rootValid with
  | ok ct => rfl
  | error f => rw [hct] at hc; cases hc

/-- Writing the input buffer keeps the invariant. -/
theorem withInput_inv {s : State} (h : Inv s) {bytes : List Byte} (hm : MemoryOk (listed 0 bytes) s.params.maxLen s.fresh) :
    Inv (withInput s bytes) := ⟨h.1, h.2.1, h.2.2.1, h.2.2.2.1, h.2.2.2.2.1, ⟨hm, h.2.2.2.2.2.1.2⟩, h.2.2.2.2.2.2⟩

/-- Writing the bit sequence keeps the invariant. -/
theorem withBits_inv {s : State} (h : Inv s) {bytes : List Byte} {n k : Nat}
    (hm : MemoryOk (listed 1 bytes) s.params.bitsBytes s.fresh) : Inv (withBits s bytes n k) :=
  ⟨h.1, h.2.1, h.2.2.1, h.2.2.2.1, h.2.2.2.2.1, ⟨h.2.2.2.2.2.1.1, hm, h.2.2.2.2.2.1.2.2⟩, h.2.2.2.2.2.2⟩

theorem v1_sum : ftSum (tableOf v1) ≤ 2 ^ 32 - 1 := by decide +kernel
theorem v2_sum : ftSum (tableOf v2) ≤ 2 ^ 32 - 1 := by decide +kernel
theorem v1_table : (codeTable (built v1).node (built v1).root (built v1).rootValid).isOk = true := by decide +kernel
theorem v2_table : (codeTable (built v2).node (built v2).root (built v2).rootValid).isOk = true := by decide +kernel

/-- V1's state before ENCODE: the table of {65: 3, 66: 1} and the buffer [65, 65, 65, 66]. -/
def encodeV1 : State := withInput (tabled v1) [65, 65, 65, 66]

/-- V10a's state before DECODE. -/
def decodeV1 : State := withBits (tabled v1) [0xE0] 4 4

/-- V10d's state before DECODE: one bit short. -/
def shortV1 : State := withBits (tabled v1) [0xE0] 3 4

theorem encodeV1_inv : Inv encodeV1 :=
  withInput_inv (tabled_inv v1_sum v1_table) ⟨by decide, by decide, by decide⟩
theorem decodeV1_inv : Inv decodeV1 :=
  withBits_inv (tabled_inv v1_sum v1_table) ⟨by decide, by decide, by decide⟩
theorem shortV1_inv : Inv shortV1 :=
  withBits_inv (tabled_inv v1_sum v1_table) ⟨by decide, by decide, by decide⟩

/-- Writing the bit sequence leaves the code table the tree has. -/
theorem withBits_table {entries : List (Byte × Word)} (h : TableOk (tabled entries)) (bytes : List Byte) (n k : Nat) :
    codeTable (withBits (tabled entries) bytes n k).node (withBits (tabled entries) bytes n k).root
      (withBits (tabled entries) bytes n k).rootValid = .ok (codesIn entries) := h rfl

theorem decodeV1_table : codeTable decodeV1.node decodeV1.root decodeV1.rootValid = .ok (codesIn v1) :=
  withBits_table (tabled_inv v1_sum v1_table).2.2.2.2.1 [0xE0] 4 4

theorem shortV1_table : codeTable shortV1.node shortV1.root shortV1.rootValid = .ok (codesIn v1) :=
  withBits_table (tabled_inv v1_sum v1_table).2.2.2.2.1 [0xE0] 3 4

/-- StepRunsIssuedCommand. -/
theorem witness_StepRunsIssuedCommand :
    (State.reset.withFetchWord 8 1).params.wf = true ∧ (State.reset.withFetchWord 8 1).pending = .write 0 0 1 :: [] ∧
      decodeCommand (BitVec.ofNat 8 1) = .ok .count ∧ Instr.wf .count = true := by decide

/-- HighBitsOfCommandWordIgnored, V11e. -/
theorem witness_HighBitsOfCommandWordIgnored : 0x102 % 256 = 0x02 % 256 := by decide

/-- IllegalWordRaises, at 0x00 and 0x07. -/
theorem witness_IllegalWordRaises : ∀ v ∈ [0x00, 0x07, 0xFF],
    (State.reset.withFetchWord 8 v).params.wf = true ∧ (State.reset.withFetchWord 8 v).pending = .write 0 0 v :: [] ∧
      (State.reset.withFetchWord 8 v).err = 0#4 ∧ (v % 256 = 0 ∨ 7 ≤ v % 256) := by decide

/-- PendingErrorIgnoresCommands, both clauses, a legal and an illegal word. -/
theorem witness_PendingErrorIgnoresCommands : ∀ v ∈ [0x02, 0x99],
    ({ State.reset with err := 3 }.withFetchWord 8 v).params.wf = true ∧
      ({ State.reset with err := 3 }.withFetchWord 8 v).pending = .write 0 0 v :: [] ∧
      ({ State.reset with err := 3 }.withFetchWord 8 v).err ≠ 0#4 ∧ v % 256 ≠ 6 ∧ Instr.decode ≠ .clr := by decide

/-- ResetValues, second clause. -/
theorem witness_ResetValues : (withProgram (built v1) [.reset]).params.wf = true ∧
    (withProgram (built v1) [.reset]).pending = .reset :: [] := by decide

/-- HostReadReplies and HostReadHasNoSideEffect: the last element of each space, and the first addresses past the end. -/
theorem witness_HostReadReplies : ∀ a ∈ [(0, 10), (1, 255), (2, 65535), (3, 65535), (4, 65535), (5, 510), (6, 255)],
    (withProgram State.reset [.read a.1 a.2]).params.wf = true ∧
      (withProgram State.reset [.read a.1 a.2]).pending = .read a.1 a.2 :: [] ∧
      ∃ sp, spaceOfNumber a.1 = some sp ∧ a.2 < elementCount State.reset.params sp ∧
        elementCount State.reset.params sp ≤ a.2 + 1 := by
  simp [withProgram, spaceOfNumber, elementCount, State.reset, State.afterReset, Params.default, Params.wf, Params.bitsBytes]

/-- HostReadReplies: both values of the flags that guard NODE and CT. -/
theorem witness_HostReadReplies_flags : (tabled v1).treeValid = true ∧ (tabled v1).ctValid = true ∧
    State.reset.treeValid = false ∧ State.reset.ctValid = false ∧ spaceOfNumber 7 = none ∧
    regOfNumber 10 = some .errsym ∧ regOfNumber 11 = none := by decide

/-- HostWriteToCountInvalidatesTree, V12d at the last count. -/
theorem witness_HostWriteToCountInvalidatesTree : (withProgram (tabled v1) [.write 1 255 0]).params.wf = true ∧ 255 < 256 ∧
    (withProgram (tabled v1) [.write 1 255 0]).pending = .write 1 255 0 :: [] := by decide

/-- HostWriteStoresBytesAndLengths, each clause at the end of its range. -/
theorem witness_HostWriteStoresBytesAndLengths : ∀ a ∈ [(2, 65535), (3, 65535), (0, 2), (0, 3), (0, 4)],
    (withProgram (tabled v1) [.write a.1 a.2 300]).params.wf = true ∧
      (withProgram (tabled v1) [.write a.1 a.2 300]).pending = .write a.1 a.2 300 :: [] ∧
      65535 < (tabled v1).params.maxLen ∧ 65535 < (tabled v1).params.bitsBytes := by decide

/-- HostWriteElsewhereChangesNothing, each clause at its boundary. -/
theorem witness_HostWriteElsewhereChangesNothing :
    ∀ a ∈ [(4, 0), (5, 3), (6, 3), (7, 0), (0, 1), (0, 5), (0, 11), (1, 256), (2, 65536), (3, 65536)],
    (withProgram State.reset [.write a.1 a.2 1]).params.wf = true ∧
      (withProgram State.reset [.write a.1 a.2 1]).pending = .write a.1 a.2 1 :: [] ∧
      (a.1 = 4 ∨ 5 ≤ a.1 ∨ (a.1 = 0 ∧ a.2 ≠ 0 ∧ a.2 ≠ 2 ∧ a.2 ≠ 3 ∧ a.2 ≠ 4) ∨ (a.1 = 1 ∧ 256 ≤ a.2) ∨
        (a.1 = 2 ∧ State.reset.params.maxLen ≤ a.2) ∨ (a.1 = 3 ∧ State.reset.params.bitsBytes ≤ a.2)) := by decide

/-- IdleAndRefusedSteps, both clauses. -/
theorem witness_IdleAndRefusedSteps : State.reset.params.wf = true ∧ State.reset.pending = [] ∧
    { State.reset with params := { maxLen := 0, maxBits := 1 } }.params.wf = false := by decide

/-- PackedSequenceReadsBack: a string of 9 bits has a bit 8, a padding bit 9 and a byte past its two. -/
theorem witness_PackedSequenceReadsBack : 8 < 9 ∧ 9 < 8 * ((9 + 7) / 8) ∧ (9 + 7) / 8 ≤ 2 := by decide

/-- CountTabulatesInput, CountSumIsInputLength, CompressionRoundTrip and WeightInvariantAndDegenerateAlphabet. -/
theorem witness_CountTabulatesInput : (withInput State.reset [7, 7, 7, 7]).params.wf = true ∧
    (withInput State.reset [7, 7, 7, 7]).err = 0#4 ∧
    (withInput State.reset [7, 7, 7, 7]).ilen.toNat ≤ (withInput State.reset [7, 7, 7, 7]).params.maxLen ∧
    0 < (withInput State.reset [7, 7, 7, 7]).ilen.toNat ∧
    (∀ i, i < (withInput State.reset [7, 7, 7, 7]).ilen.toNat →
      memRead (withInput State.reset [7, 7, 7, 7]).ibuf i = memRead (withInput State.reset [7, 7, 7, 7]).ibuf 0) ∧
    (withInput State.reset [7, 7, 7, 7]).ilen.toNat ≤ (withInput State.reset [7, 7, 7, 7]).params.maxBits := by
  refine ⟨by decide, by decide, by decide, by decide, fun i hi => ?_, by decide⟩
  have hi : i < 4 := hi
  match i, hi with
  | 0, _ => rfl
  | 1, _ => rfl
  | 2, _ => rfl
  | 3, _ => rfl

/-- CompressionRoundTrip: the encoded length of V1's buffer fits MAXBITS. -/
theorem witness_CompressionRoundTrip_length :
    (codesOf (codesIn v1) [65, 65, 65, 66]).length ≤ Params.default.maxBits := by decide +kernel

/-- CountDependsOnInputOnly: V5e's old table does not matter. -/
theorem witness_CountDependsOnInputOnly : (withInput (withTable [(5, 7)]) [6]).err = 0#4 ∧ (withInput State.reset [6]).err = 0#4 ∧
    (withInput (withTable [(5, 7)]) [6]).ilen = (withInput State.reset [6]).ilen ∧
    (withInput (withTable [(5, 7)]) [6]).ilen.toNat ≤ (withInput (withTable [(5, 7)]) [6]).params.maxLen ∧
    (withInput State.reset [6]).ilen.toNat ≤ (withInput State.reset [6]).params.maxLen ∧
    (∀ i, i < (withInput (withTable [(5, 7)]) [6]).ilen.toNat →
      memRead (withInput (withTable [(5, 7)]) [6]).ibuf i = memRead (withInput State.reset [6]).ibuf i) := by
  exact ⟨rfl, rfl, rfl, by decide, by decide, fun _ _ => rfl⟩

/-- A state in which every length and the sum of FT is one past what fits. -/
def overfull : State :=
  { withBits (withInput (tabled v1) [1, 2, 3, 4, 5]) [0] 8 5 with
    params := { maxLen := 4, maxBits := 7 }, ft := tableOf [(0, 4294967295), (1, 1)] }

/-- CapacityChecks: the premises of every clause, in one state. -/
theorem witness_CapacityChecks : overfull.err = 0#4 ∧ overfull.params.maxLen < overfull.ilen.toNat ∧
    2 ^ 32 - 1 < ftSum overfull.ft ∧ overfull.ctValid = true ∧ overfull.treeValid = true ∧
    overfull.params.maxLen < overfull.explen.toNat ∧ overfull.params.maxBits < overfull.blen.toNat := by decide +kernel

/-- SequenceChecks, both clauses. -/
theorem witness_SequenceChecks : State.reset.err = 0#4 ∧ State.reset.treeValid = false ∧ State.reset.ctValid = false := by decide

/-- PriorityOrderIsStrictTotal: three records in order, the first two equal in weight. -/
theorem witness_PriorityOrderIsStrictTotal :
    precedes (leafRec 1 1) (leafRec 2 1) = true ∧ precedes (leafRec 2 1) (leafRec 0 2) = true ∧
      (leafRec 1 1).minsym ≠ (leafRec 2 1).minsym := by decide

/-- ExtractMinTakesTheFirst: two Leaves of V1. -/
theorem witness_ExtractMinTakesTheFirst : [65, 66] ≠ [] ∧
    [65, 66].Pairwise (fun i j => (nodeAt (built v1).node i).minsym ≠ (nodeAt (built v1).node j).minsym) := by decide +kernel

/-- The obligations about BUILD: tables of no entry, one, two, and the sum exactly 2^32 - 1 (V6c, V6b, V6a, V6n). -/
theorem witness_BuildTables : ∀ e ∈ [[], v2, v1, [(0, 4294967294), (1, 1)]],
    (withTable e).err = 0#4 ∧ ftSum (withTable e).ft ≤ 2 ^ 32 - 1 := by decide +kernel

/-- BuildCompletesWithRoot, BuildMergesOrderedPairs: each clause on the number of entries. -/
theorem witness_BuildTables_entries : tableEntries (tableOf []) = [] ∧ tableEntries (tableOf v2) = [(7, 4)] ∧
    (tableEntries (tableOf v1)).length = 2 := by decide +kernel

/-- BuildSharesNoNode: two merges, so j = 0 and k = 1. -/
theorem witness_BuildSharesNoNode : (withTable [(10, 1), (20, 1), (30, 2)]).err = 0#4 ∧
    ftSum (withTable [(10, 1), (20, 1), (30, 2)]).ft ≤ 2 ^ 32 - 1 ∧ 0 < 1 ∧
    1 + 1 < (tableEntries (withTable [(10, 1), (20, 1), (30, 2)]).ft).length := by decide +kernel

/-- BuildIsInsertionOrderIndependent: the two Leaves of V1 in the other order. -/
theorem witness_BuildIsInsertionOrderIndependent : [66, 65].Perm (startMerge (tableOf v1)).pq := by
  have h : (startMerge (tableOf v1)).pq = [65, 66] := by decide +kernel
  rw [h]
  decide

/-- MktabRecordsPaths, MktabStackFormAgrees, MktabVisitsEachNodeOnce. -/
theorem witness_MktabRecordsPaths : Inv (built v1) ∧ (built v1).err = 0#4 ∧ (built v1).treeValid = true ∧
    2 ≤ (built v1).nsym.toNat := ⟨built_inv v1_sum, rfl, rfl, by decide +kernel⟩

/-- MktabMatchesTheTable, CodesArePrefixFree, CodesFillTheCodeSpace: 65 and 66 have codes, 67 has none. -/
theorem witness_CodesArePrefixFree : Inv (tabled v1) ∧ (tabled v1).ctValid = true ∧ (65#8 ≠ 66#8) ∧
    (ctRead (tabled v1).ct 65).valid = true ∧ (ctRead (tabled v1).ct 66).valid = true ∧
    (ctRead (tabled v1).ct 67).valid = false ∧ 2 ≤ (tabled v1).nsym.toNat :=
  ⟨tabled_inv v1_sum v1_table, rfl, by decide, by decide +kernel, by decide +kernel, by decide +kernel, by decide +kernel⟩

/-- EncodeConcatenatesCodes, DecodeInvertsEncode. -/
theorem witness_EncodeConcatenatesCodes : encodeV1.params.wf = true ∧ encodeV1.err = 0#4 ∧ encodeV1.ctValid = true ∧
    encodeV1.ilen.toNat ≤ encodeV1.params.maxLen ∧ allCoded encodeV1.ct (inputBytes encodeV1) ∧
    (codesOf encodeV1.ct (inputBytes encodeV1)).length ≤ encodeV1.params.maxBits := by
  refine ⟨by decide, rfl, rfl, by decide, ?_, by decide +kernel⟩
  have h : inputBytes encodeV1 = [65, 65, 65, 66] := by decide +kernel
  rw [h]
  unfold allCoded
  decide +kernel

/-- DecodeInvertsEncode: ENCODE succeeds. -/
theorem witness_DecodeInvertsEncode : Inv encodeV1 ∧ encodeV1.err = 0#4 ∧ encodeV1.ctValid = true ∧
    ∃ t, exec .encode encodeV1 = .next t ∧ t.err = 0#4 := by
  refine ⟨encodeV1_inv, rfl, rfl, ?_⟩
  obtain ⟨t, h, ht⟩ := nextIs_exists (o := exec .encode encodeV1) (f := fun s => s.err == 0#4) (by decide +kernel)
  exact ⟨t, h, by simpa using ht⟩

/-- EncodeRaisesAtTheFirstBadByte, first clause: P7, TableMismatch at index 1. -/
theorem witness_EncodeRaises_mismatch : inputBytes (withInput (tabled v1) [65, 67, 65, 66]) = [65] ++ 67 :: [65, 66] ∧
    (withInput (tabled v1) [65, 67, 65, 66]).err = 0#4 ∧ (withInput (tabled v1) [65, 67, 65, 66]).ctValid = true ∧
    (withInput (tabled v1) [65, 67, 65, 66]).ilen.toNat ≤ (withInput (tabled v1) [65, 67, 65, 66]).params.maxLen ∧
    (∀ b ∈ [65#8], (ctRead (tabled v1).ct b).valid = true) ∧ (codesOf (tabled v1).ct [65]).length ≤ 524288 ∧
    (ctRead (tabled v1).ct 67).valid = false := by decide +kernel

/-- EncodeRaisesAtTheFirstBadByte, second clause: with MAXBITS = 1 the second byte has no room. -/
theorem witness_EncodeRaises_overflow :
    { withInput (tabled v1) [65, 66] with params := { maxLen := 4, maxBits := 1 } }.err = 0#4 ∧
    { withInput (tabled v1) [65, 66] with params := { maxLen := 4, maxBits := 1 } }.ctValid = true ∧
    { withInput (tabled v1) [65, 66] with params := { maxLen := 4, maxBits := 1 } }.ilen.toNat ≤ 4 ∧
    inputBytes { withInput (tabled v1) [65, 66] with params := { maxLen := 4, maxBits := 1 } } = [65] ++ 66 :: [] ∧
    (∀ b ∈ [65#8], (ctRead (tabled v1).ct b).valid = true) ∧ (codesOf (tabled v1).ct [65]).length ≤ 1 ∧
    (ctRead (tabled v1).ct 66).valid = true ∧
    1 < (codesOf (tabled v1).ct [65]).length + (ctRead (tabled v1).ct 66).len.toNat := by decide +kernel

/-- DecodeOfLengthZero, DecodeOfEmptyTree: V10e and V10k. -/
theorem witness_DecodeOfEmptyTree :
    (withBits (built v1) [] 0 0).err = 0#4 ∧ (withBits (built v1) [] 0 0).treeValid = true ∧
    (withBits (built v1) [] 0 0).explen = 0#32 ∧ (withBits (built v1) [] 0 0).blen.toNat ≤ 524288 ∧
    (withBits (built []) [0] 1 1).treeValid = true ∧ (withBits (built []) [0] 1 1).rootValid = false ∧
    0 < (withBits (built []) [0] 1 1).explen.toNat ∧ (withBits (built []) [0] 1 1).explen.toNat ≤ 65536 ∧
    (withBits (built []) [0] 1 1).blen.toNat ≤ 524288 := by decide +kernel

/-- DecodeOfLoneLeaf, the conditions common to its clauses, in the states of the three clauses below. -/
theorem witness_DecodeOfLoneLeaf : ∀ s ∈ [withBits (built v2) [0x00] 4 4, withBits (built v2) [0x20] 4 4,
      withBits (built v2) [0x00] 3 4],
    s.params.wf = true ∧ s.err = 0#4 ∧ s.treeValid = true ∧ s.rootValid = true ∧
    nodeRead s.node s.root.toNat = some (leafRec 7 4) ∧ (leafRec 7 4).kind = .leaf ∧ 0 < s.explen.toNat ∧
    s.explen.toNat ≤ s.params.maxLen ∧ s.blen.toNat ≤ s.params.maxBits := by decide +kernel

/-- DecodeOfLoneLeaf, each clause: V10g, V10h and V10i. -/
theorem witness_DecodeOfLoneLeaf_clauses :
    bitSequence (withBits (built v2) [0x00] 4 4) = List.replicate (withBits (built v2) [0x00] 4 4).explen.toNat false ++ [] ∧
    2 < (withBits (built v2) [0x20] 4 4).explen.toNat ∧
    bitSequence (withBits (built v2) [0x20] 4 4) = List.replicate 2 false ++ true :: [false] ∧
    (withBits (built v2) [0x00] 3 4).blen.toNat < (withBits (built v2) [0x00] 3 4).explen.toNat ∧
    bitSequence (withBits (built v2) [0x00] 3 4) =
      List.replicate (withBits (built v2) [0x00] 3 4).blen.toNat false := by decide +kernel

/-- DecodeOfCodesGivesSymbols: V10a. -/
theorem witness_DecodeOfCodesGivesSymbols : Inv decodeV1 ∧ decodeV1.err = 0#4 ∧ decodeV1.treeValid = true ∧
    decodeV1.explen.toNat ≤ decodeV1.params.maxLen ∧ decodeV1.blen.toNat ≤ decodeV1.params.maxBits ∧
    codeTable decodeV1.node decodeV1.root decodeV1.rootValid = .ok (codesIn v1) ∧ allCoded (codesIn v1) [65, 65, 65, 66] ∧
    [65#8, 65#8, 65#8, 66#8].length = decodeV1.explen.toNat ∧
    bitSequence decodeV1 = codesOf (codesIn v1) [65, 65, 65, 66] ++ [] :=
  ⟨decodeV1_inv, rfl, rfl, by decide, by decide, decodeV1_table, by unfold allCoded; decide +kernel, by decide,
    by decide +kernel⟩

/-- DecodeOfShortSequenceRaises: V10d, the empty proper prefix of the code of 66. -/
theorem witness_DecodeOfShortSequenceRaises : Inv shortV1 ∧ shortV1.err = 0#4 ∧ shortV1.treeValid = true ∧
    shortV1.explen.toNat ≤ shortV1.params.maxLen ∧ shortV1.blen.toNat ≤ shortV1.params.maxBits ∧
    codeTable shortV1.node shortV1.root shortV1.rootValid = .ok (codesIn v1) ∧ allCoded (codesIn v1) [65, 65, 65] ∧
    [65#8, 65#8, 65#8].length < shortV1.explen.toNat ∧ (ctRead (codesIn v1) 66).valid = true ∧
    codeBits (ctRead (codesIn v1) 66) = [] ++ [false] ∧ [false] ≠ [] ∧
    bitSequence shortV1 = codesOf (codesIn v1) [65, 65, 65] ++ [] :=
  ⟨shortV1_inv, rfl, rfl, by decide, by decide, shortV1_table, by unfold allCoded; decide +kernel, by decide,
    by decide +kernel, by decide +kernel, by decide, by decide +kernel⟩

/-- DecodeNeverReadsPastItsPosition, BitsConsumedAreTheCodesOfTheOutput: V10a against V10u's padding. -/
theorem witness_DecodeNeverReadsPastItsPosition : Inv decodeV1 ∧ decodeV1.err = 0#4 ∧
    ∃ t, exec .decode decodeV1 = .next t ∧ t.err = 0#4 ∧ t.bpos.toNat ≤ (8#32).toNat ∧
      (8#32).toNat ≤ decodeV1.params.maxBits ∧
      ∀ k, k < t.bpos.toNat → bitRead (listed 1 [0xEF]) k = bitRead decodeV1.bits k := by
  refine ⟨decodeV1_inv, rfl, ?_⟩
  obtain ⟨t, h, ht⟩ := nextIs_exists (o := exec .decode decodeV1)
    (f := fun s => s.err == 0#4 && s.bpos == 4#32) (by decide +kernel)
  simp only [Bool.and_eq_true, beq_iff_eq] at ht
  refine ⟨t, h, ht.1, by rw [ht.2]; decide, by decide, fun k hk => ?_⟩
  rw [ht.2] at hk
  have hk : k < 4 := hk
  match k, hk with
  | 0, _ => decide
  | 1, _ => decide
  | 2, _ => decide
  | 3, _ => decide

/-- DecodeOutcome, StepNeverStops and StepKeepsInv: a state of the invariant, and a step from one. -/
theorem witness_StepKeepsInv : Inv (withBits (built v1) [0xE0] 4 4) ∧ ∃ t, step (withBits (built v1) [0xE0] 4 4) = .next t :=
  ⟨withBits_inv (built_inv v1_sum) ⟨by decide, by decide, by decide⟩, _, step_idle (by decide) rfl⟩

/-- CommandsChangeOnlyTheirResults, RepeatedCommandsAgree: BUILD answers a next state. -/
theorem witness_CommandsChangeOnlyTheirResults : ∃ t, exec .build (withTable v1) = .next t := by
  obtain ⟨t, h, -⟩ := nextIs_exists (o := exec .build (withTable v1)) (f := fun s => s.treeValid) (by decide +kernel)
  exact ⟨t, h⟩

/-- PendingErrorSurvivesEveryOtherAction: P5, a BUILD while CorruptArtifact is pending. -/
theorem witness_PendingErrorSurvivesEveryOtherAction :
    ({ built v1 with err := 2 }.withFetchWord 8 2).params.wf = true ∧
    ({ built v1 with err := 2 }.withFetchWord 8 2).pending = .write 0 0 2 :: [] ∧
    ({ built v1 with err := 2 }.withFetchWord 8 2).err ≠ 0#4 ∧ HostAction.write 0 0 2 ≠ .reset ∧ 2 % 256 ≠ 6 := by decide

/-- LoadPseudoCommandsLoad: operands within the capacities. -/
theorem witness_LoadPseudoCommandsLoad : State.reset.params.wf = true ∧ [65#8, 66#8].length ≤ State.reset.params.maxLen ∧
    [true, false].length ≤ State.reset.params.maxBits := by decide

end Sys2Proof.Tests
end

section
/-! PROOFS. COUNT: the table of a buffer holds the number of occurrences of each byte, and its sum is the length (R34, R91). -/

namespace Sys2Proof

open Sys2Proof.Machine

/-! ### The exact sum of a table (R165) -/

/-- A write moves the exact sum of FT by the difference of the two counts (R165). -/
theorem ftSum_ftWrite (ft : Vector Word 256) (b : Byte) (v : Word) :
    ftSum (ftWrite ft b v) + (ftRead ft b).toNat = ftSum ft + v.toNat := by
  have hb : b.toNat < (ft.toList.map BitVec.toNat).length := by simpa using b.isLt
  have hread : (ft.toList.map BitVec.toNat)[b.toNat] = (ftRead ft b).toNat := by simp [ftRead]
  have hwrite : ftSum (ftWrite ft b v) = ((ft.toList.map BitVec.toNat).set b.toNat v.toNat).sum := by
    simp [ftSum, ftWrite, Vector.toList_set, List.map_set]
  have hsplit := List.sum_take_add_sum_drop (ft.toList.map BitVec.toNat) b.toNat
  rw [List.drop_eq_getElem_cons hb, List.sum_cons, hread] at hsplit
  rw [hwrite, List.sum_set, if_pos hb, ftSum]
  omega

theorem ftSum_emptyFt : ftSum emptyFt = 0 := by
  rw [ftSum, emptyFt, Vector.toList_replicate, List.map_replicate, List.sum_replicate]
  rfl

/-- One count is at most the sum of all (R109). -/
theorem ftRead_le_ftSum (ft : Vector Word 256) (b : Byte) : (ftRead ft b).toNat ≤ ftSum ft :=
  List.single_le_sum (fun _ _ => Nat.zero_le _) _ (List.mem_map_of_mem (by simp [ftRead]))

/-! ### The table of a buffer (R91) -/

theorem countBytes_append_singleton (bytes : List Byte) (b : Byte) :
    countBytes (bytes ++ [b]) = countByte (countBytes bytes) b := by
  simp [countBytes]

/-- The sum of the table of a buffer is its length (R34): no increment wraps (R92). -/
theorem ftSum_countBytes {bytes : List Byte} (h : bytes.length < 2 ^ 32) : ftSum (countBytes bytes) = bytes.length := by
  induction bytes using List.reverseRecOn with
  | nil => exact ftSum_emptyFt
  | append_singleton bytes b ih =>
    rw [List.length_append, List.length_singleton] at h ⊢
    have hsum := ih (by omega)
    have hle := ftRead_le_ftSum (countBytes bytes) b
    have hwrite := ftSum_ftWrite (countBytes bytes) b (ftRead (countBytes bytes) b + 1#32)
    rw [countBytes_append_singleton, countByte]
    rw [BitVec.toNat_add, BitVec.toNat_ofNat, Nat.mod_eq_of_lt (a := _ + _) (by omega)] at hwrite
    omega

/-- Each entry of the table of a buffer is the number of occurrences of its byte (R91). -/
theorem ftRead_countBytes {bytes : List Byte} (h : bytes.length < 2 ^ 32) (b : Byte) :
    (ftRead (countBytes bytes) b).toNat = bytes.count b := by
  induction bytes using List.reverseRecOn with
  | nil => simp [countBytes]
  | append_singleton bytes c ih =>
    rw [List.length_append, List.length_singleton] at h
    have hcount := ih (by omega)
    have hle := List.count_le_length (a := b) (l := bytes)
    rw [countBytes_append_singleton, countByte, ftRead_ftWrite, List.count_append, List.count_singleton]
    by_cases hbc : c = b
    · subst hbc
      rw [if_pos rfl, BitVec.toNat_add, hcount, BitVec.toNat_ofNat]
      simp
      omega
    · simp [hbc, hcount]

/-- The state that COUNT leaves when its check passes (R91). -/
def counted (s : State) : State := { invalidateTree s with ft := countBytes (inputBytes s) }

theorem exec_count_of_fits {s : State} (he : s.err = 0#4) (hlen : s.ilen.toNat ≤ s.params.maxLen) :
    exec .count s = .next (counted s) := by
  show execCount s = _
  rw [execCount, unlessPending_of_clear he, if_neg (Nat.not_lt.2 hlen), counted]

theorem ftSum_counted (s : State) : ftSum (counted s).ft = s.ilen.toNat := by
  have hlen : (inputBytes s).length < 2 ^ 32 := by simpa using s.ilen.isLt
  exact (ftSum_countBytes hlen).trans (inputBytes_length s)

theorem ftRead_counted (s : State) (b : Byte) : (ftRead (counted s).ft b).toNat = (inputBytes s).count b :=
  ftRead_countBytes (by simpa using s.ilen.isLt) b

end Sys2Proof
end

section
/-! PROOFS. BUILD: the entries of a table, what the arena holds while the merges run, and the tree it denotes at the end
(R33 to R37, R104, R105, R110). -/

namespace Sys2Proof

open Sys2Proof.Machine

/-! ### The entries of a table (R33) -/

/-- The symbols of the entries are among those of the counts read, in their order. -/
theorem entriesFrom_symbols_sublist (ws : List Word) (b : Nat) :
    ((entriesFrom ws b).map Prod.fst).Sublist ((List.range' b ws.length).map (BitVec.ofNat 8)) := by
  induction ws generalizing b with
  | nil => exact List.Sublist.slnil
  | cons w ws ih =>
    rw [entriesFrom, List.length_cons, List.range'_succ, List.map_cons]
    split
    · exact (ih (b + 1)).cons _
    · exact (ih (b + 1)).cons_cons _

/-- Skipping the zero counts loses nothing of the sum. -/
theorem entriesFrom_weights_sum (ws : List Word) (b : Nat) :
    ((entriesFrom ws b).map Prod.snd).sum = (ws.map BitVec.toNat).sum := by
  induction ws generalizing b with
  | nil => rfl
  | cons w ws ih =>
    rw [entriesFrom]
    split
    · next hw => simp [ih, hw]
    · simp [ih]

theorem mem_entriesFrom {ws : List Word} {b : Nat} {e : Byte × Nat} :
    e ∈ entriesFrom ws b ↔ ∃ j w, ws[j]? = some w ∧ w ≠ 0#32 ∧ e = (BitVec.ofNat 8 (b + j), w.toNat) := by
  induction ws generalizing b with
  | nil => simp [entriesFrom]
  | cons w ws ih =>
    have ih := ih (b := b + 1)
    simp only [Nat.add_assoc, Nat.add_comm 1] at ih
    rw [entriesFrom, ← Nat.or_exists_add_one]
    simp only [List.getElem?_cons_zero, List.getElem?_cons_succ, Nat.add_zero]
    split
    · next hw => simp [ih, hw]
    · next hw => simp [ih, hw]

/-- The entries are the bytes of positive count, each with its count (R33). -/
theorem mem_tableEntries {ft : Vector Word 256} {b : Byte} {w : Nat} :
    (b, w) ∈ tableEntries ft ↔ ftRead ft b ≠ 0#32 ∧ w = (ftRead ft b).toNat := by
  rw [tableEntries, mem_entriesFrom]
  constructor
  · rintro ⟨j, v, hj, hne, he⟩
    obtain ⟨rfl, rfl⟩ := Prod.mk.inj he
    obtain ⟨hlt, rfl⟩ := List.getElem?_eq_some_iff.1 hj
    rw [Vector.length_toList] at hlt
    have hread : ftRead ft (BitVec.ofNat 8 (0 + j)) = ft.toList[j] := by
      simp [ftRead, Nat.mod_eq_of_lt hlt]
    rw [hread]
    exact ⟨hne, rfl⟩
  · rintro ⟨hne, rfl⟩
    exact ⟨b.toNat, ftRead ft b, by simp [ftRead, b.isLt], hne, by simp⟩

theorem tableEntries_symbols_nodup (ft : Vector Word 256) : ((tableEntries ft).map Prod.fst).Nodup := by
  refine (entriesFrom_symbols_sublist ft.toList 0).nodup (List.Nodup.map_on ?_ List.nodup_range')
  intro x hx y hy hxy
  rw [Vector.length_toList, List.mem_range'_1] at hx hy
  have := congrArg BitVec.toNat hxy
  rw [BitVec.toNat_ofNat, BitVec.toNat_ofNat] at this
  omega

theorem tableEntries_length_le (ft : Vector Word 256) : (tableEntries ft).length ≤ 256 := by
  have hle := (entriesFrom_symbols_sublist ft.toList 0).length_le
  rwa [List.length_map, List.length_map, List.length_range', Vector.length_toList] at hle

theorem tableEntries_weights_sum (ft : Vector Word 256) : ((tableEntries ft).map Prod.snd).sum = ftSum ft :=
  entriesFrom_weights_sum ft.toList 0

/-! ### Leaves of a tree -/

@[simp] theorem HuffNode.weight_leaf (s : Byte) (w : Nat) : (HuffNode.leaf s w).weight = w := rfl

@[simp] theorem HuffNode.weight_internal (w : Nat) (l r : HuffNode) : (HuffNode.internal w l r).weight = w := rfl

theorem HuffNode.leaves_length_pos (t : HuffNode) : 0 < t.leaves.length := by
  induction t with
  | leaf s w => exact Nat.one_pos
  | internal w l r ihl ihr => simp [HuffNode.leaves, ihl]

/-- When the weights add up, a tree weighs what its Leaves weigh (R37). -/
theorem HuffNode.weight_eq_sum_leaves {t : HuffNode} (h : t.weightsAdd) : t.weight = (t.leaves.map Prod.snd).sum := by
  induction t with
  | leaf s w => simp [HuffNode.leaves]
  | internal w l r ihl ihr =>
    obtain ⟨hw, hl, hr⟩ := h
    simp [HuffNode.leaves, hw, ihl hl, ihr hr]

theorem leafForest_leaves (entries : List (Byte × Nat)) : (leafForest entries).flatMap HuffNode.leaves = entries := by
  simp [leafForest, List.flatMap_map, HuffNode.leaves]

theorem leafForest_weightsAdd {entries : List (Byte × Nat)} {t : HuffNode} (h : t ∈ leafForest entries) : t.weightsAdd := by
  obtain ⟨e, -, rfl⟩ := List.mem_map.1 h
  trivial

/-! ### The arena holds a tree -/

/-- The record at index `i` is the root of the tree in the arena, with every node of it at an index below `n` and the smallest
symbols recorded: what `treeAt` says (`treeAt_of_holdsTree`), in a form that a write at `n` or above keeps
(`HoldsTree.nodeWrite`). -/
def HoldsTree (node : Vector NodeRec 511) (n : Nat) : Nat → HuffNode → Prop
  | i, .leaf s w =>
    i < n ∧ ∃ r, nodeRead node i = some r ∧ r.kind = .leaf ∧ r.sym = s ∧ r.minsym = s ∧ r.weight.toNat = w
  | i, .internal w l t =>
    i < n ∧ ∃ r, nodeRead node i = some r ∧ r.kind = .internal ∧ r.minsym.toNat = min l.minsym t.minsym ∧
      r.weight.toNat = w ∧ HoldsTree node n r.left.toNat l ∧ HoldsTree node n r.right.toNat t

theorem HoldsTree.index_lt {node : Vector NodeRec 511} {n i : Nat} {t : HuffNode} (h : HoldsTree node n i t) : i < n := by
  cases t with
  | leaf s w => exact h.1
  | internal w l r => exact h.1

theorem HoldsTree.root_record {node : Vector NodeRec 511} {n i : Nat} {t : HuffNode} (h : HoldsTree node n i t) :
    (nodeAt node i).weight.toNat = t.weight ∧ (nodeAt node i).minsym.toNat = t.minsym := by
  cases t with
  | leaf s w =>
    obtain ⟨-, r, hr, -, -, hmin, hw⟩ := h
    simp [nodeAt, hr, hmin, hw, HuffNode.minsym]
  | internal w l t =>
    obtain ⟨-, r, hr, -, hmin, hw, -, -⟩ := h
    simp [nodeAt, hr, hmin, hw, HuffNode.minsym]

/-- A tree below `n` stays where the arena changes at `n` or above only. -/
theorem HoldsTree.of_agree {node node' : Vector NodeRec 511} {n n' i : Nat} {t : HuffNode} (h : HoldsTree node n i t)
    (hn : n ≤ n') (hagree : ∀ j, j < n → nodeRead node' j = nodeRead node j) : HoldsTree node' n' i t := by
  induction t generalizing i with
  | leaf s w =>
    obtain ⟨hi, hrec⟩ := h
    exact ⟨by omega, hagree i hi ▸ hrec⟩
  | internal w l t ihl iht =>
    obtain ⟨hi, r, hr, hkind, hmin, hw, hl, ht⟩ := h
    exact ⟨by omega, r, hagree i hi ▸ hr, hkind, hmin, hw, ihl hl, iht ht⟩

theorem HoldsTree.nodeWrite {node : Vector NodeRec 511} {n n' k i : Nat} {t : HuffNode} (h : HoldsTree node n i t)
    (hk : n ≤ k) (hn : n ≤ n') (record : NodeRec) : HoldsTree (nodeWrite node k record) n' i t := by
  refine h.of_agree hn fun j hj => ?_
  rw [nodeRead_nodeWrite, if_neg (by omega)]

/-- A path has at most as many nodes as the tree has Leaves, so that many suffice as fuel (R125). -/
theorem treeAt_of_holdsTree {node : Vector NodeRec 511} {n fuel : Nat} {i : NodeIdx} {t : HuffNode}
    (h : HoldsTree node n i.toNat t) (hfuel : t.leaves.length ≤ fuel) : treeAt node fuel i = some t := by
  induction t generalizing fuel i with
  | leaf s w =>
    obtain ⟨-, r, hr, hkind, rfl, -, rfl⟩ := h
    obtain ⟨fuel, rfl⟩ := Nat.exists_eq_add_one.2 (Nat.lt_of_lt_of_le Nat.one_pos hfuel)
    simp [treeAt, hr, hkind]
  | internal w l t ihl iht =>
    obtain ⟨-, r, hr, hkind, -, rfl, hl, ht⟩ := h
    have hlpos := l.leaves_length_pos
    have htpos := t.leaves_length_pos
    rw [HuffNode.leaves, List.length_append] at hfuel
    obtain ⟨fuel, rfl⟩ := Nat.exists_eq_add_one.2 (show 0 < fuel by omega)
    simp [treeAt, hr, hkind, ihl hl (fuel := fuel) (by omega), iht ht (fuel := fuel) (by omega)]

/-! ### BUILD, initialisation: one Leaf per entry (R104) -/

/-- The members of PQ and the trees they are the roots of, in the order of PQ. -/
abbrev HoldsForest (node : Vector NodeRec 511) (n : Nat) (pq : List Nat) (forest : List HuffNode) : Prop :=
  List.Forall₂ (HoldsTree node n) pq forest

theorem HoldsForest.nodeWrite {node : Vector NodeRec 511} {n n' k : Nat} {pq : List Nat} {forest : List HuffNode}
    (h : HoldsForest node n pq forest) (hk : n ≤ k) (hn : n ≤ n') (record : NodeRec) :
    HoldsForest (nodeWrite node k record) n' pq forest :=
  h.imp fun _ _ ht => ht.nodeWrite hk hn record

theorem holdsForest_insertLeaves {ws : List Word} {b : Nat} {m : MergeState} {forest : List HuffNode}
    (h : HoldsForest m.node b m.pq forest) (hb : b + ws.length ≤ 256) :
    HoldsForest (insertLeaves ws b m).node (b + ws.length) (insertLeaves ws b m).pq
      (forest ++ leafForest (entriesFrom ws b)) := by
  induction ws generalizing b m forest with
  | nil => simpa [insertLeaves, entriesFrom, leafForest] using h
  | cons w ws ih =>
    rw [List.length_cons] at hb ⊢
    rw [insertLeaves, entriesFrom, show b + (ws.length + 1) = b + 1 + ws.length by omega]
    by_cases hw : w = 0#32
    · rw [insertLeaf, if_pos hw, if_pos hw]
      exact ih (h.imp fun _ _ ht => ht.of_agree (Nat.le_succ b) fun _ _ => rfl) (by omega)
    · rw [insertLeaf, if_neg hw, if_neg hw]
      have hleaf : HoldsTree (nodeWrite m.node b (leafRec (BitVec.ofNat 8 b) w)) (b + 1) b
          (.leaf (BitVec.ofNat 8 b) w.toNat) :=
        ⟨Nat.lt_succ_self b, leafRec (BitVec.ofNat 8 b) w, by rw [nodeRead_nodeWrite, if_pos ⟨rfl, by omega⟩],
          rfl, rfl, rfl, rfl⟩
      have hforest := List.rel_append (h.nodeWrite (Nat.le_refl b) (Nat.le_succ b) (leafRec (BitVec.ofNat 8 b) w))
        (List.Forall₂.cons hleaf .nil)
      have hrest := ih (m := { m with node := nodeWrite m.node b (leafRec (BitVec.ofNat 8 b) w), pq := m.pq ++ [b] })
        hforest (by omega)
      simpa [leafForest] using hrest

/-- The start of BUILD holds the forest of the Leaves of the table. -/
theorem holdsForest_startMerge (ft : Vector Word 256) :
    HoldsForest (startMerge ft).node 256 (startMerge ft).pq (leafForest (tableEntries ft)) := by
  have hlen := Vector.length_toList (xs := ft)
  have h := holdsForest_insertLeaves (ws := ft.toList) (b := 0) (m := emptyMerge) (forest := []) .nil (by omega)
  rwa [hlen, List.nil_append] at h

@[simp] theorem insertLeaves_k (ws : List Word) (b : Nat) (m : MergeState) : (insertLeaves ws b m).k = m.k := by
  induction ws generalizing b m with
  | nil => rfl
  | cons w ws ih =>
    rw [insertLeaves, ih, insertLeaf]
    split <;> rfl

@[simp] theorem startMerge_k (ft : Vector Word 256) : (startMerge ft).k = 0 := insertLeaves_k _ _ _

theorem startMerge_pq_length (ft : Vector Word 256) : (startMerge ft).pq.length = (tableEntries ft).length := by
  rw [(holdsForest_startMerge ft).length_eq, leafForest, List.length_map]

/-! ### BUILD, the merges (R105) -/

/-- What one merge does: two members leave PQ and the node made of them enters (R105). -/
theorem mergeStep_eq {m : MergeState} (h : 2 ≤ m.pq.length) :
    ∃ a c rest, m.pq.Perm (a :: c :: rest) ∧
      mergeStep m =
        { node := nodeWrite m.node (256 + m.k) (mergeRec m.node a c), pq := (256 + m.k) :: rest, k := m.k + 1 } := by
  obtain ⟨i, is, hpq⟩ := List.exists_cons_of_length_pos (show 0 < m.pq.length by omega)
  obtain ⟨a, ha⟩ := extractMin_isSome m.node i is
  rw [← hpq] at ha
  have hmem := (extractMin_mem ha).1
  have hlen := List.length_erase_of_mem hmem
  obtain ⟨j, js, hpq₁⟩ := List.exists_cons_of_length_pos (show 0 < (m.pq.erase a).length by omega)
  obtain ⟨c, hc⟩ := extractMin_isSome m.node j js
  rw [← hpq₁] at hc
  refine ⟨a, c, (m.pq.erase a).erase c, ?_, by simp only [mergeStep, ha, hc]⟩
  exact (List.perm_cons_erase hmem).trans ((List.perm_cons_erase (extractMin_mem hc).1).cons a)

theorem minSym_toNat (a b : Byte) : (minSym a b).toNat = min a.toNat b.toNat := by
  unfold minSym
  split
  · next h => exact (Nat.min_eq_right (Nat.le_of_lt (BitVec.lt_def.1 h))).symm
  · next h => exact (Nat.min_eq_left (Nat.not_lt.1 fun hlt => h (BitVec.lt_def.2 hlt))).symm

/-- The merged node holds the tree of its two children; the weight is exact when the sum fits 32 bits (R109). -/
theorem holdsTree_mergeRec {node : Vector NodeRec 511} {n a c : Nat} {l t : HuffNode} (hl : HoldsTree node n a l)
    (ht : HoldsTree node n c t) (hn : n < 511) (hsum : l.weight + t.weight < 2 ^ 32) :
    HoldsTree (nodeWrite node n (mergeRec node a c)) (n + 1) n (.internal (l.weight + t.weight) l t) := by
  obtain ⟨hlw, hlm⟩ := hl.root_record
  obtain ⟨htw, htm⟩ := ht.root_record
  have hleft : (mergeRec node a c).left.toNat = a := Nat.mod_eq_of_lt (by have := hl.index_lt; omega)
  have hright : (mergeRec node a c).right.toNat = c := Nat.mod_eq_of_lt (by have := ht.index_lt; omega)
  refine ⟨Nat.lt_succ_self n, mergeRec node a c, by rw [nodeRead_nodeWrite, if_pos ⟨rfl, hn⟩], rfl, ?_, ?_, ?_, ?_⟩
  · rw [mergeRec, minSym_toNat, hlm, htm]
  · rw [mergeRec, BitVec.toNat_add, hlw, htw, Nat.mod_eq_of_lt hsum]
  · exact hleft.symm ▸ hl.nodeWrite (Nat.le_refl n) (Nat.le_succ n) _
  · exact hright.symm ▸ ht.nodeWrite (Nat.le_refl n) (Nat.le_succ n) _

/-- What the merges of BUILD keep: the arena has room for the merges to come, and PQ holds a forest whose Leaves are the entries
and whose weights add up (R110). -/
structure MergeInv (entries : List (Byte × Nat)) (m : MergeState) : Prop where
  room : m.k + m.pq.length ≤ 256
  forest : ∃ forest, HoldsForest m.node (256 + m.k) m.pq forest ∧ (forest.flatMap HuffNode.leaves).Perm entries ∧
    ∀ t ∈ forest, t.weightsAdd

theorem mergeInv_startMerge (ft : Vector Word 256) : MergeInv (tableEntries ft) (startMerge ft) where
  room := by simpa [startMerge_pq_length] using tableEntries_length_le ft
  forest := ⟨leafForest (tableEntries ft), by simpa using holdsForest_startMerge ft,
    (leafForest_leaves (tableEntries ft)).symm ▸ List.Perm.refl _, fun _ => leafForest_weightsAdd⟩

/-- Two trees of a forest together weigh at most what the entries weigh. -/
theorem weight_add_le_of_forest {entries : List (Byte × Nat)} {l t : HuffNode} {forest : List HuffNode}
    (hperm : ((l :: t :: forest).flatMap HuffNode.leaves).Perm entries) (hl : l.weightsAdd) (ht : t.weightsAdd) :
    l.weight + t.weight ≤ (entries.map Prod.snd).sum := by
  rw [← (hperm.map Prod.snd).sum_eq, HuffNode.weight_eq_sum_leaves hl, HuffNode.weight_eq_sum_leaves ht]
  simp only [List.flatMap_cons, List.map_append, List.sum_append]
  omega

theorem mergeInv_mergeStep {entries : List (Byte × Nat)} {m : MergeState} (h : MergeInv entries m)
    (hsum : (entries.map Prod.snd).sum < 2 ^ 32) (hlen : 2 ≤ m.pq.length) :
    MergeInv entries (mergeStep m) ∧ (mergeStep m).pq.length + 1 = m.pq.length := by
  obtain ⟨hroom, forest, hforest, hleaves, hadd⟩ := h
  obtain ⟨a, c, rest, hpq, hstep⟩ := mergeStep_eq hlen
  obtain ⟨forest', hforest', hperm⟩ := List.perm_comp_forall₂ hpq.symm hforest
  cases hforest' with
  | @cons _ l _ forest₁ hl hforest₁ =>
  cases hforest₁ with
  | @cons _ t _ forest₂ ht hforest₂ =>
  have hlen' := hpq.length_eq
  simp only [List.length_cons] at hlen'
  have hadd' : ∀ u ∈ l :: t :: forest₂, u.weightsAdd := fun u hu => hadd u (hperm.mem_iff.1 hu)
  have hladd := hadd' l (by simp)
  have htadd := hadd' t (by simp)
  have hleaves' := (hperm.flatMap_right HuffNode.leaves).trans hleaves
  have hle := weight_add_le_of_forest hleaves' hladd htadd
  rw [hstep]
  refine ⟨⟨?_, .internal (l.weight + t.weight) l t :: forest₂, ?_, ?_, ?_⟩, ?_⟩
  · simp only [List.length_cons]
    omega
  · exact .cons (holdsTree_mergeRec hl ht (by omega) (by omega))
      (HoldsForest.nodeWrite hforest₂ (Nat.le_refl _) (Nat.le_succ _) _)
  · simpa [HuffNode.leaves] using hleaves'
  · intro u hu
    rcases List.mem_cons.1 hu with rfl | hu
    · exact ⟨rfl, hladd, htadd⟩
    · exact hadd' u (by simp [hu])
  · simp only [List.length_cons]
    omega

/-- Enough fuel takes PQ down to one member, or leaves it empty (R113). -/
theorem mergeInv_mergeLoop {entries : List (Byte × Nat)} (hsum : (entries.map Prod.snd).sum < 2 ^ 32) {fuel : Nat}
    {m : MergeState} (h : MergeInv entries m) (hfuel : m.pq.length ≤ fuel + 1) :
    MergeInv entries (mergeLoop fuel m) ∧ (mergeLoop fuel m).pq.length = min m.pq.length 1 := by
  induction fuel generalizing m with
  | zero => exact ⟨h, (Nat.min_eq_left hfuel).symm⟩
  | succ fuel ih =>
    rw [mergeLoop]
    split
    · next hlen =>
      obtain ⟨hstep, hdec⟩ := mergeInv_mergeStep h hsum hlen
      obtain ⟨hinv, hone⟩ := ih hstep (by omega)
      exact ⟨hinv, by omega⟩
    · exact ⟨h, by omega⟩

/-! ### BUILD: the tree of a table (R100, R110) -/

theorem buildTree_rootValid (ft : Vector Word 256) : (buildTree ft).rootValid = !(tableEntries ft).isEmpty := by
  have hempty : (startMerge ft).pq.isEmpty = (tableEntries ft).isEmpty := by
    rw [Bool.eq_iff_iff, List.isEmpty_iff_length_eq_zero, List.isEmpty_iff_length_eq_zero, startMerge_pq_length]
  rw [buildTree, hempty]

/-- The arena of BUILD denotes a tree at ROOT: its Leaves are the entries of the table and its weights add up (R36, R37). -/
theorem treeAt_buildTree {ft : Vector Word 256} (hsum : ftSum ft < 2 ^ 32) (hne : tableEntries ft ≠ []) :
    ∃ t, treeAt (buildTree ft).node 256 (buildTree ft).root = some t ∧ t.leaves.Perm (tableEntries ft) ∧ t.weightsAdd := by
  have hentries := tableEntries_length_le ft
  have hpos := List.length_pos_iff.2 hne
  have hpq := startMerge_pq_length ft
  rw [← tableEntries_weights_sum] at hsum
  obtain ⟨⟨hroom, forest, hforest, hleaves, hadd⟩, hlen⟩ :=
    mergeInv_mergeLoop hsum (mergeInv_startMerge ft) (fuel := 255) (by omega)
  obtain ⟨i, hi⟩ := List.length_eq_one_iff.1 (show (mergeLoop 255 (startMerge ft)).pq.length = 1 by omega)
  rw [hi] at hforest hroom
  cases hforest with
  | @cons _ t _ _ ht hnil =>
  cases hnil
  rw [List.flatMap_singleton] at hleaves
  have hindex := ht.index_lt
  have hroot : (buildTree ft).root.toNat = i := by
    rw [buildTree, hi]
    exact Nat.mod_eq_of_lt (by simp at hroom; omega)
  exact ⟨t, treeAt_of_holdsTree (hroot.symm ▸ ht) (hleaves.length_eq ▸ hentries), hleaves, hadd t (by simp)⟩

/-- The tree of a table weighs its sum (R37). -/
theorem weight_of_leaves_perm {ft : Vector Word 256} {t : HuffNode} (hleaves : t.leaves.Perm (tableEntries ft))
    (hadd : t.weightsAdd) : t.weight = ftSum ft := by
  rw [HuffNode.weight_eq_sum_leaves hadd, (hleaves.map Prod.snd).sum_eq, tableEntries_weights_sum]

theorem exec_build_of_fits {s : State} (he : s.err = 0#4) (hsum : ftSum s.ft < 2 ^ 32) :
    exec .build s = .next (installTree (buildTree s.ft) s) := by
  show execBuild s = _
  rw [execBuild, unlessPending_of_clear he, if_neg (by omega)]

end Sys2Proof
end

section
/-! PROOFS. MKTAB, ENCODE and DECODE on a tree the arena denotes: the code table is that of the tree (R120 to R124), the codes
are packed and read back (R132, R133), and the walk from the root undoes them (R142 to R148). -/

namespace Sys2Proof

open Sys2Proof.Machine

/-! ### Paths and codes in a tree (R122, R123) -/

theorem HuffNode.pathTo_internal_eq_some {w : Nat} {l r : HuffNode} {b : Byte} {p : BitString}
    (h : (HuffNode.internal w l r).pathTo b = some p) :
    ∃ v q, p = v :: q ∧ (bif v then r else l).pathTo b = some q := by
  rw [HuffNode.pathTo] at h
  split at h
  · next q hq =>
    cases h
    exact ⟨false, q, rfl, hq⟩
  · next hnone =>
    obtain ⟨q, hq, rfl⟩ := Option.map_eq_some_iff.1 h
    exact ⟨true, q, rfl, hq⟩

theorem HuffNode.pathTo_isSome_iff {t : HuffNode} {b : Byte} : (t.pathTo b).isSome ↔ b ∈ t.leaves.map Prod.fst := by
  induction t with
  | leaf s w => by_cases h : s = b <;> simp [HuffNode.pathTo, HuffNode.leaves, h, eq_comm (a := b)]
  | internal w l r ihl ihr =>
    rw [HuffNode.leaves, List.map_append, List.mem_append, ← ihl, ← ihr, HuffNode.pathTo]
    cases hl : l.pathTo b <;> simp

/-- A path has fewer edges than the tree has Leaves (R125). -/
theorem HuffNode.pathTo_length_lt {t : HuffNode} {b : Byte} {p : BitString} (h : t.pathTo b = some p) :
    p.length < t.leaves.length := by
  induction t generalizing p with
  | leaf s w =>
    by_cases hs : s = b
    · rw [HuffNode.pathTo, if_pos hs] at h
      cases h
      exact Nat.one_pos
    · rw [HuffNode.pathTo, if_neg hs] at h
      cases h
  | internal w l r ihl ihr =>
    have hl := l.leaves_length_pos
    have hr := r.leaves_length_pos
    obtain ⟨v, q, rfl, hq⟩ := HuffNode.pathTo_internal_eq_some h
    rw [HuffNode.leaves, List.length_append, List.length_cons]
    cases v with
    | false =>
      have := ihl hq
      omega
    | true =>
      have := ihr hq
      omega

theorem HuffNode.codeOf_leaf_eq_some {s b : Byte} {w : Nat} {p : BitString} (h : (HuffNode.leaf s w).codeOf b = some p) :
    s = b ∧ p = [false] := by
  by_cases hs : s = b
  · rw [HuffNode.codeOf, if_pos hs] at h
    exact ⟨hs, (Option.some.inj h).symm⟩
  · rw [HuffNode.codeOf, if_neg hs] at h
    cases h

theorem HuffNode.codeOf_isSome_iff {t : HuffNode} {b : Byte} : (t.codeOf b).isSome ↔ b ∈ t.leaves.map Prod.fst := by
  cases t with
  | leaf s w => by_cases h : s = b <;> simp [HuffNode.codeOf, HuffNode.leaves, h, eq_comm (a := b)]
  | internal w l r => exact HuffNode.pathTo_isSome_iff

theorem HuffNode.codeOf_length_lt {t : HuffNode} {b : Byte} {p : BitString} (ht : t.leaves.length ≤ 256)
    (h : t.codeOf b = some p) : p.length < 256 := by
  cases t with
  | leaf s w =>
    obtain ⟨-, rfl⟩ := HuffNode.codeOf_leaf_eq_some h
    decide
  | internal w l r => exact Nat.lt_of_lt_of_le (HuffNode.pathTo_length_lt h) ht

/-! ### The records of a tree in the arena -/

theorem nodeRead_of_treeAt_leaf {node : Vector NodeRec 511} {fuel : Nat} {i : NodeIdx} {s : Byte} {w : Nat}
    (h : treeAt node fuel i = some (.leaf s w)) :
    ∃ f r, fuel = f + 1 ∧ nodeRead node i.toNat = some r ∧ r.kind = .leaf ∧ r.sym = s ∧ r.weight.toNat = w := by
  cases fuel with
  | zero => cases h
  | succ f =>
    rw [treeAt] at h
    split at h
    · cases h
    · next r hr =>
      split at h
      · next hkind =>
        cases h
        exact ⟨f, r, rfl, hr, hkind, rfl, rfl⟩
      · split at h <;> cases h

theorem nodeRead_of_treeAt_internal {node : Vector NodeRec 511} {fuel : Nat} {i : NodeIdx} {w : Nat} {l t : HuffNode}
    (h : treeAt node fuel i = some (.internal w l t)) :
    ∃ f r, fuel = f + 1 ∧ nodeRead node i.toNat = some r ∧ r.kind = .internal ∧ r.weight.toNat = w ∧
      treeAt node f r.left = some l ∧ treeAt node f r.right = some t := by
  cases fuel with
  | zero => cases h
  | succ f =>
    rw [treeAt] at h
    split at h
    · cases h
    · next r hr =>
      split at h
      · cases h
      · next hkind =>
        split at h
        · next hl ht =>
          cases h
          exact ⟨f, r, rfl, hr, hkind, rfl, hl, ht⟩
        · cases h

/-- The record at the root of a tree has the tree's weight (R36). -/
theorem weight_nodeRead_of_treeAt {node : Vector NodeRec 511} {fuel : Nat} {i : NodeIdx} {t : HuffNode}
    (h : treeAt node fuel i = some t) : ∃ r, nodeRead node i.toNat = some r ∧ r.weight.toNat = t.weight := by
  cases t with
  | leaf s w =>
    obtain ⟨-, r, -, hr, -, -, hw⟩ := nodeRead_of_treeAt_leaf h
    exact ⟨r, hr, hw⟩
  | internal w l t =>
    obtain ⟨-, r, -, hr, -, hw, -, -⟩ := nodeRead_of_treeAt_internal h
    exact ⟨r, hr, hw⟩

/-! ### MKTAB: the code table of a tree (R120 to R124) -/

/-- The writes of Walk(i, path) for the tree at i, on the tree itself (R121). -/
def HuffNode.recordPaths : HuffNode → BitString → Vector CodeRec 256 → Vector CodeRec 256
  | .leaf s _, path, ct => ctWrite ct s (pathRec path)
  | .internal _ l r, path, ct => r.recordPaths (path ++ [true]) (l.recordPaths (path ++ [false]) ct)

theorem walkTree_of_treeAt {node : Vector NodeRec 511} {fuel : Nat} {i : NodeIdx} {t : HuffNode}
    (h : treeAt node fuel i = some t) (path : BitString) (ct : Vector CodeRec 256) :
    walkTree node fuel i path ct = .ok (t.recordPaths path ct) := by
  induction t generalizing fuel i path ct with
  | leaf s w =>
    obtain ⟨f, r, rfl, hr, hkind, rfl, -⟩ := nodeRead_of_treeAt_leaf h
    simp [walkTree, hr, hkind, HuffNode.recordPaths]
  | internal w l t ihl iht =>
    obtain ⟨f, r, rfl, hr, hkind, -, hl, ht⟩ := nodeRead_of_treeAt_internal h
    simp [walkTree, hr, hkind, ihl hl, iht ht, HuffNode.recordPaths]

/-- Where no symbol stands at two Leaves, each gets its own path and no other entry changes. -/
theorem ctRead_recordPaths {t : HuffNode} (hnodup : (t.leaves.map Prod.fst).Nodup) (path : BitString)
    (ct : Vector CodeRec 256) (b : Byte) :
    ctRead (t.recordPaths path ct) b = (t.pathTo b).elim (ctRead ct b) fun p => pathRec (path ++ p) := by
  induction t generalizing path ct with
  | leaf s w => by_cases hs : s = b <;> simp [HuffNode.recordPaths, HuffNode.pathTo, ctRead_ctWrite, hs]
  | internal w l r ihl ihr =>
    rw [HuffNode.leaves, List.map_append, List.nodup_append] at hnodup
    obtain ⟨hl, hr, hdisj⟩ := hnodup
    rw [HuffNode.recordPaths, ihr hr, ihl hl, HuffNode.pathTo]
    cases hlp : l.pathTo b with
    | none => cases r.pathTo b <;> simp
    | some p =>
      have hbl : b ∈ l.leaves.map Prod.fst := HuffNode.pathTo_isSome_iff.1 (by simp [hlp])
      have hrp : r.pathTo b = none := by
        rw [← Option.not_isSome_iff_eq_none, HuffNode.pathTo_isSome_iff]
        exact fun hbr => hdisj b hbl b hbr rfl
      simp [hrp]

/-- `ct` is the code table of the tree: its codes where the tree has the symbol, the empty record elsewhere (R122 to R124). -/
def IsTableOf (ct : Vector CodeRec 256) (t : HuffNode) : Prop :=
  ∀ b, ctRead ct b = (t.codeOf b).elim CodeRec.empty pathRec

@[simp] theorem ctRead_emptyCt (b : Byte) : ctRead emptyCt b = CodeRec.empty := by
  simp [ctRead, emptyCt]

theorem codeTable_of_treeAt {node : Vector NodeRec 511} {root : NodeIdx} {t : HuffNode}
    (h : treeAt node 256 root = some t) (hnodup : (t.leaves.map Prod.fst).Nodup) :
    ∃ ct, codeTable node root true = .ok ct ∧ IsTableOf ct t := by
  cases t with
  | leaf s w =>
    obtain ⟨-, r, -, hr, hkind, rfl, -⟩ := nodeRead_of_treeAt_leaf h
    refine ⟨ctWrite emptyCt r.sym (pathRec [false]), by simp [codeTable, rootedTable, hr, hkind], fun b => ?_⟩
    by_cases hs : r.sym = b <;> simp [HuffNode.codeOf, ctRead_ctWrite, hs]
  | internal w l t =>
    have hwalk := walkTree_of_treeAt h [] emptyCt
    obtain ⟨-, r, -, hr, hkind, -⟩ := nodeRead_of_treeAt_internal h
    refine ⟨_, by simpa [codeTable, rootedTable, hr, hkind] using hwalk, fun b => ?_⟩
    simpa [HuffNode.codeOf] using ctRead_recordPaths hnodup [] emptyCt b

/-- `len` holds the length of a path of at most 255 edges, so the code is the path (R39, R125). -/
theorem codeBits_pathRec {p : BitString} (hp : p.length < 256) : codeBits (pathRec p) = p := by
  apply List.ext_getElem
  · simp [pathRec, Nat.mod_eq_of_lt hp]
  · intro k hk hk'
    simp [codeBits, pathRec, List.getD_eq_getElem?_getD, hk']

theorem IsTableOf.codeOf_of_valid {ct : Vector CodeRec 256} {t : HuffNode} (h : IsTableOf ct t)
    (ht : t.leaves.length ≤ 256) {b : Byte} (hv : (ctRead ct b).valid = true) : t.codeOf b = some (codeBits (ctRead ct b)) := by
  cases hc : t.codeOf b with
  | none =>
    rw [h b, hc] at hv
    cases hv
  | some p =>
    rw [h b, hc, Option.elim_some, codeBits_pathRec (HuffNode.codeOf_length_lt ht hc)]

theorem IsTableOf.valid_of_mem {ct : Vector CodeRec 256} {t : HuffNode} (h : IsTableOf ct t) {b : Byte}
    (hb : b ∈ t.leaves.map Prod.fst) : (ctRead ct b).valid = true := by
  obtain ⟨p, hp⟩ := Option.isSome_iff_exists.1 (HuffNode.codeOf_isSome_iff.2 hb)
  rw [h b, hp]
  rfl

theorem exec_mktab_of_codeTable {s : State} {ct : Vector CodeRec 256} (he : s.err = 0#4) (htree : s.treeValid = true)
    (hct : codeTable s.node s.root s.rootValid = .ok ct) : exec .mktab s = .next { s with ct := ct, ctValid := true } := by
  show execMktab s = _
  rw [execMktab, unlessPending_of_clear he, if_pos htree, hct]

/-! ### ENCODE: packing (R131 to R133) -/

theorem getLsbD_bit_shiftLeft (v : Bool) {p q : Nat} (hp : p < 8) :
    ((if v then 1#8 else 0#8) <<< p).getLsbD q = (v && decide (p = q)) := by
  cases v with
  | false => simp
  | true =>
    have h := BitVec.getLsbD_twoPow (w := 8) p q
    rwa [BitVec.twoPow, decide_eq_true hp] at h

theorem getLsbD_putBit (old : Byte) (v : Bool) {p q : Nat} (hp : p < 8) (hq : q < 8) :
    (putBit old p v).getLsbD q = if q = p then v else old.getLsbD q := by
  have hone : (1#8 <<< p).getLsbD q = decide (p = q) := getLsbD_bit_shiftLeft true hp
  rw [putBit, BitVec.getLsbD_or, BitVec.getLsbD_and, BitVec.getLsbD_not, hone, getLsbD_bit_shiftLeft v hp]
  by_cases hqp : q = p
  · simp [hqp]
  · simp [hq, hqp, Ne.symm hqp]

/-- The bits laid into a byte one after another, the most significant first (R55). -/
theorem getLsbD_foldl_putBit (f : Nat → Bool) {n t : Nat} (hn : n ≤ 8) (ht : t < 8) :
    ((List.range n).foldl (fun b t => putBit b (7 - t) (f t)) 0#8).getLsbD (7 - t) = if t < n then f t else false := by
  induction n with
  | zero => simp
  | succ n ih =>
    rw [List.range_succ, List.foldl_append, List.foldl_cons, List.foldl_nil, getLsbD_putBit _ _ (by omega) (by omega),
      ih (by omega)]
    rcases Nat.lt_trichotomy t n with h | rfl | h
    · rw [if_neg (by omega), if_pos h, if_pos (by omega)]
    · rw [if_pos rfl, if_pos (by omega)]
    · rw [if_neg (by omega), if_neg (by omega), if_neg (by omega)]

theorem getLsbD_packByte (s : BitString) (j : Nat) {t : Nat} (ht : t < 8) :
    (packByte s j).getLsbD (7 - t) = s.getD (8 * j + t) false := by
  rw [packByte, getLsbD_foldl_putBit (fun t => s.getD (8 * j + t) false) (Nat.le_refl 8) ht, if_pos ht]

/-- A packed bit string reads back bit by bit (R55, R133). -/
theorem bitRead_memWriteList_packBits (m : Memory) {s : BitString} {k : Nat} (hk : k < s.length) :
    bitRead (memWriteList m 0 (packBits s)) k = s.getD k false := by
  have hj : k / 8 < (s.length + 7) / 8 := by omega
  have hread : memRead (memWriteList m 0 (packBits s)) (k / 8) = packByte s (k / 8) := by
    simp [memRead_memWriteList, packBits, hj]
  rw [bitRead, hread, getLsbD_packByte s (k / 8) (Nat.mod_lt k (by decide)), Nat.div_add_mod]

/-- What ENCODE stores is the bit sequence afterwards (R132, R133). -/
theorem bitSequence_storeSequence (s : State) {bits : BitString} (h : bits.length < 2 ^ 32) :
    bitSequence (storeSequence bits s) = bits := by
  have hlen : (storeSequence bits s).blen.toNat = bits.length := by
    rw [storeSequence_blen, BitVec.toNat_ofNat, Nat.mod_eq_of_lt h]
  apply List.ext_getElem
  · rw [bitSequence_length, hlen]
  · intro k hk hk'
    simp [bitSequence, bitRead_memWriteList_packBits _ hk', List.getD_eq_getElem?_getD, hk']

/-! ### ENCODE: the loop (R131) -/

theorem codesOf_cons (ct : Vector CodeRec 256) (b : Byte) (bytes : List Byte) :
    codesOf ct (b :: bytes) = codeBits (ctRead ct b) ++ codesOf ct bytes := rfl

/-- When every byte has a code and the codes fit, the loop ends with their concatenation (R132). -/
theorem encodeFrom_of_fits {ct : Vector CodeRec 256} {maxBits : Nat} {bytes : List Byte} {i pos : Nat}
    (hcoded : allCoded ct bytes) (hfit : pos + (codesOf ct bytes).length ≤ maxBits) :
    encodeFrom ct maxBits bytes i pos = .done (codesOf ct bytes) := by
  induction bytes generalizing i pos with
  | nil => rfl
  | cons b bytes ih =>
    rw [codesOf_cons, List.length_append, codeBits_length] at hfit
    have hrest := ih (i := i + 1) (pos := pos + (ctRead ct b).len.toNat) (fun c hc => hcoded c (List.mem_cons_of_mem b hc))
      (by omega)
    rw [encodeFrom, if_pos (hcoded b List.mem_cons_self), if_neg (by omega), hrest, prependCode, codesOf_cons]

theorem exec_encode_of_fits {s : State} (he : s.err = 0#4) (hct : s.ctValid = true) (hlen : s.ilen.toNat ≤ s.params.maxLen)
    (hcoded : allCoded s.ct (inputBytes s)) (hfit : (codesOf s.ct (inputBytes s)).length ≤ s.params.maxBits) :
    exec .encode s = .next (storeSequence (codesOf s.ct (inputBytes s)) s) := by
  show execEncode s = _
  rw [execEncode, unlessPending_of_clear he, if_pos hct, if_neg (Nat.not_lt.2 hlen),
    encodeFrom_of_fits hcoded (by omega), finishEncode]

/-! ### DECODE: the walk (R142 to R148) -/

/-- The first bit of a path leads from an Internal node to the child that the rest of the path starts at. -/
theorem exists_child_of_pathTo {node : Vector NodeRec 511} {fuel : Nat} {i : NodeIdx} {w : Nat} {l r : HuffNode} {b : Byte}
    {p : BitString} (h : treeAt node fuel i = some (.internal w l r)) (hp : (HuffNode.internal w l r).pathTo b = some p) :
    ∃ c v q f t, nodeRead node i.toNat = some c ∧ p = v :: q ∧ treeAt node f (if v then c.right else c.left) = some t ∧
      t.pathTo b = some q := by
  obtain ⟨f, c, -, hc, -, -, hl, hr⟩ := nodeRead_of_treeAt_internal h
  obtain ⟨v, q, rfl, hq⟩ := HuffNode.pathTo_internal_eq_some hp
  refine ⟨c, v, q, f, bif v then r else l, hc, rfl, ?_, hq⟩
  cases v
  · exact hl
  · exact hr

/-- The walker after the code of `b`, `len` bits of it, is consumed from the root (R149). -/
def afterCode (root : NodeIdx) (w : Walker) (b : Byte) (len : Nat) : Walker :=
  { cur := root, bpos := w.bpos + len, out := w.out ++ [b] }

/-- From an Internal node the bits of a path lead to its Leaf, which emits (R142). -/
theorem decodeFrom_path {node : Vector NodeRec 511} {root : NodeIdx} {rootRec : NodeRec}
    (hroot : nodeRead node root.toNat = some rootRec) (hkind : rootRec.kind = .internal) {expLen : Nat} {b : Byte}
    {p : BitString} (rest : BitString) {fuel wt : Nat} {l r : HuffNode} {w : Walker}
    (h : treeAt node fuel w.cur = some (.internal wt l r)) (hp : (HuffNode.internal wt l r).pathTo b = some p)
    (hout : w.out.length < expLen) :
    decodeFrom node root expLen (p ++ rest) w = decodeFrom node root expLen rest (afterCode root w b p.length) := by
  induction p generalizing fuel wt l r w with
  | nil =>
    obtain ⟨_, _, hnil, _⟩ := HuffNode.pathTo_internal_eq_some hp
    cases hnil
  | cons v q ih =>
    obtain ⟨c, v', q', f, t, hc, hvq, ht, hq⟩ := exists_child_of_pathTo h hp
    cases hvq
    rw [List.cons_append, decodeFrom, if_pos hout]
    simp only [decodeBit, hroot, hkind, moveBit, hc]
    cases t with
    | leaf s ws =>
      obtain ⟨-, k, -, hk, hkk, rfl, -⟩ := nodeRead_of_treeAt_leaf ht
      by_cases hs : k.sym = b
      · rw [HuffNode.pathTo, if_pos hs] at hq
        cases hq
        simp only [hk, hkk, hs]
        rfl
      · rw [HuffNode.pathTo, if_neg hs] at hq
        cases hq
    | internal wi li ri =>
      obtain ⟨-, k, -, hk, hkk, -⟩ := nodeRead_of_treeAt_internal ht
      simp only [hk, hkk]
      rw [ih (w := { w with cur := if v then c.right else c.left, bpos := w.bpos + 1 }) ht hq hout, List.length_cons,
        Nat.add_comm q.length 1]
      simp only [afterCode, Nat.add_assoc]

/-- From the root the code of a symbol emits it and the walk is at the root again (R142, R144). -/
theorem decodeFrom_code {node : Vector NodeRec 511} {root : NodeIdx} {fuel : Nat} {t : HuffNode}
    (h : treeAt node fuel root = some t) {b : Byte} {p : BitString} (hp : t.codeOf b = some p) {expLen : Nat}
    (rest : BitString) {w : Walker} (hcur : w.cur = root) (hout : w.out.length < expLen) :
    decodeFrom node root expLen (p ++ rest) w = decodeFrom node root expLen rest (afterCode root w b p.length) := by
  cases t with
  | leaf s ws =>
    obtain ⟨-, k, -, hk, hkk, rfl, -⟩ := nodeRead_of_treeAt_leaf h
    obtain ⟨rfl, rfl⟩ := HuffNode.codeOf_leaf_eq_some hp
    rw [List.singleton_append, decodeFrom, if_pos hout]
    simp only [decodeBit, hk, hkk]
    rfl
  | internal wi li ri =>
    obtain ⟨-, k, -, hk, hkk, -⟩ := nodeRead_of_treeAt_internal h
    exact decodeFrom_path hk hkk rest (hcur.symm ▸ h) hp hout

/-- The codes of the symbols still expected emit them one after another, and the bits after them are not read (R146). -/
theorem decodeFrom_codesOf {node : Vector NodeRec 511} {root : NodeIdx} {fuel : Nat} {t : HuffNode}
    (h : treeAt node fuel root = some t) {ct : Vector CodeRec 256} {syms : List Byte}
    (hcode : ∀ b ∈ syms, t.codeOf b = some (codeBits (ctRead ct b))) {expLen : Nat} (rest : BitString) {w : Walker}
    (hcur : w.cur = root) (hout : w.out.length + syms.length = expLen) :
    decodeFrom node root expLen (codesOf ct syms ++ rest) w = .done (w.out ++ syms) (w.bpos + (codesOf ct syms).length) := by
  induction syms generalizing w with
  | nil =>
    have hdone : ¬ w.out.length < expLen := by simp at hout; omega
    cases rest <;> simp [codesOf, decodeFrom, hdone]
  | cons b syms ih =>
    rw [List.length_cons] at hout
    rw [codesOf_cons, List.append_assoc, decodeFrom_code h (hcode b List.mem_cons_self) _ hcur (by omega),
      ih (w := afterCode root w b (codeBits (ctRead ct b)).length) (fun c hc => hcode c (List.mem_cons_of_mem b hc)) rfl
        (by simp [afterCode]; omega)]
    simp [afterCode, Nat.add_assoc]

/-- The state denotes a tree in which `ct` gives every one of the symbols its code. -/
def CodedBy (s : State) (ct : Vector CodeRec 256) (syms : List Byte) : Prop :=
  ∃ t, denotedTree s = some t ∧ ∀ b ∈ syms, t.codeOf b = some (codeBits (ctRead ct b))

theorem denotedTree_eq_some_iff {s : State} {t : HuffNode} :
    denotedTree s = some t ↔ s.rootValid = true ∧ treeAt s.node 256 s.root = some t := by
  rw [denotedTree]
  cases s.rootValid <;> simp

/-- A DECODE whose checks pass and whose bit sequence starts with the codes of EXPLEN symbols emits them (R142); with no symbol
expected it needs no tree (R143). -/
theorem exec_decode_of_codesOf {s : State} {ct : Vector CodeRec 256} {syms : List Byte} {rest : BitString}
    (he : s.err = 0#4) (htree : s.treeValid = true) (hexp : s.explen.toNat ≤ s.params.maxLen)
    (hblen : s.blen.toNat ≤ s.params.maxBits) (hcode : syms ≠ [] → CodedBy s ct syms) (hlen : syms.length = s.explen.toNat)
    (hbits : bitSequence s = codesOf ct syms ++ rest) :
    exec .decode s = .next (storeOutput syms (codesOf ct syms).length s) := by
  show execDecode s = _
  rw [execDecode, unlessPending_of_clear he, if_pos htree, if_neg (Nat.not_lt.2 hexp), if_neg (Nat.not_lt.2 hblen), runWalk]
  cases syms with
  | nil => exact if_pos hlen.symm
  | cons b syms =>
    obtain ⟨t, hdenoted, hcodes⟩ := hcode (List.cons_ne_nil b syms)
    obtain ⟨hroot, ht⟩ := denotedTree_eq_some_iff.1 hdenoted
    have hpos : s.explen.toNat ≠ 0 := by simp [← hlen]
    rw [if_neg hpos, if_pos hroot, hbits, decodeFrom_codesOf ht hcodes rest rfl (by simpa using hlen), List.nil_append,
      Nat.zero_add, finishDecode]

theorem outputBytes_storeOutput {s : State} {out : List Byte} (h : out.length = s.explen.toNat) (bpos : Nat) :
    outputBytes (storeOutput out bpos s) = out := by
  apply List.ext_getElem
  · rw [outputBytes_length, storeOutput_olen, h]
  · intro k hk hk'
    simp [outputBytes, memRead_memWriteList, hk']

end Sys2Proof
end

section
/-! PROOFS. The scope's two statements about whole buffers: the round trip of compression (R18), the weight of the tree and the
one-symbol buffer (R19, R136). -/

namespace Sys2Proof

open Sys2Proof.Machine

/-! ### The compression pipeline: COUNT, BUILD, MKTAB on a buffer (R18) -/

/-- The state after COUNT and BUILD. -/
def countedBuilt (s : State) : State := installTree (buildTree (counted s).ft) (counted s)

/-- The state after COUNT, BUILD and a MKTAB that answers `ct`. -/
def countedTabled (s : State) (ct : Vector CodeRec 256) : State := { countedBuilt s with ct := ct, ctValid := true }

theorem exec_build_counted {s : State} (he : s.err = 0#4) : exec .build (counted s) = .next (countedBuilt s) :=
  exec_build_of_fits he (by rw [ftSum_counted]; exact s.ilen.isLt)

/-- The symbols of the counted table are the bytes of the buffer. -/
theorem mem_symbols_counted {s : State} {b : Byte} :
    b ∈ (tableEntries (counted s).ft).map Prod.fst ↔ b ∈ inputBytes s := by
  have hentry : b ∈ (tableEntries (counted s).ft).map Prod.fst ↔ ftRead (counted s).ft b ≠ 0#32 := by
    simp [mem_tableEntries]
  rw [hentry, ← List.count_pos_iff, ← ftRead_counted, Nat.pos_iff_ne_zero, ne_eq, ne_eq, ← BitVec.toNat_inj]
  rfl

/-- The tree after COUNT and BUILD: denoted by the arena, a Leaf for each byte of the buffer and no other, and the weight of the
buffer's length (R19). -/
structure BufferTree (s : State) (t : HuffNode) : Prop where
  denoted : denotedTree (countedBuilt s) = some t
  leaves_length_le : t.leaves.length ≤ 256
  symbols_nodup : (t.leaves.map Prod.fst).Nodup
  mem_symbols : ∀ b, b ∈ t.leaves.map Prod.fst ↔ b ∈ inputBytes s
  weight_eq : t.weight = s.ilen.toNat

theorem tableEntries_counted_eq_nil_iff {s : State} : tableEntries (counted s).ft = [] ↔ inputBytes s = [] := by
  rw [← List.map_eq_nil_iff (f := Prod.fst), List.eq_nil_iff_forall_not_mem, List.eq_nil_iff_forall_not_mem]
  simp only [mem_symbols_counted]

theorem exists_bufferTree {s : State} (hne : inputBytes s ≠ []) : ∃ t, BufferTree s t := by
  have hentries : tableEntries (counted s).ft ≠ [] := fun h => hne (tableEntries_counted_eq_nil_iff.1 h)
  have hsum : ftSum (counted s).ft < 2 ^ 32 := by rw [ftSum_counted]; exact s.ilen.isLt
  have hroot : (countedBuilt s).rootValid = true := by
    show (buildTree (counted s).ft).rootValid = true
    rw [buildTree_rootValid]
    simpa using hentries
  obtain ⟨t, ht, hleaves, hadd⟩ := treeAt_buildTree hsum hentries
  have hsymbols := hleaves.map Prod.fst
  exact ⟨t, denotedTree_eq_some_iff.2 ⟨hroot, ht⟩, hleaves.length_eq ▸ tableEntries_length_le _,
    hsymbols.nodup_iff.2 (tableEntries_symbols_nodup _), fun b => hsymbols.mem_iff.trans mem_symbols_counted,
    (weight_of_leaves_perm hleaves hadd).trans (ftSum_counted s)⟩

/-- MKTAB after COUNT and BUILD of a nonempty buffer answers the code table of the buffer's tree. -/
theorem exec_mktab_of_bufferTree {s : State} {t : HuffNode} (he : s.err = 0#4) (h : BufferTree s t) :
    ∃ ct, exec .mktab (countedBuilt s) = .next (countedTabled s ct) ∧ IsTableOf ct t := by
  obtain ⟨hroot, ht⟩ := denotedTree_eq_some_iff.1 h.denoted
  obtain ⟨ct, hct, htable⟩ := codeTable_of_treeAt ht h.symbols_nodup
  exact ⟨ct, exec_mktab_of_codeTable he rfl (hroot.symm ▸ hct), htable⟩

theorem BufferTree.allCoded {s : State} {t : HuffNode} {ct : Vector CodeRec 256} (h : BufferTree s t) (hct : IsTableOf ct t) :
    allCoded ct (inputBytes s) :=
  fun b hb => hct.valid_of_mem ((h.mem_symbols b).2 hb)

theorem BufferTree.codeOf_eq {s : State} {t : HuffNode} {ct : Vector CodeRec 256} (h : BufferTree s t) (hct : IsTableOf ct t)
    {b : Byte} (hb : b ∈ inputBytes s) : t.codeOf b = some (codeBits (ctRead ct b)) :=
  hct.codeOf_of_valid h.leaves_length_le (h.allCoded hct b hb)

/-- MKTAB after COUNT and BUILD of any buffer: every byte has a code, and a nonempty buffer is coded by the denoted tree. -/
theorem exec_mktab_countedBuilt {s : State} (he : s.err = 0#4) :
    ∃ ct, exec .mktab (countedBuilt s) = .next (countedTabled s ct) ∧ allCoded ct (inputBytes s) ∧
      (inputBytes s ≠ [] → CodedBy (countedBuilt s) ct (inputBytes s)) := by
  by_cases hne : inputBytes s = []
  · have hroot : (countedBuilt s).rootValid = false := by
      show (buildTree (counted s).ft).rootValid = false
      rw [buildTree_rootValid, tableEntries_counted_eq_nil_iff.2 hne]
      rfl
    have hct : codeTable (countedBuilt s).node (countedBuilt s).root (countedBuilt s).rootValid = .ok emptyCt := by
      rw [hroot]
      rfl
    exact ⟨emptyCt, exec_mktab_of_codeTable he rfl hct, by simp [allCoded, hne], fun h => absurd hne h⟩
  · obtain ⟨t, h⟩ := exists_bufferTree hne
    obtain ⟨ct, hmktab, hct⟩ := exec_mktab_of_bufferTree he h
    exact ⟨ct, hmktab, h.allCoded hct, fun _ => ⟨t, h.denoted, fun _ => h.codeOf_eq hct⟩⟩

theorem Params.maxBits_lt_of_wf {p : Params} (h : p.wf = true) : p.maxBits < 2 ^ 32 := by
  simp only [Params.wf, Bool.and_eq_true, decide_eq_true_eq] at h
  exact h.2

/-- The state after ENCODE of the buffer with the table `ct`. -/
abbrev countedEncoded (s : State) (ct : Vector CodeRec 256) : State :=
  storeSequence (codesOf ct (inputBytes s)) (countedTabled s ct)

/-- ENCODE after MKTAB lays down the codes of the buffer when they fit MAXBITS (R132). -/
theorem exec_encode_countedTabled {s : State} {ct : Vector CodeRec 256} (he : s.err = 0#4)
    (hlen : s.ilen.toNat ≤ s.params.maxLen) (hcoded : allCoded ct (inputBytes s))
    (hfit : (codesOf ct (inputBytes s)).length ≤ s.params.maxBits) :
    exec .encode (countedTabled s ct) = .next (countedEncoded s ct) :=
  exec_encode_of_fits he rfl hlen hcoded hfit

theorem bitSequence_countedEncoded {s : State} {ct : Vector CodeRec 256} (hp : s.params.wf = true)
    (hfit : (codesOf ct (inputBytes s)).length ≤ s.params.maxBits) :
    bitSequence (countedEncoded s ct) = codesOf ct (inputBytes s) :=
  bitSequence_storeSequence _ (Nat.lt_of_le_of_lt hfit (Params.maxBits_lt_of_wf hp))

/-- DECODE after ENCODE, with EXPLEN = ILEN, emits the buffer (R151). -/
theorem exec_decode_countedEncoded {s : State} {ct : Vector CodeRec 256} (hp : s.params.wf = true) (he : s.err = 0#4)
    (hlen : s.ilen.toNat ≤ s.params.maxLen) (hcoded : inputBytes s ≠ [] → CodedBy (countedBuilt s) ct (inputBytes s))
    (hfit : (codesOf ct (inputBytes s)).length ≤ s.params.maxBits) :
    exec .decode { countedEncoded s ct with explen := s.ilen } =
      .next (storeOutput (inputBytes s) (codesOf ct (inputBytes s)).length { countedEncoded s ct with explen := s.ilen }) := by
  have hbits := bitSequence_countedEncoded hp hfit
  have hblen : (countedEncoded s ct).blen.toNat ≤ s.params.maxBits := by
    rw [← bitSequence_length, hbits]
    exact hfit
  exact exec_decode_of_codesOf (rest := []) he rfl hlen hblen hcoded (inputBytes_length s)
    (hbits.trans (List.append_nil _).symm)

/-- Settles O57: the tree of the counted buffer gives every byte of it a code, and the walk from the root undoes the codes. -/
theorem compressionRoundTrip : Obligations.CompressionRoundTrip := by
  intro s hp he hlen
  obtain ⟨ct, hmktab, hall, hcoded⟩ := exec_mktab_countedBuilt he
  refine ⟨counted s, countedBuilt s, countedTabled s ct, exec_count_of_fits he hlen, exec_build_counted he, hmktab, he,
    rfl, hall, fun hfit => ?_⟩
  have hblen : (countedEncoded s ct).blen.toNat = (codesOf ct (inputBytes s)).length := by
    rw [← bitSequence_length, bitSequence_countedEncoded (ct := ct) hp hfit]
  exact ⟨countedEncoded s ct, _, exec_encode_countedTabled he hlen hall hfit, he, hblen,
    exec_decode_countedEncoded hp he hlen hcoded hfit, he, rfl, outputBytes_storeOutput (inputBytes_length s) _⟩

/-! ### The weight of the tree, and the one-symbol buffer (R19, R136) -/

/-- A tree with one symbol only, at one Leaf only, is that Leaf. -/
theorem HuffNode.eq_leaf_of_symbols_eq {t : HuffNode} {b : Byte} (hnodup : (t.leaves.map Prod.fst).Nodup)
    (h : ∀ c ∈ t.leaves.map Prod.fst, c = b) : ∃ w, t = .leaf b w := by
  cases t with
  | leaf s w => exact ⟨w, by rw [h s (by simp [HuffNode.leaves])]⟩
  | internal w l r =>
    rw [List.eq_replicate_of_mem h, List.nodup_replicate, List.length_map, HuffNode.leaves, List.length_append] at hnodup
    have hl := l.leaves_length_pos
    have hr := r.leaves_length_pos
    omega

/-- A buffer of one symbol, repeated, encodes to as many zeros (R136). -/
theorem codesOf_of_all_eq {s : State} {t : HuffNode} {ct : Vector CodeRec 256} (h : BufferTree s t) (hct : IsTableOf ct t)
    {b : Byte} (hall : ∀ c ∈ inputBytes s, c = b) : codesOf ct (inputBytes s) = List.replicate s.ilen.toNat false := by
  obtain ⟨w, rfl⟩ := HuffNode.eq_leaf_of_symbols_eq h.symbols_nodup fun c hc => hall c ((h.mem_symbols c).1 hc)
  have hcode : ∀ c ∈ inputBytes s, codeBits (ctRead ct c) = [false] := fun c hc =>
    (HuffNode.codeOf_leaf_eq_some (h.codeOf_eq hct hc)).2
  rw [codesOf, List.flatMap_congr hcode, ← List.map_eq_flatMap, List.map_const', inputBytes_length]

/-- Settles O58: the root record has the weight of the buffer's tree, which is the sum of the counts; a one-symbol buffer has a
lone Leaf as its tree. -/
theorem weightInvariantAndDegenerateAlphabet : Obligations.WeightInvariantAndDegenerateAlphabet := by
  intro s hp he hlen hpos
  have hne : inputBytes s ≠ [] := List.ne_nil_of_length_pos (by rwa [inputBytes_length])
  obtain ⟨t, h⟩ := exists_bufferTree hne
  obtain ⟨hroot, ht⟩ := denotedTree_eq_some_iff.1 h.denoted
  obtain ⟨r, hr, hweight⟩ := weight_nodeRead_of_treeAt ht
  refine ⟨counted s, countedBuilt s, r, exec_count_of_fits he hlen, exec_build_counted he, hroot, hr,
    BitVec.eq_of_toNat_eq (hweight.trans h.weight_eq), fun hsame hfit => ?_⟩
  obtain ⟨ct, hmktab, hct⟩ := exec_mktab_of_bufferTree he h
  have hall : ∀ c ∈ inputBytes s, c = memRead s.ibuf 0 := by
    simpa [inputBytes] using hsame
  have hzeros := codesOf_of_all_eq h hct hall
  have hfit' : (codesOf ct (inputBytes s)).length ≤ s.params.maxBits := by
    rwa [hzeros, List.length_replicate]
  exact ⟨countedTabled s ct, countedEncoded s ct, hmktab, exec_encode_countedTabled he hlen (h.allCoded hct) hfit', he,
    (bitSequence_countedEncoded hp hfit').trans hzeros⟩

end Sys2Proof
end

section
/-! PROOFS. The statements of 10_state on the tables and at the host port: the sum of the counts (R34), the arena of BUILD (R36,
R37), the code table of MKTAB (R39, R40), STATUS (R25) and a host write to a count (R31). -/

namespace Sys2Proof

open Sys2Proof.Machine

/-! ### BUILD: the tree holds the table (R36, R37) -/

/-- Settles O29: the arena of BUILD denotes a tree at ROOT with the entries as its Leaves, and such a tree weighs their sum. -/
theorem buildTreeHoldsTheTable : Obligations.BuildTreeHoldsTheTable := by
  intro s he hsum
  refine ⟨installTree (buildTree s.ft) s, exec_build_of_fits he (by omega), fun hempty => ?_, fun hne => ?_⟩
  · have hroot : (installTree (buildTree s.ft) s).rootValid = false := by
      rw [installTree_rootValid, buildTree_rootValid, hempty, List.isEmpty_nil, Bool.not_true]
    rw [denotedTree, hroot]
    rfl
  · obtain ⟨t, ht, hleaves, hadd⟩ := treeAt_buildTree (ft := s.ft) (by omega) hne
    have hroot : (installTree (buildTree s.ft) s).rootValid = true := by
      rw [installTree_rootValid, buildTree_rootValid, List.isEmpty_eq_false_iff.2 hne, Bool.not_false]
    exact ⟨t, denotedTree_eq_some_iff.2 ⟨hroot, ht⟩, hleaves, hadd, weight_of_leaves_perm hleaves hadd⟩

/-! ### COUNT: the sum of the counts (R34) -/

/-- Settles O19: each input byte adds 1 to the exact sum of the table. -/
theorem countSumIsInputLength : Obligations.CountSumIsInputLength :=
  fun s he hlen => ⟨counted s, exec_count_of_fits he hlen, he, ftSum_counted s⟩

/-! ### BUILD: the places of the arena (R36, R110) -/

/-- Initialisation writes the place of each byte of positive count, and no other (R104). -/
theorem nodeRead_insertLeaves {ws : List Word} {b : Nat} {m : MergeState} (hb : b + ws.length ≤ 256) (j : Nat) :
    nodeRead (insertLeaves ws b m).node j =
      if b ≤ j ∧ j < b + ws.length ∧ ws.getD (j - b) 0#32 ≠ 0#32 then
        some (leafRec (BitVec.ofNat 8 j) (ws.getD (j - b) 0#32))
      else nodeRead m.node j := by
  induction ws generalizing b m with
  | nil =>
    rw [if_neg (by simp)]
    rfl
  | cons w ws ih =>
    rw [List.length_cons] at hb ⊢
    have hinsert : nodeRead (insertLeaf m b w).node j =
        if b = j ∧ w ≠ 0#32 then some (leafRec (BitVec.ofNat 8 b) w) else nodeRead m.node j := by
      by_cases hw : w = 0#32
      · simp [insertLeaf, hw]
      · simp only [insertLeaf, hw, if_false, nodeRead_nodeWrite, ne_eq, not_false_eq_true, and_true]
        exact if_congr ⟨fun h => h.1, fun h => ⟨h, by omega⟩⟩ rfl rfl
    rw [insertLeaves, ih (by omega), hinsert]
    rcases Nat.lt_trichotomy j b with h | rfl | h
    · rw [if_neg (by omega), if_neg (by omega), if_neg (by omega)]
    · rw [if_neg (by omega)]
      simp
    · obtain ⟨d, rfl⟩ : ∃ d, j = b + 1 + d := ⟨j - (b + 1), by omega⟩
      rw [if_neg (c := b = _ ∧ _) (by omega), show b + 1 + d - (b + 1) = d by omega, show b + 1 + d - b = d + 1 by omega,
        List.getD_cons_succ]
      exact if_congr (and_congr (by omega) (and_congr_left' (by omega))) rfl rfl

theorem nodeRead_emptyMerge {j : Nat} (hj : j < 511) : nodeRead emptyMerge.node j = some NodeRec.zero := by
  simp [nodeRead, emptyMerge, hj]

/-- The place of a byte at the start of BUILD (R104). -/
theorem nodeRead_startMerge_byte (ft : Vector Word 256) (b : Byte) :
    nodeRead (startMerge ft).node b.toNat =
      some (if ftRead ft b = 0#32 then NodeRec.zero else leafRec b (ftRead ft b)) := by
  have hb := b.isLt
  have hlen := Vector.length_toList (xs := ft)
  have hread : ft.toList.getD b.toNat 0#32 = ftRead ft b := by simp [ftRead, List.getD_eq_getElem?_getD, hb]
  rw [startMerge, nodeRead_insertLeaves (by omega), Nat.sub_zero, hread, BitVec.ofNat_toNat, BitVec.setWidth_eq,
    nodeRead_emptyMerge (by omega)]
  by_cases h0 : ftRead ft b = 0#32
  · rw [if_neg (fun h => h.2.2 h0), if_pos h0]
  · rw [if_pos ⟨Nat.zero_le _, by omega, h0⟩, if_neg h0]

/-- No place of a merged node is written at the start of BUILD (R101). -/
theorem nodeRead_startMerge_merged (ft : Vector Word 256) {j : Nat} (h256 : 256 ≤ j) (hj : j < 511) :
    nodeRead (startMerge ft).node j = some NodeRec.zero := by
  have hlen := Vector.length_toList (xs := ft)
  rw [startMerge, nodeRead_insertLeaves (by omega), if_neg (by omega), nodeRead_emptyMerge hj]

/-- The merges write the next free places only, one less than there are members of PQ (R105, R113). -/
theorem nodeRead_mergeLoop {fuel j : Nat} {m : MergeState} (hj : j < 256 + m.k ∨ 256 + m.k + m.pq.length ≤ j + 1) :
    nodeRead (mergeLoop fuel m).node j = nodeRead m.node j := by
  induction fuel generalizing m with
  | zero => rfl
  | succ fuel ih =>
    rw [mergeLoop]
    split
    · next hlen =>
      obtain ⟨a, c, rest, hpq, hstep⟩ := mergeStep_eq hlen
      have hlen' := hpq.length_eq
      simp only [List.length_cons] at hlen'
      rw [hstep, ih (by simp only [List.length_cons]; omega), nodeRead_nodeWrite, if_neg (by omega)]
    · rfl

/-- The place of a byte in the arena of BUILD: its Leaf, or the zero record (R36). -/
theorem nodeRead_buildTree_byte (ft : Vector Word 256) (b : Byte) :
    nodeRead (buildTree ft).node b.toNat =
      some (if ftRead ft b = 0#32 then NodeRec.zero else leafRec b (ftRead ft b)) := by
  have hb := b.isLt
  rw [buildTree, nodeRead_mergeLoop (.inl (by rw [startMerge_k]; omega)), nodeRead_startMerge_byte]

/-- The places after the last merged node hold the zero record (R36). -/
theorem nodeRead_buildTree_unused {ft : Vector Word 256} {k : Nat} (hn : (tableEntries ft).length ≤ k + 1)
    (hk : 256 + k < 511) : nodeRead (buildTree ft).node (256 + k) = some NodeRec.zero := by
  rw [buildTree, nodeRead_mergeLoop (.inr (by rw [startMerge_k, startMerge_pq_length]; omega)),
    nodeRead_startMerge_merged ft (by omega) hk]

/-- Settles O26: initialisation writes the places of the bytes, and the merges only places from 256 on, one per merge. -/
theorem buildPlacesLeaves : Obligations.BuildPlacesLeaves :=
  fun s he hsum => ⟨installTree (buildTree s.ft) s, exec_build_of_fits he (by omega), nodeRead_buildTree_byte s.ft,
    fun _ => nodeRead_buildTree_unused⟩

/-! ### MKTAB: the code table and the frequency table (R39, R40) -/

theorem mem_symbols_tableEntries {ft : Vector Word 256} {b : Byte} :
    b ∈ (tableEntries ft).map Prod.fst ↔ 0 < (ftRead ft b).toNat := by
  have hentry : b ∈ (tableEntries ft).map Prod.fst ↔ ftRead ft b ≠ 0#32 := by simp [mem_tableEntries]
  rw [hentry, Nat.pos_iff_ne_zero, ne_eq, ne_eq, ← BitVec.toNat_inj]
  rfl

/-- A code has at least one bit: a path from an Internal root does, and a lone Leaf's code is "0" (R123). -/
theorem HuffNode.codeOf_length_pos {t : HuffNode} {b : Byte} {p : BitString} (h : t.codeOf b = some p) : 0 < p.length := by
  cases t with
  | leaf s w =>
    obtain ⟨-, rfl⟩ := HuffNode.codeOf_leaf_eq_some h
    exact Nat.one_pos
  | internal w l r =>
    obtain ⟨v, q, rfl, -⟩ := HuffNode.pathTo_internal_eq_some (w := w) h
    exact Nat.succ_pos q.length

/-- The state denotes the tree `t`, and `t` holds the present table (R36, R37). -/
structure TreeOfTable (s : State) (t : HuffNode) : Prop where
  denoted : denotedTree s = some t
  leaves_perm : t.leaves.Perm (tableEntries s.ft)
  weightsAdd : t.weightsAdd

theorem TreeOfTable.leaves_length_le {s : State} {t : HuffNode} (h : TreeOfTable s t) : t.leaves.length ≤ 256 :=
  h.leaves_perm.length_eq ▸ tableEntries_length_le s.ft

theorem TreeOfTable.symbols_nodup {s : State} {t : HuffNode} (h : TreeOfTable s t) : (t.leaves.map Prod.fst).Nodup :=
  (h.leaves_perm.map Prod.fst).nodup_iff.2 (tableEntries_symbols_nodup s.ft)

theorem TreeOfTable.mem_symbols {s : State} {t : HuffNode} (h : TreeOfTable s t) {b : Byte} :
    b ∈ t.leaves.map Prod.fst ↔ 0 < (ftRead s.ft b).toNat :=
  (h.leaves_perm.map Prod.fst).mem_iff.trans mem_symbols_tableEntries

/-- In a state of the invariant a valid tree is empty with an empty table, or it is the tree of the table. -/
theorem tree_cases_of_treeOk {s : State} (h : TreeOk s) (htree : s.treeValid = true) :
    (tableEntries s.ft = [] ∧ s.rootValid = false) ∨ ∃ t, TreeOfTable s t := by
  obtain ⟨hsum, hnode, -, hroot, hrootValid⟩ := h htree
  rw [buildTree_rootValid] at hrootValid
  by_cases hempty : tableEntries s.ft = []
  · exact .inl ⟨hempty, by rw [hrootValid, hempty]; rfl⟩
  · have hvalid : s.rootValid = true := by rw [hrootValid, List.isEmpty_eq_false_iff.2 hempty]; rfl
    obtain ⟨t, ht, hleaves, hadd⟩ := treeAt_buildTree (ft := s.ft) (by omega) hempty
    rw [← hnode, ← hroot] at ht
    exact .inr ⟨t, denotedTree_eq_some_iff.2 ⟨hvalid, ht⟩, hleaves, hadd⟩

/-- The table MKTAB makes of the tree of a table is that tree's (R122). -/
theorem TreeOfTable.isTableOf {s : State} {t : HuffNode} (h : TreeOfTable s t) {ct : Vector CodeRec 256}
    (hct : codeTable s.node s.root s.rootValid = .ok ct) : IsTableOf ct t := by
  obtain ⟨hroot, ht⟩ := denotedTree_eq_some_iff.1 h.denoted
  obtain ⟨ct', hct', htable⟩ := codeTable_of_treeAt ht h.symbols_nodup
  rw [hroot, hct'] at hct
  cases hct
  exact htable

theorem Inv.treeOk {s : State} (h : Inv s) : TreeOk s := by
  obtain ⟨-, -, -, htree, -⟩ := h
  exact htree

/-- A valid code table is that of a valid tree (R32). -/
theorem Inv.table_of_ctValid {s : State} (h : Inv s) (hct : s.ctValid = true) :
    s.treeValid = true ∧ codeTable s.node s.root s.rootValid = .ok s.ct := by
  obtain ⟨-, -, hnoTree, -, htable, -⟩ := h
  refine ⟨Bool.eq_true_of_not_eq_false fun hfalse => ?_, htable hct⟩
  obtain ⟨-, hctFalse, -⟩ := hnoTree hfalse
  rw [hct] at hctFalse
  cases hctFalse

/-- What a valid code table holds for each byte: a code of the byte, when its count is positive, else the empty record (R40). -/
theorem Inv.ctRead_cases {s : State} (h : Inv s) (hct : s.ctValid = true) (b : Byte) :
    (0 < (ftRead s.ft b).toNat ∧ ∃ p : BitString, 0 < p.length ∧ p.length < 256 ∧ ctRead s.ct b = pathRec p) ∨
    ((ftRead s.ft b).toNat = 0 ∧ ctRead s.ct b = CodeRec.empty) := by
  obtain ⟨htree, htable⟩ := h.table_of_ctValid hct
  rcases tree_cases_of_treeOk h.treeOk htree with ⟨hempty, hroot⟩ | ⟨t, ht⟩
  · have hzero : ¬ 0 < (ftRead s.ft b).toNat := by
      rw [← mem_symbols_tableEntries, hempty]
      exact List.not_mem_nil
    rw [hroot] at htable
    exact .inr ⟨by omega, Except.ok.inj htable ▸ ctRead_emptyCt b⟩
  · have hrec := ht.isTableOf htable b
    have hmem := HuffNode.codeOf_isSome_iff.trans (ht.mem_symbols (b := b))
    cases hcode : t.codeOf b with
    | none =>
      rw [hcode] at hrec hmem
      exact .inr ⟨by simpa using hmem, hrec⟩
    | some p =>
      rw [hcode] at hrec hmem
      exact .inl ⟨hmem.1 rfl, p, HuffNode.codeOf_length_pos hcode,
        HuffNode.codeOf_length_lt ht.leaves_length_le hcode, hrec⟩

/-- Settles O34: a valid code table is that of the tree of the present table, whose symbols are the bytes of positive count. -/
theorem mktabMatchesTheTable : Obligations.MktabMatchesTheTable := by
  intro s h hct b
  rcases h.ctRead_cases hct b with ⟨hpos, p, hp, hp', hrec⟩ | ⟨hzero, hrec⟩
  · have hlen : (pathRec p).len.toNat = p.length := Nat.mod_eq_of_lt hp'
    rw [hrec, hlen]
    exact ⟨⟨fun _ => hpos, fun _ => rfl⟩, fun _ => ⟨hp, by omega, rfl⟩, nofun⟩
  · rw [hrec, hzero]
    exact ⟨⟨nofun, fun h0 => absurd h0 (Nat.lt_irrefl 0)⟩, nofun,
      fun _ => rfl⟩

/-! ### STATUS and the counts at the host port (R25, R31) -/

/-- Bits put in front of others add what they are worth at their place. -/
theorem toNat_append_eq_add {m n : Nat} (x : BitVec m) (y : BitVec n) : (x ++ y).toNat = 2 ^ n * x.toNat + y.toNat := by
  rw [BitVec.toNat_append, ← Nat.shiftLeft_add_eq_or_of_lt y.isLt, Nat.shiftLeft_eq, Nat.mul_comm]

/-- Settles O8: STATUS is its four fields, one in front of the other. -/
theorem statusWordFields : Obligations.StatusWordFields := by
  intro s
  show (statusWord s).toNat = _
  rw [statusWord, BitVec.toNat_setWidth_of_le (by decide)]
  simp only [toNat_append_eq_add, BitVec.toNat_ofBool]
  omega

/-- A host write to a count is a store and a tree invalidation (R31, R61). -/
theorem step_write_ft {s : State} {i v : Nat} {rest : List HostAction} (hp : s.params.wf = true) (hi : i < 256)
    (hpending : s.pending = .write 1 i v :: rest) : step s = .next (writeFt (acceptAction s rest) i v) := by
  rw [step_perform hp hpending]
  exact hostWrite_element (n := 1) (sp := .ft) rfl hi

/-- Settles O12: the store is to the one count, and the invalidation does not look at the value. -/
theorem hostWriteToCountInvalidatesTree : Obligations.HostWriteToCountInvalidatesTree := by
  intro s i v rest hp hi hpending
  refine ⟨_, step_write_ft hp hi hpending, fun b => ?_⟩
  have hb : BitVec.ofNat 8 i = b ↔ b.toNat = i := by
    rw [← BitVec.toNat_inj, BitVec.toNat_ofNat, Nat.mod_eq_of_lt hi, eq_comm]
  rw [acceptAction_ft, ftRead_ftWrite]
  exact if_congr hb rfl rfl

end Sys2Proof
end

section
/-! PROOFS. Every step keeps the invariant: the memories (R42 to R44), the error registers (R26, R181), the validity flags
(R30 to R32) and the results (R44, R152), command by command and host action by host action. -/

namespace Sys2Proof

open Sys2Proof.Machine

/-! ### The byte memories -/

theorem MemoryOk.mono {m : Memory} {size fresh fresh' : Nat} (h : MemoryOk m size fresh) (hle : fresh ≤ fresh') :
    MemoryOk m size fresh' := by
  obtain ⟨hwf, hrange, hstamp⟩ := h
  exact ⟨hwf, hrange, Nat.lt_of_lt_of_le hstamp hle⟩

theorem MemoryOk.memWrite {m : Memory} {size fresh i : Nat} (h : MemoryOk m size fresh) (hi : i < size) (v : Byte) :
    MemoryOk (memWrite m i v) size fresh := by
  obtain ⟨hwf, hrange, hstamp⟩ := h
  exact ⟨memWrite_wf hwf i v, memWrite_range hrange hi v, hstamp⟩

theorem MemoryOk.memWriteList {m : Memory} {size fresh : Nat} (h : MemoryOk m size fresh) {vs : List Byte}
    (hlen : vs.length ≤ size) : MemoryOk (memWriteList m 0 vs) size fresh := by
  obtain ⟨hwf, hrange, hstamp⟩ := h
  exact ⟨memWriteList_wf vs hwf 0, memWriteList_range vs hrange (by omega), (memWriteList_stamp vs m 0).symm ▸ hstamp⟩

theorem MemoryOk.memForgetBelow {m : Memory} {size fresh n : Nat} (h : MemoryOk m size fresh) (hn : n ≤ size) (st : Nat) :
    MemoryOk (memForgetBelow m n st) size fresh := by
  obtain ⟨hwf, hrange, hstamp⟩ := h
  exact ⟨memForgetBelow_wf hwf n st, memForgetBelow_range hrange hn st, hstamp⟩

theorem memoryOk_unwritten {stamp fresh : Nat} (size : Nat) (h : stamp < fresh) :
    MemoryOk (Memory.unwritten stamp) size fresh :=
  ⟨unwritten_wf stamp, fun _ hc => absurd hc List.not_mem_nil, h⟩

theorem MemoriesOk.mono {s : State} (h : MemoriesOk s) {fresh : Nat} (hle : s.fresh ≤ fresh) :
    MemoriesOk { s with fresh := fresh } := by
  obtain ⟨hibuf, hbits, hobuf⟩ := h
  exact ⟨hibuf.mono hle, hbits.mono hle, hobuf.mono hle⟩

/-! ### Changes of the state that keep the invariant -/

theorem Inv.params_wf {s : State} (h : Inv s) : s.params.wf = true := by
  obtain ⟨hp, -⟩ := h
  exact hp

/-- A reply, and free values handed out for it, do not touch what the invariant says. -/
theorem Inv.withReply {s : State} (h : Inv s) (reply : Option Reply) {fresh : Nat} (hle : s.fresh ≤ fresh) :
    Inv { s with reply := reply, fresh := fresh } := by
  obtain ⟨hp, herr, hnoTree, htree, htable, hmem, hres⟩ := h
  exact ⟨hp, herr, hnoTree, htree, htable, hmem.mono hle, hres⟩

theorem Inv.regWrite {s : State} (h : Inv s) (value : Nat) (r : Reg) : Inv (regWrite s value r) := by
  cases r <;> exact h

/-- With the tree invalid any table of counts will do (R31). -/
theorem Inv.invalidateTree {s : State} (h : Inv s) (ft : Vector Word 256) : Inv { invalidateTree s with ft := ft } := by
  obtain ⟨hp, herr, -, -, -, hmem, hres⟩ := h
  exact ⟨hp, herr, fun _ => ⟨rfl, rfl, rfl, rfl⟩, nofun, nofun, hmem, hres⟩

/-- BUILD's writes make the tree that of the present table, whose sum fits (R25, R101). -/
theorem Inv.installTree {s : State} (h : Inv s) (hsum : ftSum s.ft ≤ 2 ^ 32 - 1) :
    Inv (installTree (buildTree s.ft) s) := by
  obtain ⟨hp, herr, -, -, -, hmem, hres⟩ := h
  exact ⟨hp, herr, nofun, fun _ => ⟨hsum, rfl, rfl, rfl, rfl⟩, nofun, hmem, hres⟩

/-- MKTAB's writes make the code table that of the present tree (R25, R121). -/
theorem Inv.installTable {s : State} (h : Inv s) (htreeValid : s.treeValid = true) {ct : Vector CodeRec 256}
    (hct : codeTable s.node s.root s.rootValid = .ok ct) : Inv { s with ct := ct, ctValid := true } := by
  obtain ⟨hp, herr, -, htree, -, hmem, hres⟩ := h
  exact ⟨hp, herr, fun hv => Bool.noConfusion (htreeValid.symm.trans hv), htree, fun _ => hct, hmem, hres⟩

theorem errCode_ne_zero (e : Err) : errCode e ≠ 0#4 := by cases e <;> decide

theorem errCode_toNat_le (e : Err) : (errCode e).toNat ≤ 5 := by cases e <;> decide

/-- Taking an error keeps the invariant; the count of bits consumed that DECODE leaves must be within the capacity (R186). -/
theorem Inv.raiseError {s : State} (h : Inv s) {c : Raiser} (hc : ∀ q, c = .decode q → q ≤ s.params.maxBits) (e : Err)
    (pos : Nat) (sym : Byte) : Inv (raiseError c e pos sym s) := by
  obtain ⟨hp, -, hnoTree, htree, htable, hmem, hres⟩ := h
  have herr : Inv { s with err := errCode e, errpos := BitVec.ofNat 32 pos, errsym := sym } :=
    ⟨hp, ⟨errCode_toNat_le e, fun h0 => absurd h0 (errCode_ne_zero e)⟩, hnoTree, htree, htable, hmem, hres⟩
  cases c with
  | dispatch | count | build | mktab | encode => exact herr
  | decode q =>
    obtain ⟨hp, herr, hnoTree, htree, htable, hmem, -⟩ := herr
    exact ⟨hp, herr, hnoTree, htree, htable, hmem, Nat.zero_le _, Nat.le_trans (Nat.mod_le _ _) (hc q rfl)⟩

theorem Inv.raiseError_decode_zero {s : State} (h : Inv s) (e : Err) (pos : Nat) (sym : Byte) :
    Inv (Machine.raiseError (.decode 0) e pos sym s) := by
  refine h.raiseError (fun q hq => ?_) e pos sym
  cases hq
  exact Nat.zero_le _

/-- CLR leaves no error, no valid tree and zero results (R162). -/
theorem Inv.clearState {s : State} (h : Inv s) : Inv (clearState s) := by
  obtain ⟨hp, -, -, -, -, hmem, -⟩ := h
  exact ⟨hp, ⟨Nat.zero_le _, fun _ => ⟨rfl, rfl⟩⟩, fun _ => ⟨rfl, rfl, rfl, rfl⟩, nofun, nofun, hmem, Nat.zero_le _,
    Nat.zero_le _⟩

/-- After a reset the invariant holds whatever the state was, when the parameters are in range (R48, R200). -/
theorem inv_resetEvent {s : State} (hp : s.params.wf = true) : Inv (resetEvent s) :=
  ⟨hp, ⟨Nat.zero_le _, fun _ => ⟨rfl, rfl⟩⟩, fun _ => ⟨rfl, rfl, rfl, rfl⟩, nofun, nofun,
    ⟨memoryOk_unwritten _ (by simp), memoryOk_unwritten _ (by simp), memoryOk_unwritten _ (by simp)⟩,
    Nat.zero_le _, Nat.zero_le _⟩

/-! ### ENCODE (R131 to R135) -/

theorem prependCode_eq_done {code bits : BitString} {e : EncodeEnd} (h : prependCode code e = .done bits) :
    ∃ rest, e = .done rest ∧ bits = code ++ rest := by
  cases e with
  | done rest => exact ⟨rest, rfl, (EncodeEnd.done.inj h).symm⟩
  | mismatch i b => cases h
  | overflow i b => cases h

/-- A loop that ends without an error has laid down no more bits than MAXBITS (R135). -/
theorem length_le_of_encodeFrom {ct : Vector CodeRec 256} {maxBits : Nat} {bytes : List Byte} {i pos : Nat} {bits : BitString}
    (h : encodeFrom ct maxBits bytes i pos = .done bits) (hpos : pos ≤ maxBits) : pos + bits.length ≤ maxBits := by
  induction bytes generalizing i pos bits with
  | nil =>
    cases h
    exact hpos
  | cons b bytes ih =>
    rw [encodeFrom] at h
    split at h
    · split at h
      · cases h
      · next hfit =>
        obtain ⟨rest, hrest, rfl⟩ := prependCode_eq_done h
        have hle := ih hrest (by omega)
        rw [List.length_append, codeBits_length]
        omega
    · cases h

theorem Inv.storeSequence {s : State} (h : Inv s) {bits : BitString} (hlen : bits.length ≤ s.params.maxBits) :
    Inv (storeSequence bits s) := by
  obtain ⟨hp, herr, hnoTree, htree, htable, ⟨hibuf, hbits, hobuf⟩, hres⟩ := h
  have hbytes : (packBits bits).length ≤ s.params.bitsBytes := by
    rw [packBits_length, Params.bitsBytes]
    omega
  exact ⟨hp, herr, hnoTree, htree, htable, ⟨hibuf, hbits.memWriteList hbytes, hobuf⟩, hres⟩

theorem Inv.forgetBits {s : State} (h : Inv s) : Inv (forgetBits s) := by
  obtain ⟨hp, herr, hnoTree, htree, htable, ⟨hibuf, -, hobuf⟩, hres⟩ := h
  have hle := Nat.le_succ s.fresh
  exact ⟨hp, herr, hnoTree, htree, htable,
    ⟨hibuf.mono hle, memoryOk_unwritten _ (Nat.lt_succ_self s.fresh), hobuf.mono hle⟩, hres⟩

theorem Inv.finishEncode {s : State} (h : Inv s) {e : EncodeEnd}
    (he : ∀ bits, e = .done bits → bits.length ≤ s.params.maxBits) : Inv (finishEncode s e) := by
  cases e with
  | done bits => exact h.storeSequence (he bits rfl)
  | mismatch i b => exact h.forgetBits.raiseError (by nofun) _ _ _
  | overflow i b => exact h.forgetBits.raiseError (by nofun) _ _ _

/-! ### DECODE (R141 to R152) -/

/-- What one bit can do: the walk goes on, with one byte more in the output or none; a 1 at a lone Leaf is no code (R144); or the
arena has an index that names nothing (R153). -/
theorem decodeBit_cases (node : Vector NodeRec 511) (root : NodeIdx) (w : Walker) (bit : Bool) :
    (∃ w', decodeBit node root w bit = .go w' ∧ w'.bpos = w.bpos + 1 ∧
      (w'.out = w.out ∨ ∃ y, w'.out = w.out ++ [y])) ∨
    decodeBit node root w bit = .halt (.corrupt w.out.length (w.bpos + 1)) ∨
    ∃ f, decodeBit node root w bit = .halt (.stuck f) := by
  unfold decodeBit
  split
  · exact .inr (.inr ⟨_, rfl⟩)
  · split
    · cases bit with
      | false => exact .inl ⟨_, rfl, rfl, .inr ⟨_, rfl⟩⟩
      | true => exact .inr (.inl rfl)
    · unfold moveBit
      split
      · exact .inr (.inr ⟨_, rfl⟩)
      · dsimp only
        split
        · exact .inr (.inr ⟨_, rfl⟩)
        · split
          · exact .inl ⟨_, rfl, rfl, .inr ⟨_, rfl⟩⟩
          · exact .inl ⟨_, rfl, rfl, .inl rfl⟩

/-- A walk's end in bounds: EXPLEN bytes of output, and no more bits consumed than there are (R142, R152). -/
def WalkEndsWithin (expLen bitCount : Nat) : DecodeEnd → Prop
  | .done out bpos => out.length = expLen ∧ bpos ≤ bitCount
  | .corrupt _ bpos => bpos ≤ bitCount
  | .stuck _ => True

theorem walkEndsWithin_decodeFrom {node : Vector NodeRec 511} {root : NodeIdx} {expLen bitCount : Nat} {bits : BitString}
    {w : Walker} (hout : w.out.length ≤ expLen) (hbits : w.bpos + bits.length ≤ bitCount) :
    WalkEndsWithin expLen bitCount (decodeFrom node root expLen bits w) := by
  induction bits generalizing w with
  | nil =>
    rw [decodeFrom]
    split
    · exact hbits
    · exact ⟨by omega, hbits⟩
  | cons bit rest ih =>
    rw [List.length_cons] at hbits
    rw [decodeFrom]
    split
    · next hmore =>
      rcases decodeBit_cases node root w bit with ⟨w', hgo, hbpos, hw'⟩ | hcorrupt | ⟨f, hstuck⟩
      · have hout' : w'.out.length ≤ expLen := by
          rcases hw' with h | ⟨y, h⟩
          · rwa [h]
          · rw [h, List.length_append, List.length_singleton]
            omega
        rw [hgo]
        exact ih hout' (by omega)
      · rw [hcorrupt]
        show w.bpos + 1 ≤ bitCount
        omega
      · rw [hstuck]
        trivial
    · exact ⟨by omega, by omega⟩

/-- Forgetting the output keeps OBUF in range when EXPLEN is within capacity (U5). -/
theorem Inv.forgetOutput {s : State} (h : Inv s) (hexp : s.explen.toNat ≤ s.params.maxLen) : Inv (forgetOutput s) := by
  obtain ⟨hp, herr, hnoTree, htree, htable, ⟨hibuf, hbits, hobuf⟩, hres⟩ := h
  have hle := Nat.le_succ s.fresh
  exact ⟨hp, herr, hnoTree, htree, htable,
    ⟨hibuf.mono hle, hbits.mono hle, (hobuf.memForgetBelow hexp s.fresh).mono hle⟩, hres⟩

/-- DECODE's results are within the capacities when its checks passed (R44, R152). -/
theorem Inv.storeOutput {s : State} (h : Inv s) (hexp : s.explen.toNat ≤ s.params.maxLen) {out : List Byte} {bpos : Nat}
    (hout : out.length = s.explen.toNat) (hbpos : bpos ≤ s.params.maxBits) : Inv (storeOutput out bpos s) := by
  obtain ⟨hp, herr, hnoTree, htree, htable, ⟨hibuf, hbits, hobuf⟩, -⟩ := h
  exact ⟨hp, herr, hnoTree, htree, htable, ⟨hibuf, hbits, hobuf.memWriteList (hout ▸ hexp)⟩, hexp,
    Nat.le_trans (Nat.mod_le _ _) hbpos⟩

theorem Inv.finishDecode {s t : State} (h : Inv s) (hexp : s.explen.toNat ≤ s.params.maxLen) {e : DecodeEnd}
    (he : WalkEndsWithin s.explen.toNat s.params.maxBits e) (ht : finishDecode s e = .next t) : Inv t := by
  cases e with
  | done out bpos =>
    cases ht
    obtain ⟨hout, hbpos⟩ := he
    exact h.storeOutput hexp hout hbpos
  | corrupt ocnt bpos =>
    cases ht
    refine (h.forgetOutput hexp).raiseError (fun q hq => ?_) _ _ _
    cases hq
    exact he
  | stuck f => cases ht

theorem Inv.runWalk {s t : State} (h : Inv s) (hexp : s.explen.toNat ≤ s.params.maxLen)
    (hblen : s.blen.toNat ≤ s.params.maxBits) (ht : runWalk s = .next t) : Inv t := by
  rcases runWalk_cases s with ⟨h0, hwalk⟩ | ⟨-, -, hwalk⟩ | ⟨-, -, hwalk⟩
  · cases hwalk.symm.trans ht
    exact h.storeOutput hexp h0.symm (Nat.zero_le _)
  · cases hwalk.symm.trans ht
    exact h.raiseError_decode_zero _ _ _
  · exact h.finishDecode hexp (walkEndsWithin_decodeFrom (Nat.zero_le _) (by simpa using hblen)) (hwalk.symm.trans ht)

/-! ### The commands (R160, R161) -/

/-- Every command that answers a next state keeps the invariant. -/
theorem Inv.exec {s t : State} (h : Inv s) {i : Instr} (ht : exec i s = .next t) : Inv t := by
  cases i with
  | count =>
    rcases execCount_cases ht with ⟨-, rfl⟩ | ⟨-, -, rfl⟩ | ⟨-, -, rfl⟩
    · exact h
    · exact h.raiseError (by nofun) _ _ _
    · exact h.invalidateTree _
  | build =>
    rcases execBuild_cases ht with ⟨-, rfl⟩ | ⟨-, -, rfl⟩ | ⟨-, hsum, rfl⟩
    · exact h
    · exact h.raiseError (by nofun) _ _ _
    · exact h.installTree hsum
  | mktab =>
    rcases execMktab_cases ht with ⟨-, rfl⟩ | ⟨-, -, rfl⟩ | ⟨-, htree, ct, hct, rfl⟩
    · exact h
    · exact h.raiseError (by nofun) _ _ _
    · exact h.installTable htree hct
  | encode =>
    rcases execEncode_cases ht with ⟨-, rfl⟩ | ⟨-, -, rfl⟩ | ⟨-, -, -, rfl⟩ | ⟨-, -, -, rfl⟩
    · exact h
    · exact h.raiseError (by nofun) _ _ _
    · exact h.raiseError (by nofun) _ _ _
    · refine h.finishEncode fun bits hdone => ?_
      have hle := length_le_of_encodeFrom hdone (Nat.zero_le _)
      omega
  | decode =>
    rcases execDecode_cases ht with ⟨-, hnext⟩ | ⟨-, -, hnext⟩ | ⟨-, -, -, hnext⟩ | ⟨-, -, hexp, hblen, hwalk⟩
    · cases hnext
      exact h
    · cases hnext
      exact h.raiseError_decode_zero _ _ _
    · cases hnext
      exact h.raiseError_decode_zero _ _ _
    · exact h.runWalk hexp hblen hwalk.symm
  | clr =>
    cases ht
    exact h.clearState

/-- The issue of a command word, legal or not (R76, R160). -/
theorem Inv.issueCommand {s t : State} (h : Inv s) {v : Nat} (ht : issueCommand s v = .next t) : Inv t := by
  rw [Machine.issueCommand] at ht
  cases hd : decodeCommand (commandWord v) with
  | ok i =>
    rw [hd] at ht
    exact (h.regWrite v .cmd).exec ht
  | error e =>
    cases e with
    | illegalWord w =>
      rw [hd, runDecoded] at ht
      rcases unlessPending_cases ht with ⟨-, hnext⟩ | ⟨-, hnext⟩
      · cases hnext
        exact h.regWrite v .cmd
      · cases hnext
        exact (h.regWrite v .cmd).raiseError (by nofun) _ _ _

/-! ### The host port (R60, R61) -/

/-- A host read changes the reply and the counter of free values alone (R59, R60). -/
theorem hostRead_eq (s : State) (n i : Nat) :
    ∃ reply fresh, s.fresh ≤ fresh ∧ hostRead s n i = { s with reply := reply, fresh := fresh } := by
  unfold hostRead
  split
  · exact ⟨_, _, Nat.le_refl _, rfl⟩
  · next sp _ =>
    split
    · cases sp with
      | reg | ft | ibuf | bits | obuf => exact ⟨_, _, Nat.le_refl _, rfl⟩
      | node =>
        simp only [readElement, readNodeElement]
        split
        · exact ⟨_, _, Nat.le_refl _, rfl⟩
        · exact ⟨_, _, Nat.le_succ _, rfl⟩
      | ct =>
        simp only [readElement, readCtElement]
        split
        · exact ⟨_, _, Nat.le_refl _, rfl⟩
        · exact ⟨_, _, Nat.le_succ _, rfl⟩
    · exact ⟨_, _, Nat.le_refl _, rfl⟩

theorem Inv.writeReg {s t : State} (h : Inv s) {v : Nat} {r : Reg} (ht : writeReg s v r = .next t) : Inv t := by
  cases r with
  | cmd => exact h.issueCommand ht
  | status | ilen | blen | explen | olen | nsym | root | bpos | errpos | errsym =>
    cases ht
    exact h.regWrite v _

/-- A host write to an element that exists: a count invalidates the tree, a byte stays in range (R31, R62). -/
theorem Inv.writeElement {s t : State} (h : Inv s) {sp : Space} {i v : Nat} (hi : i < elementCount s.params sp)
    (ht : writeElement s sp i v = .next t) : Inv t := by
  cases sp with
  | reg =>
    rw [Machine.writeElement] at ht
    split at ht
    · exact h.writeReg ht
    · cases ht
      exact h
  | ft =>
    cases ht
    exact h.invalidateTree _
  | ibuf =>
    cases ht
    obtain ⟨hp, herr, hnoTree, htree, htable, ⟨hibuf, hbits, hobuf⟩, hres⟩ := h
    exact ⟨hp, herr, hnoTree, htree, htable, ⟨hibuf.memWrite hi _, hbits, hobuf⟩, hres⟩
  | bits =>
    cases ht
    obtain ⟨hp, herr, hnoTree, htree, htable, ⟨hibuf, hbits, hobuf⟩, hres⟩ := h
    exact ⟨hp, herr, hnoTree, htree, htable, ⟨hibuf, hbits.memWrite hi _, hobuf⟩, hres⟩
  | obuf | node | ct =>
    cases ht
    exact h

theorem Inv.hostWrite {s t : State} (h : Inv s) {n i v : Nat} (ht : hostWrite s n i v = .next t) : Inv t := by
  rw [Machine.hostWrite] at ht
  split at ht
  · cases ht
    exact h
  · split at ht
    · next hi => exact h.writeElement hi ht
    · cases ht
      exact h

theorem Inv.perform {s t : State} (h : Inv s) {a : HostAction} (ht : perform s a = .next t) : Inv t := by
  cases a with
  | read n i =>
    cases ht
    obtain ⟨reply, fresh, hle, hread⟩ := hostRead_eq s n i
    exact hread.symm ▸ h.withReply reply hle
  | write n i v => exact h.hostWrite ht
  | reset =>
    cases ht
    exact inv_resetEvent h.params_wf

/-- Settles O54: taking an action from the host touches nothing the invariant speaks of, and each action keeps it. -/
theorem stepKeepsInv : Obligations.StepKeepsInv := by
  intro s t h ht
  have hp := h.params_wf
  cases hpending : s.pending with
  | nil =>
    cases (step_idle hp hpending).symm.trans ht
    exact h
  | cons a rest =>
    have hact : Inv (acceptAction s rest) := h
    exact hact.perform ((step_perform hp hpending).symm.trans ht)

end Sys2Proof
end

section
/-! PROOFS. The statements of 20_memory on the byte memories: a bit read and written (R55), and a packed bit string read back with
its padding (R56, R133). -/

namespace Sys2Proof

open Sys2Proof.Machine

/-! ### One bit of a byte memory (R55) -/

/-- A written bit reads as the value written, every other bit as before (R55). -/
theorem bitRead_bitWrite (m : Memory) (k j : Nat) (v : Bool) :
    bitRead (bitWrite m k v) j = if j = k then v else bitRead m j := by
  rw [bitRead, bitWrite, memRead_memWrite]
  by_cases hbyte : k / 8 = j / 8
  · have hbit : 7 - j % 8 = 7 - k % 8 ↔ j = k := by omega
    rw [if_pos hbyte, getLsbD_putBit _ _ (by omega) (by omega), hbyte]
    exact if_congr hbit rfl rfl
  · have hne : j ≠ k := fun h => hbyte (h ▸ rfl)
    rw [if_neg hbyte, if_neg hne, bitRead]

/-- Settles O16: a bit write changes one byte, and in it one position. -/
theorem bitReadAndBitWrite : Obligations.BitReadAndBitWrite :=
  ⟨fun m k => Nat.toNat_testBit (memRead m (k / 8)).toNat (7 - k % 8), bitRead_bitWrite, by decide, by decide⟩

/-! ### A packed bit string (R56, R133) -/

/-- Packed bytes written from index 0 stand there, and every byte past them is untouched (R133). -/
theorem memRead_memWriteList_packBits (m : Memory) (s : BitString) (j : Nat) :
    memRead (memWriteList m 0 (packBits s)) j = if j < (s.length + 7) / 8 then packByte s j else memRead m j := by
  rw [memRead_memWriteList, if_pos j.zero_le, Nat.sub_zero]
  by_cases hj : j < (s.length + 7) / 8
  · simp [packBits, hj]
  · rw [if_neg hj, List.getElem?_eq_none (by rw [packBits_length]; omega), Option.getD_none]

/-- The bits after the end of the string in its last byte are 0 (R56). -/
theorem bitRead_padding (m : Memory) {s : BitString} {k : Nat} (hlen : s.length ≤ k) (hk : k < 8 * ((s.length + 7) / 8)) :
    bitRead (memWriteList m 0 (packBits s)) k = false := by
  rw [bitRead, memRead_memWriteList_packBits, if_pos (by omega), getLsbD_packByte s (k / 8) (Nat.mod_lt k (by decide)),
    Nat.div_add_mod, List.getD_eq_default s false hlen]

/-- Settles O17: each packed byte stands at its index, and reads its bits from the string or 0 past its end. -/
theorem packedSequenceReadsBack : Obligations.PackedSequenceReadsBack := by
  intro m s
  refine ⟨fun _ => bitRead_memWriteList_packBits m, fun _ => bitRead_padding m, fun j hj => ?_⟩
  rw [memRead_memWriteList_packBits, if_neg (Nat.not_lt.2 hj)]

end Sys2Proof
end

section
/-! PROOFS. The statements of 20_memory on the host port: what a host read replies and leaves (R59, R60), and what a host write
stores, or not (R61, R62). -/

namespace Sys2Proof

open Sys2Proof.Machine

/-! ### Numbers of spaces and registers (R21, R50) -/

theorem eq_spaceNumber_of_spaceOfNumber {n : Nat} {sp : Space} (h : spaceOfNumber n = some sp) : n = spaceNumber sp := by
  unfold spaceOfNumber at h
  split at h <;> cases h <;> rfl

theorem spaceNumber_le (sp : Space) : spaceNumber sp ≤ 6 := by cases sp <;> decide

theorem eq_regNumber_of_regOfNumber {i : Nat} {r : Reg} (h : regOfNumber i = some r) : i = regNumber r := by
  unfold regOfNumber at h
  split at h <;> cases h <;> rfl

theorem regNumber_lt (r : Reg) : regNumber r < 11 := by cases r <;> decide

/-! ### Host read (R59, R60) -/

theorem step_read {s : State} {n i : Nat} {rest : List HostAction} (hp : s.params.wf = true)
    (hpending : s.pending = .read n i :: rest) : step s = .next (hostRead (acceptAction s rest) n i) :=
  step_perform hp hpending

theorem hostRead_element (s : State) {n i : Nat} {sp : Space} (hsp : spaceOfNumber n = some sp)
    (hi : i < elementCount s.params sp) : hostRead s n i = readElement s sp i := by
  rw [hostRead, hsp]
  exact if_pos hi

/-- An element that does not exist reads 0 (R60). -/
theorem hostRead_absent (s : State) {n i : Nat} (h : ∀ sp, spaceOfNumber n = some sp → elementCount s.params sp ≤ i) :
    hostRead s n i = { s with reply := some (.value 0) } := by
  unfold hostRead
  split
  · rfl
  · next sp hsp => exact if_neg (Nat.not_lt.2 (h sp hsp))

/-- A register that exists reads as `regRead` says (R21, R60). -/
theorem hostRead_reg (s : State) {i : Nat} {r : Reg} (hr : regOfNumber i = some r) :
    hostRead s 0 i = { s with reply := some (.value (regRead s r)) } := by
  have hi : i < 11 := eq_regNumber_of_regOfNumber hr ▸ regNumber_lt r
  rw [hostRead_element s (sp := .reg) rfl hi, readElement, readValue, hr]

theorem readNodeElement_of_valid (s : State) {i : Nat} (hv : s.treeValid = true) :
    readNodeElement s i = { s with reply := (nodeRead s.node i).map .node } :=
  if_pos hv

/-- While TREE_VALID = 0 the record is a free value not handed out before (R60, U3). -/
theorem readNodeElement_of_invalid (s : State) {i : Nat} (hv : s.treeValid = false) :
    readNodeElement s i =
      { s with reply := some (.node (NodeRec.ofBits (Config.freeNodeBits s.fresh i))), fresh := s.fresh + 1 } :=
  if_neg (Bool.eq_false_iff.1 hv)

theorem readCtElement_of_valid (s : State) {i : Nat} (hv : s.ctValid = true) :
    readCtElement s i = { s with reply := some (.code (ctRead s.ct (BitVec.ofNat 8 i))) } :=
  if_pos hv

/-- While CT_VALID = 0 the record is a free value not handed out before (R60, U3). -/
theorem readCtElement_of_invalid (s : State) {i : Nat} (hv : s.ctValid = false) :
    readCtElement s i =
      { s with reply := some (.code (CodeRec.ofBits (Config.freeCodeBits s.fresh i))), fresh := s.fresh + 1 } :=
  if_neg (Bool.eq_false_iff.1 hv)

@[simp] theorem regRead_acceptAction (s : State) (rest : List HostAction) (r : Reg) :
    regRead (acceptAction s rest) r = regRead s r := by
  cases r <;> rfl

/-- Settles O10: one clause per space, and within NODE and CT one per value of the validity flag. -/
theorem hostReadReplies : Obligations.HostReadReplies := by
  intro s n i rest hp hpending
  have habsent (h : ∀ sp, spaceOfNumber n = some sp → elementCount s.params sp ≤ i) :
      (hostRead (acceptAction s rest) n i).reply = some (.value 0#32) := by
    rw [hostRead_absent (acceptAction s rest) h]
    rfl
  have hexists (sp : Space) (hsp : spaceOfNumber n = some sp) (hi : i < elementCount s.params sp) :
      hostRead (acceptAction s rest) n i = readElement (acceptAction s rest) sp i :=
    hostRead_element (acceptAction s rest) hsp hi
  refine ⟨_, step_read hp hpending, fun hn => ?_, fun sp hsp hi => ?_, ?_, ?_, ?_, ?_, ?_, ?_, ?_, ?_, ?_⟩
  · refine habsent fun sp hsp => ?_
    have hle : n ≤ 6 := eq_spaceNumber_of_spaceOfNumber hsp ▸ spaceNumber_le sp
    omega
  · exact habsent fun sp' hsp' => Option.some.inj (hsp.symm.trans hsp') ▸ hi
  · rintro rfl r hr
    rw [hostRead_reg _ hr, regRead_acceptAction]
  · rintro rfl hi
    exact congrArg State.reply (hexists .ft rfl hi)
  · rintro rfl hi
    exact congrArg State.reply (hexists .ibuf rfl hi)
  · rintro rfl hi
    exact congrArg State.reply (hexists .bits rfl hi)
  · rintro rfl hi
    exact congrArg State.reply (hexists .obuf rfl hi)
  · rintro rfl hi hv
    exact congrArg State.reply ((hexists .node rfl hi).trans (readNodeElement_of_valid _ hv))
  · rintro rfl hi hv
    have hread := (hexists .node rfl hi).trans (readNodeElement_of_invalid _ hv)
    exact ⟨congrArg State.reply hread, congrArg State.fresh hread⟩
  · rintro rfl hi hv
    exact congrArg State.reply ((hexists .ct rfl hi).trans (readCtElement_of_valid _ hv))
  · rintro rfl hi hv
    have hread := (hexists .ct rfl hi).trans (readCtElement_of_invalid _ hv)
    exact ⟨congrArg State.reply hread, congrArg State.fresh hread⟩

/-- Settles O11: a host read changes the reply and the counter of free values, neither of them state of the block. -/
theorem hostReadHasNoSideEffect : Obligations.HostReadHasNoSideEffect := by
  intro s n i rest hp hpending
  obtain ⟨reply, fresh, -, hread⟩ := hostRead_eq (acceptAction s rest) n i
  exact ⟨_, (step_read hp hpending).trans (congrArg Host.Outcome.next hread), rfl, rfl⟩

/-! ### Host write (R61, R62) -/

theorem step_write {s : State} {n i v : Nat} {rest : List HostAction} (hp : s.params.wf = true)
    (hpending : s.pending = .write n i v :: rest) : step s = hostWrite (acceptAction s rest) n i v :=
  step_perform hp hpending

theorem step_write_element {s : State} {n i v : Nat} {rest : List HostAction} {sp : Space} (hp : s.params.wf = true)
    (hpending : s.pending = .write n i v :: rest) (hsp : spaceOfNumber n = some sp) (hi : i < elementCount s.params sp) :
    step s = writeElement (acceptAction s rest) sp i v :=
  (step_write hp hpending).trans (hostWrite_element hsp hi)

/-- Settles O13: each of the five writes is one store, and nothing is checked or invalidated. -/
theorem hostWriteStoresBytesAndLengths : Obligations.HostWriteStoresBytesAndLengths := by
  intro s i v rest hp
  refine ⟨fun hi hpending => ?_, fun hi hpending => ?_, fun hpending => ?_, fun hpending => ?_, fun hpending => ?_⟩
  · exact ⟨_, step_write_element (sp := .ibuf) hp hpending rfl hi, rfl, rfl, fun j => memRead_memWrite s.ibuf i j _⟩
  · exact ⟨_, step_write_element (sp := .bits) hp hpending rfl hi, rfl, rfl, fun j => memRead_memWrite s.bits i j _⟩
  all_goals exact ⟨_, step_write_element (sp := .reg) hp hpending rfl (show _ < 11 by decide), rfl, rfl⟩

/-- A host write changes nothing unless the element exists and a write to it does (R61). -/
theorem hostWrite_eq_self {s : State} {n i v : Nat}
    (h : ∀ sp, spaceOfNumber n = some sp → i < elementCount s.params sp → writeElement s sp i v = .next s) :
    hostWrite s n i v = .next s := by
  unfold hostWrite
  split
  · rfl
  · next sp hsp =>
    split
    · next hi => exact h sp hsp hi
    · rfl

/-- Only CMD, ILEN, BLEN and EXPLEN are written by the host; at any other index of REG a write changes nothing (R21, R61). -/
theorem writeElement_reg_readOnly (s : State) {i : Nat} (v : Nat) (hi : i ≠ 0 ∧ i ≠ 2 ∧ i ≠ 3 ∧ i ≠ 4) :
    writeElement s .reg i v = .next s := by
  rw [writeElement]
  split
  · next r hr =>
    obtain rfl := eq_regNumber_of_regOfNumber hr
    cases r with
    | cmd | ilen | blen | explen => simp [regNumber] at hi
    | status | olen | nsym | root | bpos | errpos | errsym => rfl
  · rfl

/-- Settles O14: in the spaces the host may write no such element exists, and the others are read-only. -/
theorem hostWriteElsewhereChangesNothing : Obligations.HostWriteElsewhereChangesNothing := by
  intro s n i v rest hp hpending htarget
  refine (step_write hp hpending).trans (hostWrite_eq_self fun sp hsp hi => ?_)
  obtain rfl := eq_spaceNumber_of_spaceOfNumber hsp
  cases sp with
  | reg =>
    simp only [spaceNumber] at htarget
    exact writeElement_reg_readOnly _ v (by omega)
  | ft | ibuf | bits =>
    simp only [spaceNumber, elementCount, acceptAction_params] at htarget hi
    omega
  | obuf | node | ct => rfl

end Sys2Proof
end

section
/-! PROOFS. The statements of 30_encoding on the command word: the decoder inverts the encoder (R72, R73), and what a write to CMD
of an illegal word, or of any word while an error is pending, does (R76, R77). -/

namespace Sys2Proof

open Sys2Proof.Machine

/-! ### The opcode map (R72, R73) -/

theorem findRow_eq_find? (w : Byte) (rows : List OpRow) : findRow w rows = rows.find? (rowMatches w) := by
  induction rows with
  | nil => rfl
  | cons row rows ih =>
    rw [findRow, List.find?_cons, ih]
    cases rowMatches w row <;> rfl

/-- Each row of the map matches one word, the code of its command (R72). -/
theorem rowMatches_iff {row : OpRow} (h : row ∈ opcodeMap) {w : Byte} :
    rowMatches w row = true ↔ encodeCommand row.instr = w := by
  have hrows : ∀ row ∈ opcodeMap, row.mask = BitVec.allOnes 8 ∧ row.code = encodeCommand row.instr := by decide
  obtain ⟨hmask, hcode⟩ := hrows row h
  rw [rowMatches, hmask, hcode, BitVec.and_allOnes, beq_iff_eq, eq_comm]

/-- A command is decoded from its own code and from no other word (R73). -/
theorem decodeCommand_eq_ok_iff {w : Byte} {i : Instr} : decodeCommand w = .ok i ↔ encodeCommand i = w := by
  constructor
  · intro h
    rw [decodeCommand, findRow_eq_find?] at h
    split at h
    · next row hrow =>
      cases h
      exact (rowMatches_iff (List.mem_of_find?_eq_some hrow)).1 (List.find?_some hrow)
    · cases h
  · rintro rfl
    cases i with
    | count => exact decode_count
    | build => exact decode_build
    | mktab => exact decode_mktab
    | encode => exact decode_encode_word
    | decode => exact decode_decode_word
    | clr => exact decode_clr

/-- A word is a command or is rejected by name; there is no third answer (R73). -/
theorem decodeCommand_cases (w : Byte) : (∃ i, decodeCommand w = .ok i) ∨ decodeCommand w = .error (.illegalWord w) := by
  unfold decodeCommand
  split
  · exact .inl ⟨_, rfl⟩
  · exact .inr rfl

/-- The codes are 0x01 to 0x06 (R72). -/
theorem exists_encodeCommand_eq_iff {w : Byte} : (∃ i, encodeCommand i = w) ↔ ¬(w = 0#8 ∨ 7#8 ≤ w) := by
  constructor
  · rintro ⟨i, rfl⟩
    cases i <;> decide
  · intro h
    have hw : w = 1#8 ∨ w = 2#8 ∨ w = 3#8 ∨ w = 4#8 ∨ w = 5#8 ∨ w = 6#8 := by bv_omega
    rcases hw with rfl | rfl | rfl | rfl | rfl | rfl
    exacts [⟨.count, rfl⟩, ⟨.build, rfl⟩, ⟨.mktab, rfl⟩, ⟨.encode, rfl⟩, ⟨.decode, rfl⟩, ⟨.clr, rfl⟩]

/-- The illegal words are 0x00 and 0x07 to 0xFF (R76). -/
theorem decodeCommand_eq_illegalWord_iff {w : Byte} :
    decodeCommand w = .error (.illegalWord w) ↔ w = 0#8 ∨ 7#8 ≤ w := by
  rw [← not_iff_not, ← exists_encodeCommand_eq_iff]
  constructor
  · intro h
    obtain ⟨i, hi⟩ := (decodeCommand_cases w).resolve_right h
    exact ⟨i, decodeCommand_eq_ok_iff.1 hi⟩
  · rintro ⟨i, hi⟩
    rw [decodeCommand_eq_ok_iff.2 hi]
    nofun

/-- Settles O2: a row of the map matches exactly its command's code, and the codes are the words 1 to 6. -/
theorem decoderIsTotalAndExact : Obligations.DecoderIsTotalAndExact :=
  fun _ => ⟨fun _ => decodeCommand_eq_ok_iff, decodeCommand_eq_illegalWord_iff⟩

/-- Settles O1: each word is its row's code, and the three others lie outside the codes. -/
theorem opcodeWordsDecode : Obligations.OpcodeWordsDecode :=
  ⟨decode_count, decode_build, decode_mktab, decode_encode_word, decode_decode_word, decode_clr,
    decodeCommand_eq_illegalWord_iff.2 (by decide), decodeCommand_eq_illegalWord_iff.2 (by decide),
    decodeCommand_eq_illegalWord_iff.2 (by decide)⟩

/-! ### A write to CMD (R76, R77, R160) -/

@[simp] theorem commandWord_toNat (v : Nat) : (commandWord v).toNat = v % 256 := BitVec.toNat_ofNat v 8

theorem step_write_cmd {s : State} {v : Nat} {rest : List HostAction} (hp : s.params.wf = true)
    (hpending : s.pending = .write 0 0 v :: rest) : step s = issueCommand (acceptAction s rest) v :=
  step_write_element (sp := .reg) hp hpending rfl (show 0 < 11 by decide)

/-- An illegal word is stored in CMD, then raises IllegalCommand unless an error is pending (R76, R77). -/
theorem issueCommand_illegal {s : State} {v : Nat} (h : decodeCommand (commandWord v) = .error (.illegalWord (commandWord v))) :
    issueCommand s v =
      unlessPending (regWrite s v .cmd) fun s => .next (raiseError .dispatch .illegalCommand 0 0 s) := by
  rw [issueCommand, h, runDecoded]

/-- Every command but CLR is ignored while an error is pending (R161). -/
theorem exec_of_pending {s : State} {i : Instr} (he : s.err ≠ 0#4) (hi : i ≠ .clr) : exec i s = .next s := by
  cases i with
  | count | build | mktab | encode | decode =>
    simp only [exec, execCount, execBuild, execMktab, execEncode, execDecode, unlessPending_of_pending he]
  | clr => exact absurd rfl hi

/-- While an error is pending a word that is not CLR's is stored in CMD and nothing else happens (R77). -/
theorem issueCommand_of_pending {s : State} {v : Nat} (he : s.err ≠ 0#4) (hv : v % 256 ≠ 6) :
    issueCommand s v = .next (regWrite s v .cmd) := by
  rcases decodeCommand_cases (commandWord v) with ⟨i, hi⟩ | hillegal
  · have hclr : i ≠ .clr := by
      rintro rfl
      have hword := congrArg BitVec.toNat (decodeCommand_eq_ok_iff.1 hi)
      exact hv (by simpa [encodeCommand] using hword.symm)
    rw [issueCommand_ok hi]
    exact exec_of_pending he hclr
  · rw [issueCommand_illegal hillegal]
    exact unlessPending_of_pending he

/-- Settles O5: the decoder rejects the word, and with no error pending the rejection is the error. -/
theorem illegalWordRaises : Obligations.IllegalWordRaises := by
  intro s v rest hp hpending he hv
  have hillegal : decodeCommand (commandWord v) = .error (.illegalWord (commandWord v)) := by
    rw [decodeCommand_eq_illegalWord_iff, ← BitVec.toNat_inj, BitVec.le_def, commandWord_toNat]
    exact hv
  exact ⟨_, (step_write_cmd hp hpending).trans ((issueCommand_illegal hillegal).trans (unlessPending_of_clear he)), rfl, rfl⟩

/-- Settles O6: the word is stored, and neither a command but CLR nor an illegal word does more. -/
theorem pendingErrorIgnoresCommands : Obligations.PendingErrorIgnoresCommands := by
  refine ⟨fun s v rest hp hpending he hv => ?_, fun s i => exec_of_pending⟩
  exact ⟨_, (step_write_cmd hp hpending).trans (issueCommand_of_pending he hv), rfl, rfl⟩

end Sys2Proof
end

section
/-! PROOFS. The load pseudo-commands of 30_encoding: LOADIN and LOADBITS as a run of byte stores and a length, LOADFT as a run of
count stores (R81). -/

namespace Sys2Proof

open Sys2Proof.Machine

/-! ### A run of host actions (R80) -/

theorem runActions_cons {s t : State} {a : HostAction} {rest : List HostAction}
    (h : perform (acceptAction s rest) a = .next t) : runActions s (a :: rest) = runActions t rest := by
  rw [runActions, h]

theorem perform_actionST {s : State} {sp : Space} {i : Nat} (v : Nat) (hi : i < elementCount s.params sp) :
    perform s (actionST sp i v) = writeElement s sp i v :=
  hostWrite_element (spaceOfNumber_spaceNumber sp) hi

theorem perform_actionWR (s : State) (r : Reg) (v : Nat) : perform s (actionWR r v) = writeReg s v r := by
  have hr : regNumber r < elementCount s.params .reg := regNumber_lt r
  calc perform s (actionWR r v) = writeElement s .reg (regNumber r) v := hostWrite_element (n := 0) rfl hr
    _ = writeReg s v r := by rw [writeElement, regOfNumber_regNumber]

/-! ### A run of byte stores -/

/-- The two byte memories the host may write (R50). -/
def HostWritesBytes (sp : Space) : Prop := sp = .ibuf ∨ sp = .bits

/-- The state with bytes stored from index `i` up in the memory of a space; no other space is a byte memory the host may write. -/
def storeBytes (s : State) (sp : Space) (i : Nat) (bytes : List Byte) : State :=
  match sp with
  | .ibuf => { s with ibuf := memWriteList s.ibuf i bytes }
  | .bits => { s with bits := memWriteList s.bits i bytes }
  | .reg | .ft | .obuf | .node | .ct => s

@[simp] theorem storeBytes_params (s : State) (sp : Space) (i : Nat) (bytes : List Byte) :
    (storeBytes s sp i bytes).params = s.params := by
  cases sp <;> rfl

/-- The state with another account of the host (R27). -/
def withAccount (s : State) (pending : List HostAction) (hostIndex : Nat) (reply : Option Reply) : State :=
  { s with pending := pending, hostIndex := hostIndex, reply := reply }

theorem perform_actionST_byte {s : State} {sp : Space} {i : Nat} (hsp : HostWritesBytes sp) (b : Byte)
    (hi : i < elementCount s.params sp) : perform s (actionST sp i b.toNat) = .next (storeBytes s sp i [b]) := by
  rw [perform_actionST _ hi]
  rcases hsp with rfl | rfl <;> simp [writeElement, storeBytes, memWriteList]

/-- A run of byte stores, with further actions after it, leaves the bytes stored and the rest of the block as it was (R81). -/
theorem runActions_actionsSTBytes {s : State} {sp : Space} {i : Nat} {bytes : List Byte} (hsp : HostWritesBytes sp)
    (hfit : i + bytes.length ≤ elementCount s.params sp) (tail : List HostAction) :
    ∃ pending hostIndex reply, runActions s (actionsSTBytes sp i bytes ++ tail) =
      runActions (withAccount (storeBytes s sp i bytes) pending hostIndex reply) tail := by
  induction bytes generalizing s i with
  | nil =>
    refine ⟨s.pending, s.hostIndex, s.reply, ?_⟩
    rcases hsp with rfl | rfl <;> rfl
  | cons b bs ih =>
    rw [List.length_cons] at hfit
    have hi : i < elementCount s.params sp := by omega
    have hrest : i + 1 + bs.length ≤ elementCount s.params sp := by omega
    obtain ⟨pending, hostIndex, reply, hrun⟩ :=
      ih (s := storeBytes (acceptAction s (actionsSTBytes sp (i + 1) bs ++ tail)) sp i [b]) (by rwa [storeBytes_params])
    refine ⟨pending, hostIndex, reply, (runActions_cons (perform_actionST_byte hsp b hi)).trans (hrun.trans ?_)⟩
    rcases hsp with rfl | rfl <;> rfl

/-- LOADIN leaves the bytes at the start of IBUF and their number in ILEN (R81). -/
theorem runActions_loadin {s : State} {bytes : List Byte} (hfit : bytes.length ≤ s.params.maxLen) :
    ∃ pending hostIndex reply, runActions s (expandPseudo (.loadin bytes)) =
      .next (withAccount (regWrite (storeBytes s .ibuf 0 bytes) bytes.length .ilen) pending hostIndex reply) := by
  have hbytes : 0 + bytes.length ≤ elementCount s.params .ibuf := by simpa [elementCount] using hfit
  obtain ⟨pending, hostIndex, reply, hrun⟩ := runActions_actionsSTBytes (.inl rfl) hbytes
    [actionWR .ilen bytes.length]
  exact ⟨_, _, _, hrun.trans (runActions_cons (perform_actionWR _ .ilen _))⟩

/-- LOADBITS leaves in BITS and BLEN what ENCODE leaves for the same bit string (R81, R133). -/
theorem runActions_loadbits {s : State} {bits : BitString} (hfit : bits.length ≤ s.params.maxBits) :
    ∃ pending hostIndex reply, runActions s (expandPseudo (.loadbits bits)) =
      .next (withAccount (storeSequence bits s) pending hostIndex reply) := by
  have hbytes : 0 + (packBits bits).length ≤ elementCount s.params .bits := by
    simp only [packBits_length, elementCount, Params.bitsBytes]
    omega
  obtain ⟨pending, hostIndex, reply, hrun⟩ := runActions_actionsSTBytes (.inr rfl) hbytes [actionWR .blen bits.length]
  exact ⟨_, _, _, hrun.trans (runActions_cons (perform_actionWR _ .blen _))⟩

/-- Bytes stored from index 0, with their number in ILEN, are the input (R22, R42). -/
theorem inputBytes_of_stored {s : State} {m : Memory} {bytes : List Byte} (hlen : s.ilen.toNat = bytes.length)
    (hbuf : s.ibuf = memWriteList m 0 bytes) : inputBytes s = bytes := by
  apply List.ext_getElem
  · rw [inputBytes_length, hlen]
  · intro k hk hk'
    simp [inputBytes, hbuf, memRead_memWriteList, hk']

/-! ### A run of count stores -/

/-- The table with each listed count written, first to last (R81). -/
def writeCounts (ft : Vector Word 256) (entries : List (Byte × Word)) : Vector Word 256 :=
  entries.foldl (fun ft e => ftWrite ft e.1 e.2) ft

/-- Of several counts listed for one byte the last stays. -/
theorem ftRead_writeCounts (ft : Vector Word 256) (entries : List (Byte × Word)) (b : Byte) :
    ftRead (writeCounts ft entries) b =
      ((entries.reverse.find? fun e => e.1 == b).map Prod.snd).getD (ftRead ft b) := by
  induction entries using List.reverseRecOn with
  | nil => rfl
  | append_singleton entries e ih =>
    rw [writeCounts, List.foldl_concat, ftRead_ftWrite, List.reverse_concat, List.find?_cons]
    by_cases he : e.1 = b
    · simp [he]
    · rw [if_neg he, beq_eq_false_iff_ne.2 he]
      exact ih

theorem perform_actionST_count (s : State) (b : Byte) (w : Word) :
    perform s (actionST .ft b.toNat w.toNat) = .next { invalidateTree s with ft := ftWrite s.ft b w } := by
  rw [perform_actionST _ (show b.toNat < 256 from b.isLt)]
  simp [writeElement, writeFt]

theorem runActions_loadft (s : State) (entries : List (Byte × Word)) :
    ∃ t, runActions s (expandPseudo (.loadft entries)) = .next t ∧ t.ft = writeCounts s.ft entries := by
  induction entries generalizing s with
  | nil => exact ⟨s, rfl, rfl⟩
  | cons e es ih =>
    obtain ⟨t, hrun, hft⟩ := ih _
    exact ⟨t, (runActions_cons (perform_actionST_count _ e.1 e.2)).trans hrun, hft⟩

/-! ### The pseudo-commands (R81) -/

theorem Params.maxLen_lt_of_wf {p : Params} (h : p.wf = true) : p.maxLen < 2 ^ 32 := by
  simp only [Params.wf, Bool.and_eq_true, decide_eq_true_eq] at h
  obtain ⟨⟨⟨-, hmaxLen⟩, -⟩, -⟩ := h
  exact hmaxLen

/-- Settles O59: each pseudo-command is a run of stores to one space, and the last store to an index is the one read back. -/
theorem loadPseudoCommandsLoad : Obligations.LoadPseudoCommandsLoad := by
  refine ⟨fun s bytes hp hfit => ?_, fun s bits hp hfit => ?_, fun s entries => ?_⟩
  · obtain ⟨pending, hostIndex, reply, hrun⟩ := runActions_loadin hfit
    have hlen : (BitVec.ofNat 32 bytes.length).toNat = bytes.length :=
      Nat.mod_eq_of_lt (hfit.trans_lt (Params.maxLen_lt_of_wf hp))
    exact ⟨_, hrun, inputBytes_of_stored hlen rfl, hlen, rfl, rfl, rfl, rfl⟩
  · obtain ⟨pending, hostIndex, reply, hrun⟩ := runActions_loadbits hfit
    have hlt : bits.length < 2 ^ 32 := hfit.trans_lt (Params.maxBits_lt_of_wf hp)
    exact ⟨_, hrun, bitSequence_storeSequence s hlt, Nat.mod_eq_of_lt hlt, rfl, rfl, rfl, rfl⟩
  · obtain ⟨t, hrun, hft⟩ := runActions_loadft s entries
    exact ⟨t, hrun, fun b => by rw [hft, ftRead_writeCounts]⟩

end Sys2Proof
end

section
/-! PROOFS. The statements of 40_count on the results of COUNT: the table of the input (R91), what it depends on (R90, R92, R94),
and a command issued twice (R92, R111, R127). -/

namespace Sys2Proof

open Sys2Proof.Machine

/-! ### COUNT: the table is a function of the input (R90, R91, R94) -/

/-- A byte occurs in the input as often as an index below ILEN holds it (R22, R91). -/
theorem count_inputBytes (s : State) (b : Byte) :
    (inputBytes s).count b = (List.range s.ilen.toNat).countP fun i => memRead s.ibuf i == b := by
  rw [inputBytes, List.count, List.countP_map]
  rfl

/-- Settles O18: COUNT's check passes, and each entry counts the occurrences of its byte in the input. -/
theorem countTabulatesInput : Obligations.CountTabulatesInput :=
  fun s he hlen => ⟨(counted s).ft, exec_count_of_fits he hlen, fun b => (ftRead_counted s b).trans (count_inputBytes s b)⟩

/-- The input is given by ILEN and the bytes of IBUF below it (R22). -/
theorem inputBytes_eq_of_agree {s t : State} (hilen : s.ilen = t.ilen)
    (hibuf : ∀ i, i < s.ilen.toNat → memRead s.ibuf i = memRead t.ibuf i) : inputBytes s = inputBytes t := by
  rw [inputBytes, inputBytes, ← hilen]
  exact List.map_congr_left fun i hi => hibuf i (List.mem_range.1 hi)

/-- Settles O20: the two states have the same input, and COUNT's table is that of the input. -/
theorem countDependsOnInputOnly : Obligations.CountDependsOnInputOnly := by
  intro s t hs ht hilen hslen htlen hibuf
  refine ⟨counted s, counted t, exec_count_of_fits hs hslen, exec_count_of_fits ht htlen, ?_⟩
  exact congrArg countBytes (inputBytes_eq_of_agree hilen hibuf)

/-! ### A command issued twice (R92, R111, R127) -/

/-- A command that raised an error is ignored when it is issued again (R161, R186). -/
theorem exec_raiseError {i : Instr} (hi : i ≠ .clr) (c : Raiser) (e : Err) (pos : Nat) (sym : Byte) (s : State) :
    exec i (raiseError c e pos sym s) = .next (raiseError c e pos sym s) :=
  exec_of_pending (by rw [raiseError_err]; exact errCode_ne_zero e) hi

/-- COUNT leaves its operands, and its writes do not depend on what they overwrite (R90, R92). -/
theorem counted_counted (s : State) : counted (counted s) = counted s := rfl

/-- The tree that BUILD installs is a function of FT, which it leaves (R108, R111). -/
theorem installTree_installTree (t : TreeResult) (s : State) : installTree t (installTree t s) = installTree t s := rfl

theorem clearState_clearState (s : State) : clearState (clearState s) = clearState s := rfl

theorem exec_count_again {s t : State} (h : exec .count s = .next t) : exec .count t = .next t := by
  rcases execCount_cases h with ⟨-, rfl⟩ | ⟨-, -, rfl⟩ | ⟨he, hlen, rfl⟩
  · exact h
  · exact exec_raiseError (by decide) _ _ _ _ _
  · exact (exec_count_of_fits (s := counted s) he hlen).trans (congrArg _ (counted_counted s))

theorem exec_build_again {s t : State} (h : exec .build s = .next t) : exec .build t = .next t := by
  rcases execBuild_cases h with ⟨-, rfl⟩ | ⟨-, -, rfl⟩ | ⟨he, hsum, rfl⟩
  · exact h
  · exact exec_raiseError (by decide) _ _ _ _ _
  · exact (exec_build_of_fits (s := installTree (buildTree s.ft) s) he (by rw [installTree_ft]; omega)).trans
      (congrArg _ (installTree_installTree _ s))

/-- MKTAB leaves NODE, ROOT and ROOT_VALID, on which alone its table depends (R120, R127). -/
theorem exec_mktab_again {s t : State} (h : exec .mktab s = .next t) : exec .mktab t = .next t := by
  rcases execMktab_cases h with ⟨-, rfl⟩ | ⟨-, -, rfl⟩ | ⟨he, htree, ct, hct, rfl⟩
  · exact h
  · exact exec_raiseError (by decide) _ _ _ _ _
  · exact exec_mktab_of_codeTable (s := { s with ct := ct, ctValid := true }) he htree hct

theorem exec_clr_again {s t : State} (h : exec .clr s = .next t) : exec .clr t = .next t := by
  obtain rfl : clearState s = t := by injection h
  exact congrArg Host.Outcome.next (clearState_clearState s)

/-- Settles O51: each of the four commands leaves what it reads, or an error that makes the second issue do nothing. -/
theorem repeatedCommandsAgree : Obligations.RepeatedCommandsAgree := by
  rintro i s t (rfl | rfl | rfl | rfl) h
  · exact exec_count_again h
  · exact exec_build_again h
  · exact exec_mktab_again h
  · exact exec_clr_again h

end Sys2Proof
end

section
/-! PROOFS. The statements of 41_build on the priority structure: the order (R102) and ExtractMin (R103); and one merge, of the
arena and of trees, as the two first members taken (R105). -/

namespace Sys2Proof

open Sys2Proof.Machine

/-! ### The priority order (R102) -/

theorem precedes_iff {a b : NodeRec} : precedes a b = true ↔
    a.weight.toNat < b.weight.toNat ∨ (a.weight.toNat = b.weight.toNat ∧ a.minsym.toNat < b.minsym.toNat) := by
  rw [precedes, Bool.or_eq_true, Bool.and_eq_true, decide_eq_true_iff, decide_eq_true_iff, beq_iff_eq, BitVec.lt_def,
    BitVec.lt_def, BitVec.toNat_inj]

/-- What the priority order compares in the record at index `i`: the weight, then minsym (R102). -/
def keyAt (node : Vector NodeRec 511) (i : Nat) : ℕ ×ₗ ℕ :=
  toLex ((nodeAt node i).weight.toNat, (nodeAt node i).minsym.toNat)

theorem precedes_nodeAt_iff {node : Vector NodeRec 511} {i j : Nat} :
    precedes (nodeAt node i) (nodeAt node j) = true ↔ keyAt node i < keyAt node j := by
  rw [precedes_iff, keyAt, keyAt, Prod.Lex.toLex_lt_toLex]

/-- What the priority order compares in a tree (R102). -/
def HuffNode.key (t : HuffNode) : ℕ ×ₗ ℕ := toLex (t.weight, t.minsym)

theorem HuffNode.before_iff_key_lt {a b : HuffNode} : a.before b = true ↔ a.key < b.key := by
  rw [HuffNode.before, Bool.or_eq_true, Bool.and_eq_true, decide_eq_true_iff, decide_eq_true_iff, beq_iff_eq, HuffNode.key,
    HuffNode.key, Prod.Lex.toLex_lt_toLex]

/-- A tree in the arena has the key of its root record. -/
theorem HoldsTree.key_eq {node : Vector NodeRec 511} {n i : Nat} {t : HuffNode} (h : HoldsTree node n i t) :
    keyAt node i = t.key := by
  obtain ⟨hweight, hminsym⟩ := h.root_record
  rw [keyAt, HuffNode.key, hweight, hminsym]

/-- Settles O23: the order is the lexicographic one of weight and minsym. -/
theorem priorityOrderIsStrictTotal : Obligations.PriorityOrderIsStrictTotal := by
  refine ⟨fun a b => precedes_iff, fun a => ?_, fun a b c hab hbc => ?_, fun a b hne => ?_⟩
  · rw [← Bool.not_eq_true, precedes_iff]
    omega
  · rw [precedes_iff] at hab hbc ⊢
    omega
  · rw [ne_eq, ← BitVec.toNat_inj] at hne
    rw [precedes_iff, precedes_iff]
    omega

/-! ### The first of a list by a key -/

section FirstBy

variable {α κ : Type} [LinearOrder κ] (f : α → κ)

/-- The fold that both `extractMin` and `firstTree` are: the element whose key no later one is below. -/
def firstBy (a : α) (l : List α) : α := l.foldl (fun m x => if f x < f m then x else m) a

theorem argmin_cons_eq_firstBy (a : α) (l : List α) : (a :: l).argmin f = some (firstBy f a l) := by
  induction l using List.reverseRecOn with
  | nil => rfl
  | append_singleton l x ih =>
    rw [← List.cons_append, List.argmin_concat, ih, firstBy, firstBy, List.foldl_append, List.foldl_cons, List.foldl_nil]
    exact (apply_ite some _ _ _).symm

theorem firstBy_mem (a : α) (l : List α) : firstBy f a l ∈ a :: l := List.argmin_mem (argmin_cons_eq_firstBy f a l)

variable [BEq α] [LawfulBEq α]

/-- Where the keys differ, the first comes strictly before every other element. -/
theorem firstBy_lt_of_mem_erase {a : α} {l : List α} (hkeys : ((a :: l).map f).Nodup) {x : α}
    (hx : x ∈ (a :: l).erase (firstBy f a l)) : f (firstBy f a l) < f x := by
  have hle : f (firstBy f a l) ≤ f x := List.le_of_mem_argmin (List.mem_of_mem_erase hx) (argmin_cons_eq_firstBy f a l)
  have hperm := (List.perm_cons_erase (firstBy_mem f a l)).map f
  rw [hperm.nodup_iff, List.map_cons, List.nodup_cons] at hkeys
  exact hle.lt_of_ne fun heq => hkeys.1 (heq ▸ List.mem_map_of_mem hx)

/-- The list without its first element `a` and its second `c`, in the strict order of the keys, is `rest`. -/
structure TakesTwo (l : List α) (a c : α) (rest : List α) : Prop where
  perm : l.Perm (a :: c :: rest)
  first_lt : ∀ x ∈ c :: rest, f a < f x
  second_lt : ∀ x ∈ rest, f c < f x

variable {f}

/-- Taking the first twice takes the first two. -/
theorem exists_takesTwo {a : α} {l : List α} (hkeys : ((a :: l).map f).Nodup) {b : α} {k : List α}
    (hrest : (a :: l).erase (firstBy f a l) = b :: k) :
    TakesTwo f (a :: l) (firstBy f a l) (firstBy f b k) ((b :: k).erase (firstBy f b k)) := by
  have hperm := List.perm_cons_erase (firstBy_mem f a l)
  have hperm' := List.perm_cons_erase (firstBy_mem f b k)
  rw [hrest] at hperm
  have hkeys' : ((b :: k).map f).Nodup := ((hperm.map f).nodup_iff.1 hkeys).of_cons
  exact ⟨hperm.trans (hperm'.cons _), fun x hx => firstBy_lt_of_mem_erase f hkeys (hrest ▸ hperm'.mem_iff.2 hx),
    fun x => firstBy_lt_of_mem_erase f hkeys'⟩

omit [BEq α] [LawfulBEq α] in
/-- Two elements that come strictly before every other one of the same elements are one. -/
theorem eq_of_lt_rest {a b : α} {l k : List α} (hperm : (a :: l).Perm (b :: k)) (ha : ∀ x ∈ l, f a < f x)
    (hb : ∀ x ∈ k, f b < f x) : a = b := by
  rcases List.mem_cons.1 (hperm.mem_iff.1 List.mem_cons_self) with hab | hak
  · exact hab
  · rcases List.mem_cons.1 (hperm.mem_iff.2 List.mem_cons_self) with hba | hbl
    · exact hba.symm
    · exact absurd (ha b hbl) (hb a hak).asymm

omit [BEq α] [LawfulBEq α] in
/-- The first two and the others do not depend on the order in which the elements are listed (R103). -/
theorem TakesTwo.eq_of_perm {l l' : List α} {a c a' c' : α} {rest rest' : List α} (h : TakesTwo f l a c rest)
    (h' : TakesTwo f l' a' c' rest') (hperm : l.Perm l') : a = a' ∧ c = c' ∧ rest.Perm rest' := by
  have hall := h.perm.symm.trans (hperm.trans h'.perm)
  obtain rfl := eq_of_lt_rest hall h.first_lt h'.first_lt
  have htail := hall.cons_inv
  obtain rfl := eq_of_lt_rest htail h.second_lt h'.second_lt
  exact ⟨rfl, rfl, htail.cons_inv⟩

end FirstBy

/-! ### ExtractMin (R103) -/

theorem extractMin_cons (node : Vector NodeRec 511) (i : Nat) (is : List Nat) :
    extractMin node (i :: is) = some (firstBy (keyAt node) i is, (i :: is).erase (firstBy (keyAt node) i is)) := by
  have hearlier : earlier node = fun m x => if keyAt node x < keyAt node m then x else m := by
    funext m x
    exact if_congr precedes_nodeAt_iff rfl rfl
  rw [extractMin, hearlier]
  rfl

/-- Where minsym differs, so does the key. -/
theorem keyAt_nodup {node : Vector NodeRec 511} {pq : List Nat} (h : (pq.map fun i => (nodeAt node i).minsym.toNat).Nodup) :
    (pq.map (keyAt node)).Nodup :=
  List.Nodup.of_map (fun key => (ofLex key).2) (by rwa [List.map_map])

/-- Settles O24: ExtractMin is the first by the key of the priority order, and the keys differ. -/
theorem extractMinTakesTheFirst : Obligations.ExtractMinTakesTheFirst := by
  intro node pq hne hminsym
  have hkeys : (pq.map (keyAt node)).Nodup := by
    refine keyAt_nodup (List.pairwise_map.2 (hminsym.imp fun hij => ?_))
    rwa [ne_eq, BitVec.toNat_inj]
  obtain ⟨i, is, rfl⟩ := List.exists_cons_of_ne_nil hne
  exact ⟨firstBy (keyAt node) i is, extractMin_cons node i is, firstBy_mem _ i is, fun j hj hjm =>
    precedes_nodeAt_iff.2 (firstBy_lt_of_mem_erase _ hkeys ((List.mem_erase_of_ne hjm).2 hj))⟩

/-! ### One merge, on the arena and on trees (R105) -/

/-- A merge takes the two first members of PQ, whatever the order of PQ. -/
theorem mergeStep_takesTwo {m : MergeState} (hlen : 2 ≤ m.pq.length)
    (hkeys : (m.pq.map (keyAt m.node)).Nodup) :
    ∃ a c rest, TakesTwo (keyAt m.node) m.pq a c rest ∧
      mergeStep m =
        { node := nodeWrite m.node (256 + m.k) (mergeRec m.node a c), pq := (256 + m.k) :: rest, k := m.k + 1 } := by
  obtain ⟨i, is, hpq⟩ := List.exists_cons_of_length_pos (show 0 < m.pq.length by omega)
  have herase := List.length_erase_of_mem (firstBy_mem (keyAt m.node) i is)
  rw [← hpq] at herase
  obtain ⟨j, js, hrest⟩ := List.exists_cons_of_length_pos
    (show 0 < (m.pq.erase (firstBy (keyAt m.node) i is)).length by omega)
  rw [hpq] at hkeys hrest
  exact ⟨_, _, _, hpq ▸ exists_takesTwo hkeys hrest, by simp only [mergeStep, hpq, extractMin_cons, hrest]⟩

theorem firstTree_eq_firstBy (t : HuffNode) (ts : List HuffNode) : firstTree t ts = firstBy HuffNode.key t ts := by
  have hbefore : (fun m t : HuffNode => if t.before m then t else m) = fun m t => if t.key < m.key then t else m := by
    funext m t
    exact if_congr HuffNode.before_iff_key_lt rfl rfl
  rw [firstTree, hbefore]
  rfl

/-- A merge of trees takes the two first trees, whatever the order of the forest. -/
theorem mergeForest_takesTwo {forest : List HuffNode} (fuel : Nat) (hlen : 2 ≤ forest.length)
    (hkeys : (forest.map HuffNode.key).Nodup) :
    ∃ l t rest, TakesTwo HuffNode.key forest l t rest ∧
      mergeForest (fuel + 1) forest = mergeForest fuel (.internal (l.weight + t.weight) l t :: rest) := by
  obtain ⟨u, us, rfl⟩ := List.exists_cons_of_length_pos (show 0 < forest.length by omega)
  have herase := List.length_erase_of_mem (firstBy_mem HuffNode.key u us)
  obtain ⟨v, vs, hrest⟩ := List.exists_cons_of_length_pos
    (show 0 < ((u :: us).erase (firstBy HuffNode.key u us)).length by omega)
  exact ⟨_, _, _, exists_takesTwo hkeys hrest, by simp only [mergeForest, firstTree_eq_firstBy, hrest]⟩

theorem mergeForest_of_length_lt {forest : List HuffNode} (fuel : Nat) (hlen : forest.length < 2) :
    mergeForest fuel forest = forest := by
  cases fuel with
  | zero => rfl
  | succ fuel =>
    match forest with
    | [] => rfl
    | [t] => simp [mergeForest, firstTree]

end Sys2Proof
end

section
/-! PROOFS. The statements of 41_build on the arena that the merges leave: their number (R113), NSYM and ROOT (R107, R112), and
that no node is shared (R110). -/

namespace Sys2Proof

open Sys2Proof.Machine

/-! ### The merge loop (R113) -/

/-- What every merge keeps, the loop keeps. -/
theorem mergeLoop_induction {P : MergeState → Prop} (hstep : ∀ m, P m → 2 ≤ m.pq.length → P (mergeStep m)) {fuel : Nat}
    {m : MergeState} (h : P m) : P (mergeLoop fuel m) := by
  induction fuel generalizing m with
  | zero => exact h
  | succ fuel ih =>
    rw [mergeLoop]
    split
    · next hlen => exact ih (hstep m h hlen)
    · exact h

/-- Each merge makes PQ one shorter, until one member is left or none (R113). -/
theorem mergeLoop_counts {fuel : Nat} {m : MergeState} (hfuel : m.pq.length ≤ fuel + 1) :
    (mergeLoop fuel m).k = m.k + (m.pq.length - 1) ∧ (mergeLoop fuel m).pq.length = min m.pq.length 1 := by
  induction fuel generalizing m with
  | zero => simp only [mergeLoop]; omega
  | succ fuel ih =>
    rw [mergeLoop]
    split
    · next hlen =>
      obtain ⟨a, c, rest, hpq, hstep⟩ := mergeStep_eq hlen
      have hlen' := hpq.length_eq
      simp only [List.length_cons] at hlen'
      have hk : (mergeStep m).k = m.k + 1 := by rw [hstep]
      have hrest : (mergeStep m).pq.length = rest.length + 1 := by rw [hstep, List.length_cons]
      obtain ⟨hcount, hone⟩ := ih (m := mergeStep m) (by omega)
      omega
    · omega

theorem mergeLoop_startMerge_k (ft : Vector Word 256) :
    (mergeLoop 255 (startMerge ft)).k = (tableEntries ft).length - 1 := by
  have hle := tableEntries_length_le ft
  have hpq := startMerge_pq_length ft
  rw [(mergeLoop_counts (by omega)).1, startMerge_k, hpq, Nat.zero_add]

theorem mergeLoop_startMerge_pq_length (ft : Vector Word 256) :
    (mergeLoop 255 (startMerge ft)).pq.length = min (tableEntries ft).length 1 := by
  have hle := tableEntries_length_le ft
  have hpq := startMerge_pq_length ft
  rw [(mergeLoop_counts (by omega)).2, hpq]

/-- Settles O32: a table has at most 256 entries, and each merge makes PQ one shorter. -/
theorem buildTakesOneMergePerSymbol : Obligations.BuildTakesOneMergePerSymbol := by
  intro ft
  have hle := tableEntries_length_le ft
  exact ⟨mergeLoop_startMerge_k ft, by omega, mergeLoop_startMerge_pq_length ft⟩

/-! ### NSYM, ROOT and the flags (R38, R107, R112) -/

/-- PQ starts with the places of the entries, in ascending order (R104). -/
theorem insertLeaves_pq {ws : List Word} {b : Nat} {m : MergeState} (hb : b + ws.length ≤ 256) :
    (insertLeaves ws b m).pq = m.pq ++ (entriesFrom ws b).map fun e => e.1.toNat := by
  induction ws generalizing b m with
  | nil => simp [insertLeaves, entriesFrom]
  | cons w ws ih =>
    rw [List.length_cons] at hb
    rw [insertLeaves, ih (by omega), insertLeaf, entriesFrom]
    split
    · rfl
    · simp [Nat.mod_eq_of_lt (show b < 256 by omega)]

theorem startMerge_pq (ft : Vector Word 256) : (startMerge ft).pq = (tableEntries ft).map fun e => e.1.toNat := by
  have hlen := Vector.length_toList (xs := ft)
  rw [startMerge, insertLeaves_pq (by omega)]
  rfl

/-- After a merge the newest node stands in PQ first, and it is the only one left at the end. -/
theorem mergeLoop_head {fuel : Nat} {m : MergeState} (h : 0 < m.k → m.pq.head? = some (255 + m.k)) :
    0 < (mergeLoop fuel m).k → (mergeLoop fuel m).pq.head? = some (255 + (mergeLoop fuel m).k) := by
  refine mergeLoop_induction (P := fun m => 0 < m.k → m.pq.head? = some (255 + m.k)) (fun m _ hlen _ => ?_) h
  obtain ⟨a, c, rest, -, hstep⟩ := mergeStep_eq hlen
  rw [hstep, List.head?_cons]
  exact congrArg some (show 256 + m.k = 255 + (m.k + 1) by omega)

theorem rootOf_of_head? {pq : List Nat} {i : Nat} (h : pq.head? = some i) : rootOf pq = BitVec.ofNat 9 i := by
  cases pq with
  | nil => cases h
  | cons j js =>
    cases h
    rfl

theorem buildTree_nsym_toNat (ft : Vector Word 256) : (buildTree ft).nsym.toNat = (tableEntries ft).length := by
  have hle := tableEntries_length_le ft
  rw [buildTree, startMerge_pq_length, BitVec.toNat_ofNat]
  exact Nat.mod_eq_of_lt (by omega)

theorem buildTree_root_of_nil {ft : Vector Word 256} (h : (tableEntries ft).length = 0) : (buildTree ft).root = 0#9 := by
  have hpq : (mergeLoop 255 (startMerge ft)).pq = [] := by
    rw [← List.length_eq_zero_iff, mergeLoop_startMerge_pq_length, h, Nat.zero_min]
  rw [buildTree, hpq]
  rfl

theorem buildTree_root_of_singleton {ft : Vector Word 256} {b : Byte} {w : Nat} (h : tableEntries ft = [(b, w)]) :
    (buildTree ft).root.toNat = b.toNat := by
  have hpq : (startMerge ft).pq = [b.toNat] := by rw [startMerge_pq, h, List.map_singleton]
  have hloop : mergeLoop 255 (startMerge ft) = startMerge ft := by rw [mergeLoop, hpq, if_neg (by simp)]
  rw [buildTree, hloop, hpq]
  exact Nat.mod_eq_of_lt (by omega)

theorem buildTree_root_of_two_le {ft : Vector Word 256} (h : 2 ≤ (tableEntries ft).length) :
    (buildTree ft).root.toNat = 254 + (tableEntries ft).length := by
  have hle := tableEntries_length_le ft
  have hk := mergeLoop_startMerge_k ft
  have hhead := mergeLoop_head (fuel := 255) (m := startMerge ft) (by simp) (by omega)
  rw [buildTree, rootOf_of_head? hhead, hk, BitVec.toNat_ofNat, Nat.mod_eq_of_lt (by omega)]
  omega

/-- Settles O25: the merge loop ends with the last node made, or with the one Leaf, or with nothing. -/
theorem buildCompletesWithRoot : Obligations.BuildCompletesWithRoot := by
  intro s he hsum
  refine ⟨(buildTree s.ft).node, (buildTree s.ft).nsym, (buildTree s.ft).root, ?_, buildTree_nsym_toNat s.ft,
    fun h0 => by rw [buildTree_root_of_nil h0]; rfl, fun b w => buildTree_root_of_singleton, buildTree_root_of_two_le⟩
  have hroot : (buildTree s.ft).rootValid = decide (1 ≤ (tableEntries s.ft).length) := by
    rw [buildTree_rootValid]
    cases tableEntries s.ft <;> simp
  rw [exec_build_of_fits he (by omega), ← hroot]
  rfl

/-! ### The members of PQ (R103) -/

theorem nodeAt_nodeWrite_self {node : Vector NodeRec 511} {i : Nat} (hi : i < 511) (r : NodeRec) :
    nodeAt (nodeWrite node i r) i = r := by
  rw [nodeAt, nodeRead_nodeWrite, if_pos ⟨rfl, hi⟩, Option.getD_some]

theorem nodeAt_nodeWrite_of_ne {node : Vector NodeRec 511} {i j : Nat} (h : j ≠ i) (r : NodeRec) :
    nodeAt (nodeWrite node i r) j = nodeAt node j := by
  rw [nodeAt, nodeRead_nodeWrite, if_neg fun hij => h hij.1.symm, nodeAt]

theorem nodeRead_eq_nodeAt {node : Vector NodeRec 511} {i : Nat} (hi : i < 511) :
    nodeRead node i = some (nodeAt node i) := by
  obtain ⟨r, hr⟩ := (nodeRead_some_iff node i).2 hi
  rw [nodeAt, hr, Option.getD_some]

/-- The members of PQ at the start are the places of different bytes (R104). -/
theorem startMerge_pq_nodup (ft : Vector Word 256) : (startMerge ft).pq.Nodup := by
  rw [startMerge_pq]
  have hmap := (tableEntries_symbols_nodup ft).map (f := BitVec.toNat) fun _ _ => BitVec.eq_of_toNat_eq
  rwa [List.map_map] at hmap

theorem lt_of_mem_startMerge_pq {ft : Vector Word 256} {i : Nat} (h : i ∈ (startMerge ft).pq) : i < 256 := by
  rw [startMerge_pq] at h
  obtain ⟨e, -, rfl⟩ := List.mem_map.1 h
  exact e.1.isLt

/-- What holds of the members of PQ at every moment: there is room in the arena for the merges to come, each member is a valid
record at an earlier place, and no two have the same minsym (R103). -/
structure PqInv (m : MergeState) : Prop where
  room : m.k + m.pq.length ≤ 256
  index_lt : ∀ i ∈ m.pq, i < 256 + m.k
  valid : ∀ i ∈ m.pq, (nodeAt m.node i).valid = true
  minsym_nodup : (m.pq.map fun i => (nodeAt m.node i).minsym.toNat).Nodup

/-- The record of an entry at the start is its Leaf (R104). -/
theorem nodeAt_startMerge_of_mem {ft : Vector Word 256} {e : Byte × Nat} (h : e ∈ tableEntries ft) :
    nodeAt (startMerge ft).node e.1.toNat = leafRec e.1 (ftRead ft e.1) := by
  rw [nodeAt, nodeRead_startMerge_byte, if_neg (mem_tableEntries.1 h).1, Option.getD_some]

theorem pqInv_startMerge (ft : Vector Word 256) : PqInv (startMerge ft) where
  room := by simpa [startMerge_pq_length] using tableEntries_length_le ft
  index_lt i hi := Nat.lt_add_right _ (lt_of_mem_startMerge_pq hi)
  valid i hi := by
    rw [startMerge_pq] at hi
    obtain ⟨e, he, rfl⟩ := List.mem_map.1 hi
    rw [nodeAt_startMerge_of_mem he]
    rfl
  minsym_nodup := by
    have hminsym : ((startMerge ft).pq.map fun i => (nodeAt (startMerge ft).node i).minsym.toNat) = (startMerge ft).pq := by
      rw [startMerge_pq, List.map_map]
      refine List.map_congr_left fun e he => ?_
      rw [Function.comp_apply, nodeAt_startMerge_of_mem he]
      rfl
    exact hminsym.symm ▸ startMerge_pq_nodup ft

/-- A merge keeps it: the new minsym is that of one of the two members that leave (R103, R105). -/
theorem pqInv_mergeStep {m : MergeState} (h : PqInv m) (hlen : 2 ≤ m.pq.length) : PqInv (mergeStep m) := by
  obtain ⟨hroom, hindex, hvalid, hminsym⟩ := h
  obtain ⟨a, c, rest, hpq, hstep⟩ := mergeStep_eq hlen
  have hlen' := hpq.length_eq
  simp only [List.length_cons] at hlen'
  have hrest : ∀ i ∈ rest, i ∈ m.pq := fun i hi => hpq.mem_iff.2 (by simp [hi])
  have hkept : ∀ i ∈ rest, nodeAt (nodeWrite m.node (256 + m.k) (mergeRec m.node a c)) i = nodeAt m.node i := fun i hi =>
    nodeAt_nodeWrite_of_ne (hindex i (hrest i hi)).ne _
  have hnew := nodeAt_nodeWrite_self (node := m.node) (show 256 + m.k < 511 by omega) (mergeRec m.node a c)
  rw [(hpq.map _).nodup_iff, List.map_cons, List.map_cons, List.nodup_cons, List.nodup_cons, List.mem_cons, not_or] at hminsym
  obtain ⟨⟨-, ha⟩, hc, hnodup⟩ := hminsym
  rw [hstep]
  refine ⟨?_, fun i hi => ?_, fun i hi => ?_, ?_⟩
  · simp only [List.length_cons]
    omega
  · rcases List.mem_cons.1 hi with rfl | hi
    · exact Nat.lt_succ_self _
    · exact Nat.lt_succ_of_lt (hindex i (hrest i hi))
  · rcases List.mem_cons.1 hi with rfl | hi
    · exact congrArg NodeRec.valid hnew
    · exact (congrArg NodeRec.valid (hkept i hi)).trans (hvalid i (hrest i hi))
  · simp only [List.map_cons, hnew, List.map_congr_left fun i hi => congrArg (fun r => r.minsym.toNat) (hkept i hi)]
    refine List.nodup_cons.2 ⟨?_, hnodup⟩
    rw [mergeRec, minSym_toNat]
    rcases min_choice (nodeAt m.node a).minsym.toNat (nodeAt m.node c).minsym.toNat with hmin | hmin
    · rwa [hmin]
    · rwa [hmin]

theorem PqInv.keyAt_nodup {m : MergeState} (h : PqInv m) : (m.pq.map (keyAt m.node)).Nodup :=
  Sys2Proof.keyAt_nodup h.minsym_nodup

/-! ### No node is shared (R110) -/

/-- The children of the merged node at 256 + `k`. -/
def childrenAt (node : Vector NodeRec 511) (k : Nat) : List NodeIdx :=
  [(nodeAt node (256 + k)).left, (nodeAt node (256 + k)).right]

/-- Every index that ever entered PQ is still in it or is the child of one merged node: `members` are the indices at the start,
256 and up those of the merged nodes. -/
def PlacesUsed (members : List Nat) (m : MergeState) : Prop :=
  ((List.range m.k).flatMap (childrenAt m.node) ++ m.pq.map (BitVec.ofNat 9)).Perm
    ((members ++ List.range' 256 m.k).map (BitVec.ofNat 9))

theorem placesUsed_mergeStep {members : List Nat} {m : MergeState} (h : PlacesUsed members m)
    (hroom : m.k + m.pq.length ≤ 256) (hlen : 2 ≤ m.pq.length) : PlacesUsed members (mergeStep m) := by
  obtain ⟨a, c, rest, hpq, hstep⟩ := mergeStep_eq hlen
  have hlen' := hpq.length_eq
  simp only [List.length_cons] at hlen'
  have hold : (List.range m.k).flatMap (childrenAt (nodeWrite m.node (256 + m.k) (mergeRec m.node a c))) =
      (List.range m.k).flatMap (childrenAt m.node) := by
    refine List.flatMap_congr fun k hk => ?_
    rw [List.mem_range] at hk
    rw [childrenAt, childrenAt, nodeAt_nodeWrite_of_ne (by omega)]
  have hnew : childrenAt (nodeWrite m.node (256 + m.k) (mergeRec m.node a c)) m.k = [BitVec.ofNat 9 a, BitVec.ofNat 9 c] := by
    rw [childrenAt, nodeAt_nodeWrite_self (by omega)]
    rfl
  have hnewest : ([BitVec.ofNat 9 a, BitVec.ofNat 9 c] ++ BitVec.ofNat 9 (256 + m.k) :: rest.map (BitVec.ofNat 9)).Perm
      (BitVec.ofNat 9 (256 + m.k) :: m.pq.map (BitVec.ofNat 9)) :=
    List.perm_middle.trans ((hpq.symm.map (BitVec.ofNat 9)).cons _)
  have hmembers := List.perm_middle.trans (List.Perm.cons (BitVec.ofNat 9 (256 + m.k)) h)
  rw [hstep, PlacesUsed, List.range_succ, List.flatMap_append, List.flatMap_singleton, hold, hnew, List.range'_1_concat,
    ← List.append_assoc, List.map_append (l₂ := [_]), List.map_cons, List.append_assoc]
  exact (hnewest.append_left _).trans (hmembers.trans (List.perm_append_singleton _ _).symm)

theorem placesUsed_mergeLoop (ft : Vector Word 256) :
    PlacesUsed (startMerge ft).pq (mergeLoop 255 (startMerge ft)) := by
  refine (mergeLoop_induction (P := fun m => PqInv m ∧ PlacesUsed (startMerge ft).pq m) (fun m h hlen => ?_)
    ⟨pqInv_startMerge ft, ?_⟩).2
  · exact ⟨pqInv_mergeStep h.1 hlen, placesUsed_mergeStep h.2 h.1.room hlen⟩
  · simp [PlacesUsed]

/-- No index is a child of two merged nodes of BUILD, or twice of one (R110). -/
theorem buildTree_children_nodup (ft : Vector Word 256) :
    ((List.range ((tableEntries ft).length - 1)).flatMap (childrenAt (buildTree ft).node)).Nodup := by
  have hle := tableEntries_length_le ft
  have hperm := placesUsed_mergeLoop ft
  rw [PlacesUsed, mergeLoop_startMerge_k] at hperm
  refine (hperm.nodup_iff.2 (List.Nodup.map_on (fun i hi j hj hij => ?_) ?_)).of_append_left
  · have hlt : ∀ i ∈ (startMerge ft).pq ++ List.range' 256 ((tableEntries ft).length - 1), i < 512 := by
      intro i hi
      rcases List.mem_append.1 hi with hi | hi
      · have := lt_of_mem_startMerge_pq hi
        omega
      · rw [List.mem_range'_1] at hi
        omega
    have hi' := hlt i hi
    have hj' := hlt j hj
    have := congrArg BitVec.toNat hij
    rw [BitVec.toNat_ofNat, BitVec.toNat_ofNat] at this
    omega
  · refine (startMerge_pq_nodup ft).append List.nodup_range' fun i hi hi' => ?_
    have := lt_of_mem_startMerge_pq hi
    rw [List.mem_range'_1] at hi'
    omega

/-- Settles O28: all the children of the merged nodes are different. -/
theorem buildSharesNoNode : Obligations.BuildSharesNoNode := by
  intro s he hsum
  refine ⟨installTree (buildTree s.ft) s, exec_build_of_fits he (by omega), fun j k hjk hk => ?_⟩
  have hle := tableEntries_length_le s.ft
  have hdisjoint : (childrenAt (buildTree s.ft).node j).Disjoint (childrenAt (buildTree s.ft).node k) := by
    have hpairwise := List.pairwise_iff_getElem.1 (List.nodup_flatMap.1 (buildTree_children_nodup s.ft)).2 j k
      (by rw [List.length_range]; omega) (by rw [List.length_range]; omega) hjk
    rwa [List.getElem_range, List.getElem_range] at hpairwise
  refine ⟨_, _, nodeRead_eq_nodeAt (by omega), nodeRead_eq_nodeAt (by omega), ?_⟩
  simpa [childrenAt, and_assoc] using List.disjoint_iff_ne.1 hdisjoint

end Sys2Proof
end

section
/-! PROOFS. The statements of 41_build that need the whole run of the merges: ordered pairs (R105, R110), no dependence on the order
in which the Leaves are inserted (R108), and the arena as the merge of the table's Leaves (R104, R105). -/

namespace Sys2Proof

open Sys2Proof.Machine

/-! ### Every merged node is made of an ordered pair (R105, R110) -/

/-- Two members of PQ together weigh what fits 32 bits (R109). -/
theorem MergeInv.weight_add_lt {entries : List (Byte × Nat)} {m : MergeState} (h : MergeInv entries m)
    (hsum : (entries.map Prod.snd).sum < 2 ^ 32) {a c : Nat} {rest : List Nat} (hpq : m.pq.Perm (a :: c :: rest)) :
    (nodeAt m.node a).weight.toNat + (nodeAt m.node c).weight.toNat < 2 ^ 32 := by
  obtain ⟨forest, hforest, hleaves, hadd⟩ := h.forest
  obtain ⟨forest', hforest', hperm⟩ := List.perm_comp_forall₂ hpq.symm hforest
  cases hforest' with
  | @cons _ l _ forest₁ hl hforest₁ =>
  cases hforest₁ with
  | @cons _ t _ forest₂ ht hforest₂ =>
  have hle := weight_add_le_of_forest ((hperm.flatMap_right HuffNode.leaves).trans hleaves)
    (hadd l (hperm.mem_iff.1 (by simp))) (hadd t (hperm.mem_iff.1 (by simp)))
  rw [hl.root_record.1, ht.root_record.1]
  omega

/-- What R110 says of the merged node at 256 + `k`. -/
def MergedPair (node : Vector NodeRec 511) (k : Nat) : Prop :=
  ∃ r a c, nodeRead node (256 + k) = some r ∧ nodeRead node r.left.toNat = some a ∧ nodeRead node r.right.toNat = some c ∧
    r.valid = true ∧ r.kind = .internal ∧ r.sym = 0#8 ∧ a.valid = true ∧ c.valid = true ∧
    r.left.toNat < 256 + k ∧ r.right.toNat < 256 + k ∧ r.left ≠ r.right ∧ precedes a c = true ∧
    r.weight.toNat = a.weight.toNat + c.weight.toNat ∧ r.minsym.toNat = min a.minsym.toNat c.minsym.toNat

/-- A merged node and its children stay where the arena changes above it only. -/
theorem MergedPair.nodeWrite {node : Vector NodeRec 511} {k n : Nat} (h : MergedPair node k) (hn : 256 + k < n)
    (record : NodeRec) : MergedPair (nodeWrite node n record) k := by
  obtain ⟨r, a, c, hr, ha, hc, hvalid, hkind, hsym, havalid, hcvalid, hleft, hright, hrest⟩ := h
  refine ⟨r, a, c, ?_, ?_, ?_, hvalid, hkind, hsym, havalid, hcvalid, hleft, hright, hrest⟩
  · rwa [nodeRead_nodeWrite, if_neg (by omega)]
  · rwa [nodeRead_nodeWrite, if_neg (by omega)]
  · rwa [nodeRead_nodeWrite, if_neg (by omega)]

theorem mergedPair_mergeRec {node : Vector NodeRec 511} {k a c : Nat} (hk : 256 + k < 511) (ha : a < 256 + k)
    (hc : c < 256 + k) (havalid : (nodeAt node a).valid = true) (hcvalid : (nodeAt node c).valid = true)
    (hfirst : keyAt node a < keyAt node c)
    (hsum : (nodeAt node a).weight.toNat + (nodeAt node c).weight.toNat < 2 ^ 32) :
    MergedPair (nodeWrite node (256 + k) (mergeRec node a c)) k := by
  have hleft : (mergeRec node a c).left.toNat = a := Nat.mod_eq_of_lt (by omega)
  have hright : (mergeRec node a c).right.toNat = c := Nat.mod_eq_of_lt (by omega)
  refine ⟨mergeRec node a c, nodeAt node a, nodeAt node c, ?_, ?_, ?_, rfl, rfl, rfl, havalid, hcvalid, by omega, by omega,
    fun heq => ?_, precedes_nodeAt_iff.2 hfirst, ?_, ?_⟩
  · rw [nodeRead_nodeWrite, if_pos ⟨rfl, hk⟩]
  · rw [hleft, nodeRead_nodeWrite, if_neg (by omega), nodeRead_eq_nodeAt (by omega)]
  · rw [hright, nodeRead_nodeWrite, if_neg (by omega), nodeRead_eq_nodeAt (by omega)]
  · have hac : a = c := hleft.symm.trans ((congrArg BitVec.toNat heq).trans hright)
    exact hfirst.ne (congrArg _ hac)
  · rw [mergeRec, BitVec.toNat_add, Nat.mod_eq_of_lt hsum]
  · rw [mergeRec, minSym_toNat]

theorem mergedPair_mergeStep {entries : List (Byte × Nat)} {m : MergeState} (hinv : PqInv m) (hmerge : MergeInv entries m)
    (hsum : (entries.map Prod.snd).sum < 2 ^ 32) (hlen : 2 ≤ m.pq.length) (h : ∀ k < m.k, MergedPair m.node k) :
    ∀ k < (mergeStep m).k, MergedPair (mergeStep m).node k := by
  obtain ⟨a, c, rest, htakes, hstep⟩ := mergeStep_takesTwo hlen hinv.keyAt_nodup
  have ha : a ∈ m.pq := htakes.perm.mem_iff.2 (by simp)
  have hc : c ∈ m.pq := htakes.perm.mem_iff.2 (by simp)
  have hroom := hinv.room
  rw [hstep]
  intro k hk
  rcases Nat.lt_succ_iff_lt_or_eq.1 hk with hk | rfl
  · exact (h k hk).nodeWrite (by omega) _
  · exact mergedPair_mergeRec (by omega) (hinv.index_lt a ha) (hinv.index_lt c hc) (hinv.valid a ha) (hinv.valid c hc)
      (htakes.first_lt c (by simp)) (hmerge.weight_add_lt hsum htakes.perm)

/-- Settles O27: each merge makes such a node from the two first members of PQ, and later merges write above it only. -/
theorem buildMergesOrderedPairs : Obligations.BuildMergesOrderedPairs := by
  intro s he hsum
  refine ⟨installTree (buildTree s.ft) s, exec_build_of_fits he (by omega), fun k hk => ?_⟩
  have hentries : ((tableEntries s.ft).map Prod.snd).sum < 2 ^ 32 := by
    rw [tableEntries_weights_sum]
    omega
  obtain ⟨-, -, hpairs⟩ := mergeLoop_induction (fuel := 255) (m := startMerge s.ft)
    (P := fun m => PqInv m ∧ MergeInv (tableEntries s.ft) m ∧ ∀ k < m.k, MergedPair m.node k)
    (fun m h hlen => ⟨pqInv_mergeStep h.1 hlen, (mergeInv_mergeStep h.2.1 hentries hlen).1,
      mergedPair_mergeStep h.1 h.2.1 hentries hlen h.2.2⟩)
    ⟨pqInv_startMerge s.ft, mergeInv_startMerge s.ft, by simp⟩
  exact hpairs k (by rw [mergeLoop_startMerge_k]; omega)

/-! ### The order in which the Leaves are inserted (R108) -/

/-- A merge does the same on a reordered PQ and leaves a reordered PQ. -/
theorem mergeStep_of_perm {m : MergeState} (hinv : PqInv m) (hlen : 2 ≤ m.pq.length) {pq : List Nat} (hpq : pq.Perm m.pq) :
    ∃ pq', pq'.Perm (mergeStep m).pq ∧ mergeStep { m with pq := pq } = { mergeStep m with pq := pq' } := by
  obtain ⟨a, c, rest, htakes, hstep⟩ := mergeStep_takesTwo hlen hinv.keyAt_nodup
  obtain ⟨a', c', rest', htakes', hstep'⟩ := mergeStep_takesTwo (m := { m with pq := pq }) (hpq.length_eq ▸ hlen)
    ((hpq.map _).nodup_iff.2 hinv.keyAt_nodup)
  obtain ⟨rfl, rfl, hrest⟩ := htakes'.eq_of_perm htakes hpq
  rw [hstep, hstep']
  exact ⟨_, hrest.cons _, rfl⟩

theorem mergeLoop_of_perm {fuel : Nat} {m : MergeState} (hinv : PqInv m) {pq : List Nat} (hpq : pq.Perm m.pq) :
    ∃ pq', pq'.Perm (mergeLoop fuel m).pq ∧ mergeLoop fuel { m with pq := pq } = { mergeLoop fuel m with pq := pq' } := by
  induction fuel generalizing m pq with
  | zero => exact ⟨pq, hpq, rfl⟩
  | succ fuel ih =>
    rw [mergeLoop, mergeLoop, hpq.length_eq]
    split
    · next hlen =>
      obtain ⟨pq', hpq', hstep⟩ := mergeStep_of_perm hinv hlen hpq
      rw [hstep]
      exact ih (pqInv_mergeStep hinv hlen) hpq'
    · exact ⟨pq, hpq, rfl⟩

theorem eq_of_perm_of_length_le_one {α : Type} {l k : List α} (h : l.Perm k) (hlen : k.length ≤ 1) : l = k := by
  match k with
  | [] => exact h.eq_nil
  | [x] => exact h.eq_singleton

/-- Settles O31: the two first members of PQ do not depend on its order, and at most one member is left at the end. -/
theorem buildIsInsertionOrderIndependent : Obligations.BuildIsInsertionOrderIndependent := by
  intro ft pq hpq
  obtain ⟨pq', hpq', hloop⟩ := mergeLoop_of_perm (fuel := 255) (pqInv_startMerge ft) hpq
  obtain rfl := eq_of_perm_of_length_le_one hpq' (by rw [mergeLoop_startMerge_pq_length]; omega)
  rw [hloop]
  refine ⟨rfl, rfl, fun s hft he hsum => ?_⟩
  subst hft
  exact ⟨installTree (buildTree s.ft) s, exec_build_of_fits he (by omega), rfl, rfl, by rw [hpq.length_eq]; rfl⟩

/-! ### The arena is the merge of the Leaves (R104, R105, R108) -/

/-- PQ holds the roots of the trees of the forest, in some order. -/
def HoldsListed (m : MergeState) (forest : List HuffNode) : Prop :=
  ∃ listed, HoldsForest m.node (256 + m.k) m.pq listed ∧ listed.Perm forest

theorem HoldsForest.keys_eq {node : Vector NodeRec 511} {n : Nat} {pq : List Nat} {forest : List HuffNode}
    (h : HoldsForest node n pq forest) : pq.map (keyAt node) = forest.map HuffNode.key := by
  induction h with
  | nil => rfl
  | cons hd _ ih => rw [List.map_cons, List.map_cons, hd.key_eq, ih]

/-- The trees of the two first members of PQ are the two first trees. -/
theorem HoldsForest.takesTwo {node : Vector NodeRec 511} {n a c : Nat} {pq rest : List Nat} {listed : List HuffNode}
    (h : HoldsForest node n pq listed) (htakes : TakesTwo (keyAt node) pq a c rest) :
    ∃ l t trees, HoldsTree node n a l ∧ HoldsTree node n c t ∧ HoldsForest node n rest trees ∧
      TakesTwo HuffNode.key listed l t trees := by
  obtain ⟨perm, first_lt, second_lt⟩ := htakes
  obtain ⟨listed', hlisted', hperm⟩ := List.perm_comp_forall₂ perm.symm h
  cases hlisted' with
  | @cons _ l _ listed₁ hl hlisted₁ =>
  cases hlisted₁ with
  | @cons _ t _ trees ht htrees =>
  refine ⟨l, t, trees, hl, ht, htrees, hperm.symm, ?_, ?_⟩
  · rw [← List.forall_mem_map (P := fun key => l.key < key), ← HoldsForest.keys_eq (.cons ht htrees), ← hl.key_eq]
    exact List.forall_mem_map.2 first_lt
  · rw [← List.forall_mem_map (P := fun key => t.key < key), ← HoldsForest.keys_eq htrees, ← ht.key_eq]
    exact List.forall_mem_map.2 second_lt

/-- A merge of the arena and a merge of the forest end alike (R105). -/
theorem HoldsListed.mergeStep {entries : List (Byte × Nat)} {m : MergeState} {forest : List HuffNode} (h : HoldsListed m forest)
    (hinv : PqInv m) (hmerge : MergeInv entries m) (hsum : (entries.map Prod.snd).sum < 2 ^ 32) (hlen : 2 ≤ m.pq.length)
    (fuel : Nat) :
    ∃ forest', mergeForest (fuel + 1) forest = mergeForest fuel forest' ∧ HoldsListed (mergeStep m) forest' := by
  obtain ⟨listed, hlisted, hforest⟩ := h
  have hkeys : (forest.map HuffNode.key).Nodup := by
    rw [← (hforest.map _).nodup_iff, ← hlisted.keys_eq]
    exact hinv.keyAt_nodup
  have hroom := hinv.room
  obtain ⟨a, c, rest, htakes, hstep⟩ := mergeStep_takesTwo hlen hinv.keyAt_nodup
  obtain ⟨l, t, trees, hl, ht, htrees, htakes'⟩ := hlisted.takesTwo htakes
  obtain ⟨l', t', trees', htakes'', hstep'⟩ := mergeForest_takesTwo fuel (hforest.length_eq ▸ hlisted.length_eq ▸ hlen) hkeys
  obtain ⟨rfl, rfl, hperm⟩ := htakes'.eq_of_perm htakes'' hforest
  have hlt := hmerge.weight_add_lt hsum htakes.perm
  rw [hl.root_record.1, ht.root_record.1] at hlt
  refine ⟨_, hstep', .internal (l.weight + t.weight) l t :: trees, ?_, hperm.cons _⟩
  rw [hstep]
  exact .cons (holdsTree_mergeRec hl ht (by omega) hlt) (htrees.nodeWrite (Nat.le_refl _) (Nat.le_succ _) _)

theorem HoldsListed.mergeLoop {entries : List (Byte × Nat)} {fuel : Nat} {m : MergeState} {forest : List HuffNode}
    (h : HoldsListed m forest) (hinv : PqInv m) (hmerge : MergeInv entries m)
    (hsum : (entries.map Prod.snd).sum < 2 ^ 32) : HoldsListed (mergeLoop fuel m) (mergeForest fuel forest) := by
  induction fuel generalizing m forest with
  | zero => exact h
  | succ fuel ih =>
    rw [Machine.mergeLoop]
    split
    · next hlen =>
      obtain ⟨forest', hforest', h'⟩ := h.mergeStep hinv hmerge hsum hlen fuel
      rw [hforest']
      exact ih h' (pqInv_mergeStep hinv hlen) (mergeInv_mergeStep hmerge hsum hlen).1
    · next hlen =>
      have hlength : m.pq.length = forest.length := h.elim fun _ h => h.1.length_eq.trans h.2.length_eq
      rwa [mergeForest_of_length_lt _ (by omega)]

/-- The tree in the arena is the one that `treeAt` finds, however much fuel it takes. -/
theorem HoldsTree.eq_of_treeAt {node : Vector NodeRec 511} {n fuel : Nat} {i : NodeIdx} {t u : HuffNode}
    (h : HoldsTree node n i.toNat t) (hu : treeAt node fuel i = some u) : u = t := by
  induction u generalizing fuel i t with
  | leaf s w =>
    obtain ⟨-, r, -, hr, hkind, rfl, rfl⟩ := nodeRead_of_treeAt_leaf hu
    cases t with
    | leaf s' w' =>
      obtain ⟨-, r', hr', -, rfl, -, rfl⟩ := h
      obtain rfl := Option.some.inj (hr.symm.trans hr')
      rfl
    | internal w' l' t' =>
      obtain ⟨-, r', hr', hkind', -⟩ := h
      obtain rfl := Option.some.inj (hr.symm.trans hr')
      cases hkind.symm.trans hkind'
  | internal w l v ihl ihv =>
    obtain ⟨f, r, -, hr, hkind, rfl, hl, hv⟩ := nodeRead_of_treeAt_internal hu
    cases t with
    | leaf s' w' =>
      obtain ⟨-, r', hr', hkind', -⟩ := h
      obtain rfl := Option.some.inj (hr.symm.trans hr')
      cases hkind.symm.trans hkind'
    | internal w' l' v' =>
      obtain ⟨-, r', hr', -, -, rfl, hl', hv'⟩ := h
      obtain rfl := Option.some.inj (hr.symm.trans hr')
      rw [ihl hl' hl, ihv hv' hv]

/-- The tree that BUILD leaves at ROOT is the merge of the Leaves, in whatever order they are listed. -/
theorem treeAt_buildTree_eq_huffTree {ft : Vector Word 256} (hsum : ftSum ft < 2 ^ 32) {entries : List (Byte × Nat)}
    (hperm : entries.Perm (tableEntries ft)) (hne : tableEntries ft ≠ []) :
    treeAt (buildTree ft).node 256 (buildTree ft).root = huffTree entries := by
  obtain ⟨u, hu, -, -⟩ := treeAt_buildTree hsum hne
  have hpos := List.length_pos_iff.2 hne
  have hentries := hsum
  rw [← tableEntries_weights_sum] at hentries
  have hstart : HoldsListed (startMerge ft) (leafForest entries) :=
    ⟨leafForest (tableEntries ft), by simpa using holdsForest_startMerge ft, (hperm.map _).symm⟩
  obtain ⟨listed, hlisted, hforest⟩ := hstart.mergeLoop (fuel := 255) (pqInv_startMerge ft) (mergeInv_startMerge ft) hentries
  obtain ⟨i, hi⟩ := List.length_eq_one_iff.1
    (show (mergeLoop 255 (startMerge ft)).pq.length = 1 by rw [mergeLoop_startMerge_pq_length]; omega)
  have hk := mergeLoop_startMerge_k ft
  have hle := tableEntries_length_le ft
  rw [hi] at hlisted
  cases hlisted with
  | @cons _ t _ _ ht hnil =>
  cases hnil
  have hindex := ht.index_lt
  have hroot : (buildTree ft).root.toNat = i := by
    rw [buildTree, hi]
    exact Nat.mod_eq_of_lt (by omega)
  rw [← hroot] at ht
  rw [hu, huffTree, hforest.symm.eq_singleton, ht.eq_of_treeAt hu]
  rfl

/-- Settles O30: merge by merge the arena holds the forest of the merges of trees, up to the order in which they are listed. -/
theorem buildRefinesTheMergeOfTrees : Obligations.BuildRefinesTheMergeOfTrees := by
  intro s he hsum
  refine ⟨installTree (buildTree s.ft) s, exec_build_of_fits he (by omega), fun entries hperm => ?_⟩
  rw [denotedTree, installTree_rootValid, buildTree_rootValid]
  by_cases hne : tableEntries s.ft = []
  · rw [hne] at hperm
    rw [hperm.eq_nil, hne]
    rfl
  · rw [List.isEmpty_eq_false_iff.2 hne, Bool.not_false, if_pos rfl]
    exact treeAt_buildTree_eq_huffTree (by omega) hperm hne

end Sys2Proof
end

section
/-! PROOFS. The statements of 42_mktab on the code table: each symbol's record (R121 to R124, R127), and that no code begins
another and the codes fill the code space (R126). -/

namespace Sys2Proof

open Sys2Proof.Machine

/-! ### MKTAB records the paths (R121 to R124, R127) -/

/-- Settles O33: without a root the table is empty; else it is that of the denoted tree. -/
theorem mktabRecordsPaths : Obligations.MktabRecordsPaths := by
  intro s h he htree
  rcases tree_cases_of_treeOk h.treeOk htree with ⟨-, hroot⟩ | ⟨t, ht⟩
  · refine ⟨emptyCt, exec_mktab_of_codeTable he htree (by rw [hroot]; rfl), fun b => ?_⟩
    rw [denotedTree, hroot, ctRead_emptyCt]
    rfl
  · obtain ⟨hroot, hat⟩ := denotedTree_eq_some_iff.1 ht.denoted
    obtain ⟨ct, hct, htable⟩ := codeTable_of_treeAt hat ht.symbols_nodup
    refine ⟨ct, exec_mktab_of_codeTable he htree (hroot.symm ▸ hct), fun b => ?_⟩
    rw [ht.denoted, Option.bind_some, htable b]
    cases t.codeOf b <;> rfl

/-! ### What a valid code table is (R40) -/

/-- In a state of the invariant a valid code table is empty, as is the table of counts, or it is the table of the denoted tree. -/
theorem Inv.table_cases {s : State} (h : Inv s) (hct : s.ctValid = true) :
    (tableEntries s.ft = [] ∧ s.ct = emptyCt) ∨ ∃ t, TreeOfTable s t ∧ IsTableOf s.ct t := by
  obtain ⟨htree, htable⟩ := h.table_of_ctValid hct
  rcases tree_cases_of_treeOk h.treeOk htree with ⟨hempty, hroot⟩ | ⟨t, ht⟩
  · rw [hroot] at htable
    exact .inl ⟨hempty, (Except.ok.inj htable).symm⟩
  · exact .inr ⟨t, ht, ht.isTableOf htable⟩

/-- NSYM is the number of entries of the present table (R107). -/
theorem TreeOk.nsym_toNat {s : State} (h : TreeOk s) (htree : s.treeValid = true) :
    s.nsym.toNat = (tableEntries s.ft).length := by
  obtain ⟨-, -, hnsym, -⟩ := h htree
  rw [hnsym, buildTree_nsym_toNat]

/-! ### No code begins another (R126) -/

/-- Where one path begins another both lead through the same nodes, and the first ends at a Leaf. -/
theorem HuffNode.eq_of_pathTo_prefix {t : HuffNode} {b c : Byte} {p q : BitString} (hb : t.pathTo b = some p)
    (hc : t.pathTo c = some q) (h : p <+: q) : b = c := by
  induction t generalizing p q with
  | leaf s w =>
    have hsb := HuffNode.pathTo_isSome_iff.1 (Option.isSome_of_eq_some hb)
    have hsc := HuffNode.pathTo_isSome_iff.1 (Option.isSome_of_eq_some hc)
    exact (List.mem_singleton.1 hsb).trans (List.mem_singleton.1 hsc).symm
  | internal w l r ihl ihr =>
    obtain ⟨v, p', rfl, hp'⟩ := HuffNode.pathTo_internal_eq_some hb
    obtain ⟨v', q', rfl, hq'⟩ := HuffNode.pathTo_internal_eq_some hc
    obtain ⟨rfl, hpq⟩ := List.cons_prefix_cons.1 h
    cases v
    · exact ihl hp' hq' hpq
    · exact ihr hp' hq' hpq

theorem HuffNode.eq_of_codeOf_prefix {t : HuffNode} {b c : Byte} {p q : BitString} (hb : t.codeOf b = some p)
    (hc : t.codeOf c = some q) (h : p <+: q) : b = c := by
  cases t with
  | leaf s w => exact (HuffNode.codeOf_leaf_eq_some hb).1.symm.trans (HuffNode.codeOf_leaf_eq_some hc).1
  | internal w l r => exact HuffNode.eq_of_pathTo_prefix hb hc h

/-- Settles O35: the codes are those of the denoted tree, where a code begins no other symbol's code. -/
theorem codesArePrefixFree : Obligations.CodesArePrefixFree := by
  intro s h hct b c hbc hb hc hprefix
  rcases h.table_cases hct with ⟨-, hempty⟩ | ⟨t, ht, htable⟩
  · rw [hempty, ctRead_emptyCt] at hb
    cases hb
  · exact hbc (HuffNode.eq_of_codeOf_prefix (htable.codeOf_of_valid ht.leaves_length_le hb)
      (htable.codeOf_of_valid ht.leaves_length_le hc) hprefix)

/-! ### Kraft's equation (R126) -/

/-- The share of the 2^d words of `d` bits that start with a path; none without a path. -/
def codeShare (d : Nat) (p : Option BitString) : Nat := p.elim 0 fun p => 2 ^ (d - p.length)

/-- A symbol in one subtree only has half the share there that it has in the subtree. -/
theorem codeShare_pathTo_internal {w : Nat} {l r : HuffNode}
    (hnodup : ((HuffNode.internal w l r).leaves.map Prod.fst).Nodup) (d : Nat) (b : Byte) :
    codeShare (d + 1) ((HuffNode.internal w l r).pathTo b) = codeShare d (l.pathTo b) + codeShare d (r.pathTo b) := by
  rw [HuffNode.leaves, List.map_append] at hnodup
  have hdisjoint := List.disjoint_of_nodup_append hnodup
  rw [HuffNode.pathTo]
  cases hl : l.pathTo b with
  | none => cases r.pathTo b <;> simp [codeShare]
  | some p =>
    have hr : r.pathTo b = none := by
      rw [← Option.not_isSome_iff_eq_none, HuffNode.pathTo_isSome_iff]
      exact hdisjoint (HuffNode.pathTo_isSome_iff.1 (Option.isSome_of_eq_some hl))
    simp [codeShare, hr]

/-- The paths of a tree of different symbols share out all words of `d` bits, when no path is longer (R126). -/
theorem sum_codeShare_pathTo {t : HuffNode} (hnodup : (t.leaves.map Prod.fst).Nodup) {d : Nat} (hd : t.leaves.length ≤ d + 1) :
    ((List.range 256).map fun b => codeShare d (t.pathTo (BitVec.ofNat 8 b))).sum = 2 ^ d := by
  induction t generalizing d with
  | leaf s w =>
    have hother : ∀ b ≠ s.toNat, b ∈ List.range 256 → codeShare d ((HuffNode.leaf s w).pathTo (BitVec.ofNat 8 b)) = 0 := by
      intro b hne hb
      have hs : s ≠ BitVec.ofNat 8 b := by
        rw [ne_eq, ← BitVec.toNat_inj, BitVec.toNat_ofNat, Nat.mod_eq_of_lt (List.mem_range.1 hb)]
        exact hne.symm
      simp [HuffNode.pathTo, codeShare, hs]
    rw [List.sum_map_eq_nsmul_single s.toNat _ hother, List.count_eq_one_of_mem List.nodup_range (List.mem_range.2 s.isLt)]
    simp [HuffNode.pathTo, codeShare]
  | internal w l r ihl ihr =>
    have hl := l.leaves_length_pos
    have hr := r.leaves_length_pos
    rw [HuffNode.leaves, List.length_append] at hd
    obtain ⟨d, rfl⟩ := Nat.exists_eq_add_one.2 (show 0 < d by omega)
    simp only [codeShare_pathTo_internal hnodup, List.sum_map_add]
    rw [HuffNode.leaves, List.map_append, List.nodup_append] at hnodup
    obtain ⟨hnodupl, hnodupr, -⟩ := hnodup
    rw [ihl hnodupl (by omega), ihr hnodupr (by omega)]
    omega

/-- What a record of a code table of an Internal root adds to the sum. -/
theorem IsTableOf.codeShare_eq {ct : Vector CodeRec 256} {w : Nat} {l r : HuffNode} (h : IsTableOf ct (.internal w l r))
    (ht : (HuffNode.internal w l r).leaves.length ≤ 256) (b : Byte) :
    (if (ctRead ct b).valid then 2 ^ (255 - (ctRead ct b).len.toNat) else 0) =
      codeShare 255 ((HuffNode.internal w l r).pathTo b) := by
  rw [h b, HuffNode.codeOf]
  cases hp : (HuffNode.internal w l r).pathTo b with
  | none => rfl
  | some p =>
    have hlen : (pathRec p).len.toNat = p.length := Nat.mod_eq_of_lt (Nat.lt_of_lt_of_le (HuffNode.pathTo_length_lt hp) ht)
    rw [Option.elim_some, hlen]
    rfl

/-- Settles O36: with two or more symbols the root is Internal, and the codes are the paths. -/
theorem codesFillTheCodeSpace : Obligations.CodesFillTheCodeSpace := by
  intro s h hct hn
  rw [h.treeOk.nsym_toNat (h.table_of_ctValid hct).1] at hn
  rcases h.table_cases hct with ⟨hempty, -⟩ | ⟨t, ht, htable⟩
  · simp [hempty] at hn
  · cases t with
    | leaf sym w =>
      rw [← ht.leaves_perm.length_eq] at hn
      simp [HuffNode.leaves] at hn
    | internal w l r =>
      simp only [htable.codeShare_eq ht.leaves_length_le]
      exact sum_codeShare_pathTo ht.symbols_nodup ht.leaves_length_le

end Sys2Proof
end

section
/-! PROOFS. The explicit-stack form of MKTAB (R128): the visits it makes, the pending nodes and the path register at every moment,
and the table it ends with. -/

namespace Sys2Proof

open Sys2Proof.Machine

/-! ### The visits of a tree -/

/-- The nodes of the tree at index `i`, each with its distance from the root when `i` has distance `len`, in the order of the walk
(R121). -/
def HuffNode.visits (node : Vector NodeRec 511) : HuffNode → NodeIdx → Nat → List (NodeIdx × Nat)
  | .leaf _ _, i, len => [(i, len)]
  | .internal _ l r, i, len =>
    (i, len) :: (l.visits node (nodeAt node i.toNat).left (len + 1) ++ r.visits node (nodeAt node i.toNat).right (len + 1))

/-- A tree with n Leaves has 2n - 1 nodes (R128). -/
theorem HuffNode.visits_length (node : Vector NodeRec 511) (t : HuffNode) (i : NodeIdx) (len : Nat) :
    (t.visits node i len).length = 2 * t.leaves.length - 1 := by
  induction t generalizing i len with
  | leaf s w => rfl
  | internal w l r ihl ihr =>
    have hl := l.leaves_length_pos
    have hr := r.leaves_length_pos
    rw [HuffNode.visits, HuffNode.leaves, List.length_cons, List.length_append, List.length_append, ihl, ihr]
    omega

/-! ### The nodes still to visit -/

/-- A node still to visit: its index, the tree there, and its path from the root. -/
structure Visit where
  index : NodeIdx
  tree : HuffNode
  path : BitString

/-- What the stack holds for it (R128). -/
def Visit.pair (e : Visit) : NodeIdx × Nat := (e.index, e.path.length)

/-- The arena holds its tree, and none of its Leaves is more than 255 edges from the root (R125). -/
structure Visit.Ok (node : Vector NodeRec 511) (e : Visit) : Prop where
  held : ∃ fuel, treeAt node fuel e.index = some e.tree
  fits : e.path.length + e.tree.leaves.length ≤ 256

/-- `b` is a right child whose sibling, the left child, is `a` or above `a`: what waits on the stack (log entry 14). -/
def Visit.Waits (a b : Visit) : Prop := ∃ q, b.path = q ++ [true] ∧ q ++ [false] <+: a.path

/-- The codes of the tree's Leaves put into a table: "0" for a lone Leaf root, else the paths (R122, R123). -/
def Visit.record (ct : Vector CodeRec 256) (e : Visit) : Vector CodeRec 256 :=
  match e.tree with
  | .leaf s _ => ctWrite ct s (pathRec (if e.path.length = 0 then [false] else e.path))
  | .internal w l r => (HuffNode.internal w l r).recordPaths e.path ct

theorem Visit.record_of_path_ne_nil (ct : Vector CodeRec 256) (e : Visit) (h : e.path ≠ []) :
    e.record ct = e.tree.recordPaths e.path ct := by
  obtain ⟨i, t, p⟩ := e
  cases t with
  | leaf s w => simp [Visit.record, HuffNode.recordPaths, List.length_eq_zero_iff, show p ≠ [] from h]
  | internal w l r => rfl

theorem Visit.record_internal (ct : Vector CodeRec 256) (i j k : NodeIdx) (w : Nat) (l r : HuffNode) (p : BitString) :
    Visit.record ct ⟨i, .internal w l r, p⟩ = Visit.record (Visit.record ct ⟨j, l, p ++ [false]⟩) ⟨k, r, p ++ [true]⟩ := by
  rw [Visit.record_of_path_ne_nil _ ⟨k, r, _⟩ (by simp), Visit.record_of_path_ne_nil _ ⟨j, l, _⟩ (by simp)]
  rfl

/-- The state of the walk fits the nodes still to visit, in their order: the first is the current one and the rest are on the
stack; the path register holds the path of the first, and each later one waits for the earlier ones. -/
inductive Agenda (node : Vector NodeRec 511) (m : MktabMicro) : List Visit → Prop
  | nil (hcur : m.cur = none) (hpending : m.pending = []) : Agenda node m []
  | cons {a : Visit} {rest : List Visit} (hcur : m.cur = some a.pair) (hpending : m.pending = rest.map Visit.pair)
      (hregister : m.path.toList.take a.path.length = a.path) (hok : ∀ e ∈ a :: rest, e.Ok node)
      (hwaits : (a :: rest).Pairwise Visit.Waits) : Agenda node m (a :: rest)

/-! ### The path register -/

theorem take_setEdge {path : Vector Bool 255} {p : BitString} (h : path.toList.take p.length = p) (hp : p.length < 255)
    (v : Bool) : (setEdge path p.length v).toList.take (p ++ [v]).length = p ++ [v] := by
  rw [setEdge, dif_pos hp, Vector.toList_set, List.length_append, List.length_singleton,
    List.take_succ_eq_append_getElem (by simpa using hp), List.take_set_of_le (Nat.le_refl _), h, List.getElem_set_self]

section Walk

variable {node : Vector NodeRec 511} {m : MktabMicro} {rest : List Visit} {todo : List (NodeIdx × Nat)} {ct : Vector CodeRec 256}

/-! ### One visit -/

/-- The next node on the stack becomes the current one, and its path, the sibling's but for the last edge, is in the register. -/
theorem agenda_popPending {a : Visit} (hpending : m.pending = rest.map Visit.pair)
    (hregister : m.path.toList.take a.path.length = a.path) (hok : ∀ e ∈ a :: rest, e.Ok node)
    (hwaits : (a :: rest).Pairwise Visit.Waits) : Agenda node (popPending m) rest := by
  cases rest with
  | nil =>
    rw [popPending, hpending]
    exact .nil rfl rfl
  | cons b rest =>
    obtain ⟨ha, hrest⟩ := List.pairwise_cons.1 hwaits
    obtain ⟨q, hq, hprefix⟩ := ha b List.mem_cons_self
    have hlen : b.path.length = q.length + 1 := by rw [hq, List.length_append, List.length_singleton]
    have hq255 : q.length < 255 := by
      have hfits := (hok b (by simp)).fits
      have hleaves := b.tree.leaves_length_pos
      omega
    have hregisterq : m.path.toList.take q.length = q := by
      obtain ⟨tail, htail⟩ := hprefix
      have hq' := congrArg (List.take q.length) hregister
      rwa [← htail, List.append_assoc, List.take_left, List.take_take, Nat.min_eq_left (by simp)] at hq'
    rw [popPending, hpending]
    refine .cons rfl rfl ?_ (fun e he => hok e (List.mem_cons_of_mem a he)) hrest
    rw [hq]
    simpa [Visit.pair, hlen] using take_setEdge hregisterq hq255 true

theorem mktabVisit_of_leaf {i : NodeIdx} {len : Nat} {r : NodeRec} (hcur : m.cur = some (i, len))
    (hr : nodeRead node i.toNat = some r) (hkind : r.kind = .leaf) :
    mktabVisit node m = popPending { m with ct := ctWrite m.ct r.sym (pathRec (visitCode m.path len)) } := by
  simp only [mktabVisit, hcur, hr, hkind]

theorem mktabVisit_of_internal {i : NodeIdx} {len : Nat} {r : NodeRec} (hcur : m.cur = some (i, len))
    (hr : nodeRead node i.toNat = some r) (hkind : r.kind = .internal) :
    mktabVisit node m =
      { m with cur := some (r.left, len + 1), pending := (r.right, len + 1) :: m.pending, path := setEdge m.path len false } := by
  simp only [mktabVisit, hcur, hr, hkind]

@[simp] theorem popPending_ct (m : MktabMicro) : (popPending m).ct = m.ct := by
  unfold popPending
  split <;> rfl

/-- The visits that the nodes still to visit lead to. -/
def visitsLeft (node : Vector NodeRec 511) (A : List Visit) : List (NodeIdx × Nat) :=
  A.flatMap fun e => e.tree.visits node e.index e.path.length

/-- The Leaves that the nodes still to visit lead to. -/
def leavesLeft (A : List Visit) : Nat := (A.map fun e => e.tree.leaves.length).sum

/-- The code recorded at a Leaf is the one of its path. -/
theorem agenda_visit_leaf {i : NodeIdx} {s : Byte} {w : Nat} {p : BitString}
    (h : Agenda node m (⟨i, .leaf s w, p⟩ :: rest)) :
    Agenda node (mktabVisit node m) rest ∧ (mktabVisit node m).ct = Visit.record m.ct ⟨i, .leaf s w, p⟩ := by
  cases h with
  | cons hcur hpending hregister hok hwaits =>
  obtain ⟨fuel, ht⟩ := (hok _ List.mem_cons_self).held
  obtain ⟨-, r, -, hr, hkind, rfl, -⟩ := nodeRead_of_treeAt_leaf ht
  rw [mktabVisit_of_leaf hcur hr hkind]
  refine ⟨agenda_popPending hpending hregister hok hwaits, ?_⟩
  rw [popPending_ct, visitCode, hregister]
  rfl

/-- The left child of an Internal node is next, and the right child waits. -/
theorem agenda_visit_internal {i : NodeIdx} {w : Nat} {l r : HuffNode} {p : BitString}
    (h : Agenda node m (⟨i, .internal w l r, p⟩ :: rest)) :
    Agenda node (mktabVisit node m)
      (⟨(nodeAt node i.toNat).left, l, p ++ [false]⟩ :: ⟨(nodeAt node i.toNat).right, r, p ++ [true]⟩ :: rest) ∧
      (mktabVisit node m).ct = m.ct := by
  cases h with
  | cons hcur hpending hregister hok hwaits =>
  obtain ⟨⟨fuel, ht⟩, hfits⟩ := hok _ List.mem_cons_self
  obtain ⟨f, c, -, hc, hkind, -, hl, hr⟩ := nodeRead_of_treeAt_internal ht
  have hnode : nodeAt node i.toNat = c := by rw [nodeAt, hc, Option.getD_some]
  obtain ⟨ha, hrest⟩ := List.pairwise_cons.1 hwaits
  have hlpos := l.leaves_length_pos
  have hrpos := r.leaves_length_pos
  have hleaves : p.length + (l.leaves.length + r.leaves.length) ≤ 256 := by simpa [HuffNode.leaves] using hfits
  have hbelow : ∀ v, ∀ b ∈ rest, Visit.Waits ⟨i, .internal w l r, p ++ [v]⟩ b := by
    intro v b hb
    obtain ⟨q, hq, hprefix⟩ := ha b hb
    exact ⟨q, hq, hprefix.trans (List.prefix_append p [v])⟩
  rw [mktabVisit_of_internal hcur hc hkind, hnode]
  refine ⟨.cons ?_ ?_ (take_setEdge hregister (show p.length < 255 by omega) false) ?_ ?_, rfl⟩
  · simp [Visit.pair]
  · simp [Visit.pair, hpending]
  · intro e he
    rcases List.mem_cons.1 he with rfl | he
    · exact ⟨⟨f, hl⟩, by simpa using (show p.length + 1 + l.leaves.length ≤ 256 by omega)⟩
    · rcases List.mem_cons.1 he with rfl | he
      · exact ⟨⟨f, hr⟩, by simpa using (show p.length + 1 + r.leaves.length ≤ 256 by omega)⟩
      · exact hok e (List.mem_cons_of_mem _ he)
  · refine List.pairwise_cons.2 ⟨fun b hb => ?_, List.pairwise_cons.2 ⟨hbelow true, hrest⟩⟩
    rcases List.mem_cons.1 hb with rfl | hb
    · exact ⟨p, rfl, List.prefix_refl _⟩
    · exact hbelow false b hb

/-! ### The walk -/

/-- `m` still has the visits `todo` to make, and has the table `ct` when they are made. -/
def WalkLeft (node : Vector NodeRec 511) (todo : List (NodeIdx × Nat)) (ct : Vector CodeRec 256) (m : MktabMicro) : Prop :=
  ∃ A, Agenda node m A ∧ visitsLeft node A = todo ∧ A.foldl Visit.record m.ct = ct ∧ leavesLeft A ≤ 256

theorem WalkLeft.visit (h : WalkLeft node todo ct m) : WalkLeft node todo.tail ct (mktabVisit node m) := by
  obtain ⟨A, hA, rfl, rfl, hleaves⟩ := h
  match A, hA with
  | [], .nil hcur hpending =>
    have hend : mktabVisit node m = m := by simp only [mktabVisit, hcur]
    exact hend.symm ▸ ⟨[], .nil hcur hpending, rfl, rfl, hleaves⟩
  | ⟨i, .leaf s w, p⟩ :: rest, hA =>
    obtain ⟨hrest, hct⟩ := agenda_visit_leaf hA
    refine ⟨rest, hrest, rfl, by rw [hct]; rfl, ?_⟩
    simp only [leavesLeft, List.map_cons, List.sum_cons] at hleaves ⊢
    omega
  | ⟨i, .internal w l r, p⟩ :: rest, hA =>
    obtain ⟨hchildren, hct⟩ := agenda_visit_internal hA
    refine ⟨_, hchildren, ?_, ?_, ?_⟩
    · simp [visitsLeft, HuffNode.visits]
    · rw [List.foldl_cons, List.foldl_cons, List.foldl_cons, hct, ← Visit.record_internal]
    · simpa [leavesLeft, HuffNode.leaves, Nat.add_assoc] using hleaves

theorem WalkLeft.visits (h : WalkLeft node todo ct m) (n : Nat) : WalkLeft node (todo.drop n) ct (mktabVisits node n m) := by
  induction n generalizing todo m with
  | zero => exact h
  | succ n ih => simpa [mktabVisits, List.drop_tail] using ih h.visit

theorem HuffNode.head?_visits (node : Vector NodeRec 511) (t : HuffNode) (i : NodeIdx) (len : Nat) :
    (t.visits node i len).head? = some (i, len) := by
  cases t <;> rfl

theorem WalkLeft.cur_eq (h : WalkLeft node todo ct m) : m.cur = todo.head? := by
  obtain ⟨A, hA, rfl, -, -⟩ := h
  cases hA with
  | nil hcur => exact hcur
  | cons hcur => simp [hcur, visitsLeft, HuffNode.head?_visits, Visit.pair]

/-- When no visit is left the stack is empty and the table is made. -/
theorem WalkLeft.of_nil (h : WalkLeft node [] ct m) : m.pending = [] ∧ m.ct = ct := by
  have hcur := h.cur_eq
  obtain ⟨A, hA, -, hct, -⟩ := h
  cases hA with
  | nil _ hpending => exact ⟨hpending, hct⟩
  | cons hcur' => cases hcur.symm.trans hcur'

/-- The stack holds at most 255 pairs, and the paths of the current node and of those have at most 255 edges (R46, R128). -/
theorem WalkLeft.bounds (h : WalkLeft node todo ct m) :
    m.pending.length ≤ 255 ∧ (∀ p ∈ m.pending, p.2 ≤ 255) ∧ ∀ p, m.cur = some p → p.2 ≤ 255 := by
  obtain ⟨A, hA, -, -, hleaves⟩ := h
  cases hA with
  | nil hcur hpending => simp [hcur, hpending]
  | @cons a rest hcur hpending _ hok _ =>
    have hpath : ∀ e ∈ a :: rest, e.path.length ≤ 255 := by
      intro e he
      have hfits := (hok e he).fits
      have hpos := e.tree.leaves_length_pos
      omega
    have hlen := List.length_le_sum_of_one_le ((a :: rest).map fun e => e.tree.leaves.length)
      (List.forall_mem_map.2 fun e _ => e.tree.leaves_length_pos)
    rw [List.length_map, List.length_cons] at hlen
    rw [hpending, hcur]
    refine ⟨?_, List.forall_mem_map.2 fun e he => hpath e (List.mem_cons_of_mem a he), ?_⟩
    · rw [List.length_map]
      exact Nat.le_of_succ_le_succ (hlen.trans hleaves)
    · rintro _ ⟨⟩
      exact hpath a List.mem_cons_self

end Walk

/-! ### MKTAB and its stack form (R121, R128) -/

/-- MKTAB writes what the walk from the root records. -/
theorem codeTable_eq_record {node : Vector NodeRec 511} {root : NodeIdx} {t : HuffNode}
    (h : treeAt node 256 root = some t) : codeTable node root true = .ok (Visit.record emptyCt ⟨root, t, []⟩) := by
  cases t with
  | leaf s w =>
    obtain ⟨-, r, -, hr, hkind, rfl, -⟩ := nodeRead_of_treeAt_leaf h
    simp [codeTable, rootedTable, hr, hkind, Visit.record]
  | internal w l t =>
    obtain ⟨-, r, -, hr, hkind, -⟩ := nodeRead_of_treeAt_internal h
    simp [codeTable, rootedTable, hr, hkind, walkTree_of_treeAt h, Visit.record]

/-- The visits of MKTAB in a state: those of the denoted tree, none without a root. -/
def mktabTodo (s : State) : List (NodeIdx × Nat) := (denotedTree s).elim [] fun t => t.visits s.node s.root 0

/-- At the start all visits are to be made, and the walk ends with the table of MKTAB. -/
theorem walkLeft_startMktab {s : State} (h : TreeOk s) (htree : s.treeValid = true) :
    ∃ ct, codeTable s.node s.root s.rootValid = .ok ct ∧
      WalkLeft s.node (mktabTodo s) ct (startMktab s.root s.rootValid) := by
  rcases tree_cases_of_treeOk h htree with ⟨-, hroot⟩ | ⟨t, ht⟩
  · rw [mktabTodo, denotedTree, hroot]
    exact ⟨emptyCt, rfl, [], .nil rfl rfl, rfl, rfl, Nat.zero_le _⟩
  · obtain ⟨hroot, hat⟩ := denotedTree_eq_some_iff.1 ht.denoted
    have hle := ht.leaves_length_le
    rw [mktabTodo, ht.denoted, hroot]
    refine ⟨_, codeTable_eq_record hat, [⟨s.root, t, []⟩], .cons rfl rfl rfl ?_ (List.pairwise_singleton _ _), ?_, rfl, ?_⟩
    · simpa using Visit.Ok.mk (e := ⟨s.root, t, []⟩) ⟨256, hat⟩ (by simpa using hle)
    · simp [visitsLeft]
    · simpa [leavesLeft] using hle

theorem mktabTodo_length {s : State} (h : TreeOk s) (htree : s.treeValid = true) :
    (mktabTodo s).length = 2 * s.nsym.toNat - 1 := by
  rw [h.nsym_toNat htree, mktabTodo]
  rcases tree_cases_of_treeOk h htree with ⟨hempty, hroot⟩ | ⟨t, ht⟩
  · rw [denotedTree, hroot, hempty]
    rfl
  · rw [ht.denoted, Option.elim_some, HuffNode.visits_length, ht.leaves_perm.length_eq]

/-- The node visited after `v` visits. -/
theorem mktabVisits_cur {s : State} (h : TreeOk s) (htree : s.treeValid = true) (v : Nat) :
    (mktabVisits s.node v (startMktab s.root s.rootValid)).cur = (mktabTodo s)[v]? := by
  obtain ⟨ct, -, hwalk⟩ := walkLeft_startMktab h htree
  rw [(hwalk.visits v).cur_eq, List.head?_drop]

/-- Settles O37: each visit of the stack form takes the first of the visits left, of which there are 2n - 1 at the start. -/
theorem mktabStackFormAgrees : Obligations.MktabStackFormAgrees := by
  intro s h he htree
  obtain ⟨ct, hct, hwalk⟩ := walkLeft_startMktab h.treeOk htree
  have hlen := mktabTodo_length h.treeOk htree
  have hend := hwalk.visits (2 * s.nsym.toNat - 1)
  rw [← hlen, List.drop_length, hlen] at hend
  obtain ⟨hpending, htable⟩ := hend.of_nil
  refine ⟨_, exec_mktab_of_codeTable he htree hct, hend.cur_eq, hpending, htable, fun v hv => ?_,
    fun v => (hwalk.visits v).bounds⟩
  rw [mktabVisits_cur h.treeOk htree, ne_eq, List.getElem?_eq_none_iff]
  omega

end Sys2Proof
end

section
/-! PROOFS. The walk of MKTAB visits every valid node of the arena, and each of them once (R110, R128): going up from child to
parent every valid node leads to the root, and there are as many visits as valid nodes. -/

namespace Sys2Proof

open Sys2Proof.Machine

/-! ### The valid places of the arena of BUILD (R36, R110) -/

/-- The places of the Leaves and of the merged nodes (R36). -/
def validPlaces (ft : Vector Word 256) : List Nat := (startMerge ft).pq ++ List.range' 256 ((tableEntries ft).length - 1)

theorem validPlaces_length (ft : Vector Word 256) : (validPlaces ft).length = 2 * (tableEntries ft).length - 1 := by
  rw [validPlaces, List.length_append, startMerge_pq_length, List.length_range']
  omega

theorem validPlaces_nodup (ft : Vector Word 256) : (validPlaces ft).Nodup := by
  refine (startMerge_pq_nodup ft).append List.nodup_range' fun i hi hi' => ?_
  have := lt_of_mem_startMerge_pq hi
  rw [List.mem_range'_1] at hi'
  omega

theorem lt_of_mem_validPlaces {ft : Vector Word 256} {i : Nat} (h : i ∈ validPlaces ft) : i < 511 := by
  have hle := tableEntries_length_le ft
  rcases List.mem_append.1 h with h | h
  · have := lt_of_mem_startMerge_pq h
    omega
  · rw [List.mem_range'_1] at h
    omega

theorem byte_mem_validPlaces {ft : Vector Word 256} {b : Byte} : b.toNat ∈ validPlaces ft ↔ ftRead ft b ≠ 0#32 := by
  have hb := b.isLt
  have hmerged : b.toNat ∉ List.range' 256 ((tableEntries ft).length - 1) := by
    rw [List.mem_range'_1]
    omega
  rw [validPlaces, List.mem_append, or_iff_left hmerged, startMerge_pq]
  simp [BitVec.toNat_inj, mem_tableEntries]

theorem merged_mem_validPlaces {ft : Vector Word 256} {k : Nat} :
    256 + k ∈ validPlaces ft ↔ k + 1 < (tableEntries ft).length := by
  have hbyte : 256 + k ∉ (startMerge ft).pq := fun h => by
    have := lt_of_mem_startMerge_pq h
    omega
  rw [validPlaces, List.mem_append, or_iff_right hbyte, List.mem_range'_1]
  omega

/-- The merged nodes of BUILD are what R110 says, whatever state it runs in. -/
theorem mergedPair_buildTree {ft : Vector Word 256} (hsum : ftSum ft ≤ 2 ^ 32 - 1) {k : Nat}
    (hk : k + 1 < (tableEntries ft).length) : MergedPair (buildTree ft).node k := by
  obtain ⟨t, ht, hpairs⟩ := buildMergesOrderedPairs { State.reset with ft := ft } rfl hsum
  rw [exec_build_of_fits rfl (Nat.lt_of_le_of_lt hsum (by decide))] at ht
  cases ht
  exact hpairs k hk

/-- A record of the arena of BUILD is valid exactly in those places (R36). -/
theorem valid_iff_mem_validPlaces {ft : Vector Word 256} (hsum : ftSum ft ≤ 2 ^ 32 - 1) {i : Nat} {r : NodeRec}
    (hr : nodeRead (buildTree ft).node i = some r) : r.valid = true ↔ i ∈ validPlaces ft := by
  have hi := (nodeRead_some_iff _ i).1 ⟨r, hr⟩
  by_cases h256 : i < 256
  · obtain ⟨b, rfl⟩ : ∃ b : Byte, b.toNat = i := ⟨BitVec.ofNat 8 i, Nat.mod_eq_of_lt h256⟩
    rw [nodeRead_buildTree_byte] at hr
    cases hr
    rw [byte_mem_validPlaces]
    by_cases h0 : ftRead ft b = 0#32 <;> simp [h0, NodeRec.zero, leafRec]
  · obtain ⟨k, rfl⟩ := Nat.exists_eq_add_of_le (Nat.not_lt.1 h256)
    rw [merged_mem_validPlaces]
    by_cases hk : k + 1 < (tableEntries ft).length
    · obtain ⟨r', -, -, hr', -, -, hvalid, -⟩ := mergedPair_buildTree hsum hk
      cases hr.symm.trans hr'
      exact iff_of_true hvalid hk
    · rw [nodeRead_buildTree_unused (Nat.not_lt.1 hk) hi] at hr
      cases hr
      exact iff_of_false nofun hk

/-! ### From a node up to the root -/

theorem eq_rootOf_of_mem {pq : List Nat} (hlen : pq.length ≤ 1) {i : NodeIdx} (hi : i ∈ pq.map (BitVec.ofNat 9)) :
    i = rootOf pq := by
  match pq with
  | [] => exact absurd hi List.not_mem_nil
  | [j] => exact List.mem_singleton.1 hi

/-- A valid node is the root or a child of a merged node (R110). -/
theorem root_or_child_of_mem_validPlaces {ft : Vector Word 256} {i : NodeIdx} (h : i.toNat ∈ validPlaces ft) :
    i = (buildTree ft).root ∨ ∃ k, k + 1 < (tableEntries ft).length ∧ i ∈ childrenAt (buildTree ft).node k := by
  have hperm := placesUsed_mergeLoop ft
  rw [PlacesUsed, mergeLoop_startMerge_k] at hperm
  have hmem := hperm.mem_iff.2 (List.mem_map_of_mem (f := BitVec.ofNat 9) h)
  rw [BitVec.ofNat_toNat, BitVec.setWidth_eq] at hmem
  rcases List.mem_append.1 hmem with hchild | hroot
  · obtain ⟨k, hk, hchild⟩ := List.mem_flatMap.1 hchild
    rw [List.mem_range] at hk
    exact .inr ⟨k, by omega, hchild⟩
  · refine .inl (eq_rootOf_of_mem ?_ hroot)
    rw [mergeLoop_startMerge_pq_length]
    exact Nat.min_le_right _ _

/-- A child of a merged node is at a lower place, and the node is Internal (R110). -/
theorem MergedPair.child_lt {node : Vector NodeRec 511} {k : Nat} (h : MergedPair node k) {i : NodeIdx}
    (hi : i ∈ childrenAt node k) :
    (nodeAt node (256 + k)).kind = .internal ∧ i.toNat < 256 + k := by
  obtain ⟨r, -, -, hr, -, -, -, hkind, -, -, -, hleft, hright, -⟩ := h
  have hnode : nodeAt node (256 + k) = r := by rw [nodeAt, hr, Option.getD_some]
  rw [childrenAt, hnode] at hi
  rw [hnode]
  refine ⟨hkind, ?_⟩
  rcases List.mem_pair.1 hi with rfl | rfl
  · exact hleft
  · exact hright

theorem HuffNode.root_mem_visits (node : Vector NodeRec 511) (t : HuffNode) (i : NodeIdx) (len : Nat) :
    i ∈ (t.visits node i len).map Prod.fst :=
  List.mem_map.2 ⟨(i, len), List.mem_of_mem_head? (HuffNode.head?_visits node t i len), rfl⟩

/-- With an Internal node its children are visited. -/
theorem HuffNode.visits_child {node : Vector NodeRec 511} {fuel : Nat} {t : HuffNode} {i j : NodeIdx} {len : Nat}
    (h : treeAt node fuel i = some t) (hj : j ∈ (t.visits node i len).map Prod.fst)
    (hkind : (nodeAt node j.toNat).kind = .internal) {c : NodeIdx}
    (hc : c = (nodeAt node j.toNat).left ∨ c = (nodeAt node j.toNat).right) : c ∈ (t.visits node i len).map Prod.fst := by
  induction t generalizing fuel i len with
  | leaf s w =>
    obtain ⟨-, r, -, hr, hleaf, -⟩ := nodeRead_of_treeAt_leaf h
    obtain rfl := List.mem_singleton.1 hj
    rw [nodeAt, hr, Option.getD_some, hleaf] at hkind
    cases hkind
  | internal w l r ihl ihr =>
    obtain ⟨f, record, -, hrecord, -, -, hl, hr⟩ := nodeRead_of_treeAt_internal h
    have hnode : nodeAt node i.toNat = record := by rw [nodeAt, hrecord, Option.getD_some]
    rw [← hnode] at hl hr
    rw [HuffNode.visits, List.map_cons, List.map_append, List.mem_cons, List.mem_append] at hj ⊢
    rcases hj with rfl | hj | hj
    · rcases hc with rfl | rfl
      · exact .inr (.inl (l.root_mem_visits node _ _))
      · exact .inr (.inr (r.root_mem_visits node _ _))
    · exact .inr (.inl (ihl hl hj))
    · exact .inr (.inr (ihr hr hj))

/-- Every valid node is visited: its parent, at a higher place, is. -/
theorem mem_visits_of_mem_validPlaces {ft : Vector Word 256} (hsum : ftSum ft ≤ 2 ^ 32 - 1) {t : HuffNode}
    (ht : treeAt (buildTree ft).node 256 (buildTree ft).root = some t) {i : NodeIdx} (hi : i.toNat ∈ validPlaces ft) :
    i ∈ (t.visits (buildTree ft).node (buildTree ft).root 0).map Prod.fst := by
  induction hd : 511 - i.toNat using Nat.strong_induction_on generalizing i with
  | h d ih =>
    rcases root_or_child_of_mem_validPlaces hi with rfl | ⟨k, hk, hchild⟩
    · exact t.root_mem_visits _ _ 0
    · obtain ⟨hkind, hlt⟩ := (mergedPair_buildTree hsum hk).child_lt hchild
      have hplace := merged_mem_validPlaces.2 hk
      have hparent : (BitVec.ofNat 9 (256 + k)).toNat = 256 + k :=
        Nat.mod_eq_of_lt (Nat.lt_succ_of_lt (lt_of_mem_validPlaces hplace))
      have hvisited := ih (511 - (256 + k)) (by have := lt_of_mem_validPlaces hplace; omega) (hparent.symm ▸ hplace)
        (congrArg (511 - ·) hparent)
      refine HuffNode.visits_child ht hvisited (hparent.symm ▸ hkind) ?_
      rw [hparent]
      exact List.mem_pair.1 hchild

/-! ### The visits and the valid nodes -/

/-- The visits are of the valid nodes, one each: all of those are visited, and there are as many of the one as of the other. -/
theorem mktabTodo_perm_validPlaces {s : State} (h : TreeOk s) (htree : s.treeValid = true) :
    ((mktabTodo s).map fun p => p.1.toNat).Perm (validPlaces s.ft) := by
  have hlen : ((mktabTodo s).map fun p => p.1.toNat).length = (validPlaces s.ft).length := by
    rw [List.length_map, mktabTodo_length h htree, h.nsym_toNat htree, validPlaces_length]
  have hsubset : validPlaces s.ft ⊆ (mktabTodo s).map fun p => p.1.toNat := by
    intro i hi
    obtain ⟨hsum, hnode, -, hroot, -⟩ := h htree
    rcases tree_cases_of_treeOk h htree with ⟨hempty, -⟩ | ⟨t, ht⟩
    · have hnil : validPlaces s.ft = [] := by rw [← List.length_eq_zero_iff, validPlaces_length, hempty]; rfl
      exact absurd (hnil ▸ hi) List.not_mem_nil
    · have hat := (denotedTree_eq_some_iff.1 ht.denoted).2
      have hi' : (BitVec.ofNat 9 i).toNat = i := Nat.mod_eq_of_lt (Nat.lt_succ_of_lt (lt_of_mem_validPlaces hi))
      rw [hnode, hroot] at hat
      have hmem := mem_visits_of_mem_validPlaces hsum hat (hi'.symm ▸ hi)
      rw [← hnode, ← hroot] at hmem
      obtain ⟨p, hp, hpi⟩ := List.mem_map.1 hmem
      rw [mktabTodo, ht.denoted]
      exact List.mem_map.2 ⟨p, hp, hpi ▸ hi'⟩
  exact ((List.subperm_of_subset (validPlaces_nodup s.ft) hsubset).perm_of_length_le hlen.le).symm

/-- Settles O60: the node visited after v visits is the v-th of the visits, which are of the valid nodes, one each. -/
theorem mktabVisitsEachNodeOnce : Obligations.MktabVisitsEachNodeOnce := by
  intro s h htree
  have hperm := mktabTodo_perm_validPlaces h.treeOk htree
  simp only [mktabVisits_cur h.treeOk htree]
  refine ⟨fun v w p q hp hq hpq => ?_, fun i r hr => ?_⟩
  · have hnodup := hperm.nodup_iff.2 (validPlaces_nodup s.ft)
    obtain ⟨hv, -⟩ := List.getElem?_eq_some_iff.1 hp
    refine (List.getElem?_inj (by rwa [List.length_map]) hnodup).1 ?_
    rw [List.getElem?_map, List.getElem?_map, hp, hq]
    exact congrArg (fun j => some (BitVec.toNat j)) hpq
  · obtain ⟨hsum, hnode, -⟩ := h.treeOk htree
    rw [hnode] at hr
    rw [valid_iff_mem_validPlaces hsum hr, ← hperm.mem_iff]
    simp [List.mem_iff_getElem?, BitVec.toNat_inj]

end Sys2Proof
end

section
/-! PROOFS. The statements of 43_encode: what ENCODE lays down (R132, R133), the first byte at which it raises (R134, R135), and
the loop of R131 as written, bit by bit. -/

namespace Sys2Proof

open Sys2Proof.Machine

/-! ### The loop writing bit by bit (R131, R138) -/

/-- What a run of bit writes leaves at each position. -/
theorem bitRead_bitWriteList (vs : BitString) (m : Memory) (pos k : Nat) :
    bitRead (bitWriteList m pos vs) k = if pos ≤ k then (vs[k - pos]?).getD (bitRead m k) else bitRead m k := by
  induction vs generalizing m pos with
  | nil => simp [bitWriteList]
  | cons v vs ih =>
    rw [bitWriteList, ih, bitRead_bitWrite]
    rcases Nat.lt_trichotomy k pos with h | rfl | h
    · rw [if_neg (by omega), if_neg (by omega), if_neg (by omega)]
    · simp
    · rw [if_pos (by omega), if_neg (by omega), if_pos (by omega), show k - pos = k - (pos + 1) + 1 by omega,
        List.getElem?_cons_succ]

theorem bitWriteList_append (xs ys : BitString) (m : Memory) (pos : Nat) :
    bitWriteList m pos (xs ++ ys) = bitWriteList (bitWriteList m pos xs) (pos + xs.length) ys := by
  induction xs generalizing m pos with
  | nil => rfl
  | cons x xs ih => rw [List.cons_append, bitWriteList, ih, bitWriteList, List.length_cons, Nat.add_right_comm, Nat.add_assoc]

/-- How the bit-by-bit loop ends from `pos` and `mem` on, when the loop over the codes ends as given. -/
def microEnd (pos : Nat) (mem : Memory) : EncodeEnd → EncodeMicroEnd
  | .done str => .done (padZeros (bitWriteList mem pos str) (pos + str.length)) (pos + str.length)
  | .mismatch i b => .mismatch i b
  | .overflow i b => .overflow i b

theorem microEnd_prependCode (pos : Nat) (mem : Memory) (code : BitString) (e : EncodeEnd) :
    microEnd pos mem (prependCode code e) = microEnd (pos + code.length) (bitWriteList mem pos code) e := by
  cases e with
  | done str => rw [prependCode, microEnd, microEnd, bitWriteList_append, List.length_append, Nat.add_assoc]
  | mismatch i b => rfl
  | overflow i b => rfl

/-- The simulation: the two loops take the same branch at every byte. -/
theorem encodeMicro_eq_microEnd (ct : Vector CodeRec 256) (maxBits : Nat) (bytes : List Byte) (i pos : Nat) (mem : Memory) :
    encodeMicro ct maxBits bytes { i := i, pos := pos, mem := mem } =
      microEnd pos mem (encodeFrom ct maxBits bytes i pos) := by
  induction bytes generalizing i pos mem with
  | nil => rfl
  | cons b bytes ih =>
    rw [encodeMicro, encodeFrom]
    by_cases hvalid : (ctRead ct b).valid = true
    · by_cases hroom : maxBits < pos + (ctRead ct b).len.toNat
      · simp only [if_pos hvalid, if_pos hroom, microEnd]
      · simp only [if_pos hvalid, if_neg hroom, microEnd_prependCode, codeBits_length, ih]
    · simp only [if_neg hvalid, microEnd]

/-! ### Bit by bit and packed, the same bytes (R131, R133) -/

/-- A byte is its eight bits (R55). -/
theorem memRead_eq_of_bitRead_eq {m m' : Memory} (h : ∀ k, bitRead m k = bitRead m' k) (j : Nat) :
    memRead m j = memRead m' j := by
  refine BitVec.eq_of_getLsbD_eq fun q hq => ?_
  have hbit := h (8 * j + (7 - q))
  rwa [bitRead, bitRead, show (8 * j + (7 - q)) / 8 = j by omega, show 7 - (8 * j + (7 - q)) % 8 = q by omega] at hbit

/-- Past the last packed byte every bit is as before (R133). -/
theorem bitRead_memWriteList_packBits_past (m : Memory) {s : BitString} {k : Nat} (hk : 8 * ((s.length + 7) / 8) ≤ k) :
    bitRead (memWriteList m 0 (packBits s)) k = bitRead m k := by
  rw [bitRead, memRead_memWriteList_packBits, if_neg (by omega), bitRead]

/-- The bits of a string and then its padding, written one by one, leave the bytes that the packed string leaves. -/
theorem memRead_padZeros_bitWriteList (m : Memory) (s : BitString) (j : Nat) :
    memRead (padZeros (bitWriteList m 0 s) s.length) j = memRead (memWriteList m 0 (packBits s)) j := by
  refine memRead_eq_of_bitRead_eq (fun k => ?_) j
  rw [padZeros, bitRead_bitWriteList, bitRead_bitWriteList, if_pos k.zero_le, Nat.sub_zero]
  rcases Nat.lt_or_ge k s.length with hcode | hcode
  · rw [if_neg (by omega), bitRead_memWriteList_packBits m hcode, List.getD_eq_getElem?_getD,
      List.getElem?_eq_getElem hcode, Option.getD_some, Option.getD_some]
  · rw [if_pos hcode, List.getElem?_eq_none hcode, Option.getD_none]
    rcases Nat.lt_or_ge k (8 * ((s.length + 7) / 8)) with hpad | hpast
    · rw [bitRead_padding m hcode hpad, List.getElem?_replicate_of_lt (by omega), Option.getD_some]
    · rw [bitRead_memWriteList_packBits_past m hpast, List.getElem?_eq_none (by rw [List.length_replicate]; omega),
        Option.getD_none]

/-- Settles O40: by induction over the input the two loops end alike, and the bits written are those of the packed bytes. -/
theorem encodeBitByBitAgrees : Obligations.EncodeBitByBitAgrees := by
  intro s
  rw [encodeMicro_eq_microEnd]
  cases encodeFrom s.ct s.params.maxBits (inputBytes s) 0 0 with
  | done str =>
    rw [microEnd, Nat.zero_add]
    exact ⟨_, rfl, memRead_padZeros_bitWriteList s.bits str⟩
  | mismatch i b => rfl
  | overflow i b => rfl

/-! ### What ENCODE lays down (R132, R133) -/

theorem codesOf_length (ct : Vector CodeRec 256) (bytes : List Byte) :
    (codesOf ct bytes).length = (bytes.map fun b => (ctRead ct b).len.toNat).sum := by
  simp only [codesOf, List.length_flatMap, codeBits_length]

/-- Settles O38: ENCODE stores the packed codes, which read back bit by bit. -/
theorem encodeConcatenatesCodes : Obligations.EncodeConcatenatesCodes := by
  intro s hp he hct hlen hcoded hfit
  obtain ⟨hbits, hpadding, hpast⟩ := packedSequenceReadsBack s.bits (codesOf s.ct (inputBytes s))
  have hn : (BitVec.ofNat 32 (codesOf s.ct (inputBytes s)).length).toNat = (codesOf s.ct (inputBytes s)).length :=
    Nat.mod_eq_of_lt (hfit.trans_lt (Params.maxBits_lt_of_wf hp))
  refine ⟨_, _, exec_encode_of_fits he hct hlen hcoded hfit, hn, hn.trans (codesOf_length _ _), ?_⟩
  rw [hn]
  exact ⟨hbits, hpadding, hpast⟩

/-! ### The first byte at which ENCODE raises (R134, R135) -/

theorem exec_encode_of_tabled {s : State} (he : s.err = 0#4) (hct : s.ctValid = true) (hlen : s.ilen.toNat ≤ s.params.maxLen) :
    exec .encode s = .next (finishEncode s (encodeFrom s.ct s.params.maxBits (inputBytes s) 0 0)) := by
  show execEncode s = _
  rw [execEncode, unlessPending_of_clear he, if_pos hct, if_neg (Nat.not_lt.2 hlen)]

theorem prependCode_nil (e : EncodeEnd) : prependCode [] e = e := by cases e <;> rfl

theorem prependCode_append (c d : BitString) (e : EncodeEnd) :
    prependCode (c ++ d) e = prependCode c (prependCode d e) := by
  cases e with
  | done bits => rw [prependCode, prependCode, prependCode, List.append_assoc]
  | mismatch i b => rfl
  | overflow i b => rfl

/-- Over coded bytes whose codes fit the loop goes on to the bytes after them (R131). -/
theorem encodeFrom_append {ct : Vector CodeRec 256} {maxBits : Nat} {pre : List Byte} {i pos : Nat} (rest : List Byte)
    (hcoded : allCoded ct pre) (hfit : pos + (codesOf ct pre).length ≤ maxBits) :
    encodeFrom ct maxBits (pre ++ rest) i pos =
      prependCode (codesOf ct pre) (encodeFrom ct maxBits rest (i + pre.length) (pos + (codesOf ct pre).length)) := by
  induction pre generalizing i pos with
  | nil => exact (prependCode_nil _).symm
  | cons b pre ih =>
    rw [codesOf_cons, List.length_append, codeBits_length] at hfit
    rw [List.cons_append, encodeFrom, if_pos (hcoded b List.mem_cons_self), if_neg (by omega),
      ih (fun c hc => hcoded c (List.mem_cons_of_mem b hc)) (by omega), codesOf_cons, prependCode_append, List.length_append,
      codeBits_length, List.length_cons, Nat.add_assoc i, Nat.add_comm 1, Nat.add_assoc pos]

/-- Settles O39: the loop comes to the first bad byte, and ends there with its error and index. -/
theorem encodeRaisesAtTheFirstBadByte : Obligations.EncodeRaisesAtTheFirstBadByte := by
  intro s pre post b he hct hlen hinput hcoded hfit
  have hexec := exec_encode_of_tabled he hct hlen
  rw [hinput, encodeFrom_append _ hcoded (by omega), Nat.zero_add, Nat.zero_add, encodeFrom] at hexec
  refine ⟨fun hinvalid => ⟨(forgetBits s).bits, ?_⟩, fun hvalid hroom => ⟨(forgetBits s).bits, ?_⟩⟩
  · rwa [hinvalid, if_neg Bool.false_ne_true] at hexec
  · rwa [if_pos hvalid, if_pos hroom] at hexec

end Sys2Proof
end

section
/-! PROOFS. The statements of 44_decode: every bit string is read as codes of the tree up to where no further code stands, so a
DECODE either emits EXPLEN symbols (R142, R146, R152) or comes to the end of the sequence or to a 1 at a lone Leaf (R147). -/

namespace Sys2Proof

open Sys2Proof.Machine

/-! ### The checks (R141), expected length 0 (R143) and the empty tree (R145) -/

/-- No error is pending and the three checks of DECODE pass (R141). -/
structure DecodeChecked (s : State) : Prop where
  err_eq : s.err = 0#4
  treeValid : s.treeValid = true
  explen_le : s.explen.toNat ≤ s.params.maxLen
  blen_le : s.blen.toNat ≤ s.params.maxBits

theorem DecodeChecked.exec_eq {s : State} (h : DecodeChecked s) : exec .decode s = runWalk s := by
  show execDecode s = _
  rw [execDecode, unlessPending_of_clear h.err_eq, if_pos h.treeValid, if_neg (Nat.not_lt.2 h.explen_le),
    if_neg (Nat.not_lt.2 h.blen_le)]

/-- Settles O41: with no symbol expected the walk is skipped. -/
theorem decodeOfLengthZero : Obligations.DecodeOfLengthZero := by
  intro s he htree hzero hblen
  have hchecked : DecodeChecked s := ⟨he, htree, by simp [hzero], hblen⟩
  rw [hchecked.exec_eq, runWalk, if_pos (by simp [hzero]), storeOutput, hzero]
  rfl

theorem DecodeChecked.exec_of_empty {s : State} (h : DecodeChecked s) (hroot : s.rootValid = false)
    (hpos : s.explen.toNat ≠ 0) : exec .decode s = .next (raiseError (.decode 0) .corruptArtifact 0 0 s) := by
  rw [h.exec_eq, runWalk, if_neg hpos, hroot, if_neg Bool.false_ne_true]

/-- Settles O42: with a symbol expected the walk needs a root. -/
theorem decodeOfEmptyTree : Obligations.DecodeOfEmptyTree := fun _ he htree hroot hpos hexp hblen =>
  DecodeChecked.exec_of_empty ⟨he, htree, hexp, hblen⟩ hroot hpos.ne'

/-! ### A bit string read as codes of a tree (R126) -/

theorem HuffNode.exists_pathTo (t : HuffNode) : ∃ b p, t.pathTo b = some p := by
  induction t with
  | leaf s w => exact ⟨s, [], if_pos rfl⟩
  | internal w l r ihl ihr =>
    obtain ⟨b, p, hp⟩ := ihl
    exact ⟨b, false :: p, by rw [HuffNode.pathTo, hp]⟩

/-- A path in a child is, after the bit that leads there, a path in the tree, where no symbol stands at two Leaves. -/
theorem HuffNode.pathTo_internal_of_child {w : Nat} {l r : HuffNode}
    (hnodup : ((HuffNode.internal w l r).leaves.map Prod.fst).Nodup) {v : Bool} {b : Byte} {p : BitString}
    (hp : (bif v then r else l).pathTo b = some p) : (HuffNode.internal w l r).pathTo b = some (v :: p) := by
  rw [HuffNode.pathTo]
  cases v with
  | false =>
    rw [show l.pathTo b = some p from hp]
  | true =>
    have hr : r.pathTo b = some p := hp
    have hl : l.pathTo b = none := by
      rw [← Option.not_isSome_iff_eq_none, HuffNode.pathTo_isSome_iff]
      intro hmem
      rw [HuffNode.leaves, List.map_append] at hnodup
      exact List.disjoint_of_nodup_append hnodup hmem (HuffNode.pathTo_isSome_iff.1 (Option.isSome_of_eq_some hr))
    rw [hl, hr, Option.map_some]

/-- Every bit string starts with a path to a Leaf or ends inside one. -/
theorem HuffNode.pathTo_cases {t : HuffNode} (hnodup : (t.leaves.map Prod.fst).Nodup) (bits : BitString) :
    (∃ b p rest, t.pathTo b = some p ∧ bits = p ++ rest) ∨ ∃ b q, q ≠ [] ∧ t.pathTo b = some (bits ++ q) := by
  induction t generalizing bits with
  | leaf s w => exact .inl ⟨s, [], bits, if_pos rfl, rfl⟩
  | internal w l r ihl ihr =>
    cases bits with
    | nil =>
      obtain ⟨b, p, hp⟩ := l.exists_pathTo
      exact .inr ⟨b, false :: p, List.cons_ne_nil _ _, HuffNode.pathTo_internal_of_child hnodup (v := false) hp⟩
    | cons v bits =>
      have hchild : (∃ b p rest, (bif v then r else l).pathTo b = some p ∧ bits = p ++ rest) ∨
          ∃ b q, q ≠ [] ∧ (bif v then r else l).pathTo b = some (bits ++ q) := by
        have hnodup' := hnodup
        rw [HuffNode.leaves, List.map_append] at hnodup'
        cases v
        · exact ihl hnodup'.of_append_left bits
        · exact ihr hnodup'.of_append_right bits
      rcases hchild with ⟨b, p, rest, hp, rfl⟩ | ⟨b, q, hq, hp⟩
      · exact .inl ⟨b, v :: p, rest, HuffNode.pathTo_internal_of_child hnodup hp, rfl⟩
      · exact .inr ⟨b, q, hq, HuffNode.pathTo_internal_of_child hnodup hp⟩

/-- No code of the tree stands at the front of the bits: they end inside a code, or the tree is a lone Leaf and they start with
a 1 (R147). -/
def NoFurtherCode (t : HuffNode) (bits : BitString) : Prop :=
  (∃ b q, q ≠ [] ∧ t.codeOf b = some (bits ++ q)) ∨ ∃ y w rest, t = .leaf y w ∧ bits = true :: rest

theorem HuffNode.codeOf_cases {t : HuffNode} (hnodup : (t.leaves.map Prod.fst).Nodup) (bits : BitString) :
    (∃ b p rest, t.codeOf b = some p ∧ bits = p ++ rest) ∨ NoFurtherCode t bits := by
  cases t with
  | leaf s w =>
    have hcode : (HuffNode.leaf s w).codeOf s = some [false] := if_pos rfl
    match bits with
    | [] => exact .inr (.inl ⟨s, [false], List.cons_ne_nil _ _, hcode⟩)
    | false :: rest => exact .inl ⟨s, [false], rest, hcode, rfl⟩
    | true :: rest => exact .inr (.inr ⟨s, w, rest, rfl, rfl⟩)
  | internal w l r => exact (HuffNode.pathTo_cases hnodup bits).imp_right .inl

/-- The table of a tree holds the tree's code of each symbol (R122, R123). -/
theorem IsTableOf.codeBits_of_codeOf {ct : Vector CodeRec 256} {t : HuffNode} (h : IsTableOf ct t)
    (ht : t.leaves.length ≤ 256) {b : Byte} {p : BitString} (hp : t.codeOf b = some p) :
    (ctRead ct b).valid = true ∧ codeBits (ctRead ct b) = p := by
  have hv := h.valid_of_mem (HuffNode.codeOf_isSome_iff.1 (Option.isSome_of_eq_some hp))
  exact ⟨hv, Option.some.inj ((h.codeOf_of_valid ht hv).symm.trans hp)⟩

/-- Every bit string is the codes of some symbols and then other bits: of `n` symbols, or of fewer where no further code stands
after them. -/
theorem TreeOfTable.exists_codesOf {s : State} {t : HuffNode} (h : TreeOfTable s t) {ct : Vector CodeRec 256}
    (hct : IsTableOf ct t) (n : Nat) (bits : BitString) :
    ∃ syms rest, allCoded ct syms ∧ bits = codesOf ct syms ++ rest ∧
      (syms.length = n ∨ syms.length < n ∧ NoFurtherCode t rest) := by
  induction n generalizing bits with
  | zero => exact ⟨[], bits, nofun, rfl, .inl rfl⟩
  | succ n ih =>
    rcases HuffNode.codeOf_cases h.symbols_nodup bits with ⟨b, p, more, hp, rfl⟩ | hno
    · obtain ⟨syms, rest, hall, rfl, hend⟩ := ih more
      obtain ⟨hv, rfl⟩ := hct.codeBits_of_codeOf h.leaves_length_le hp
      refine ⟨b :: syms, rest, List.forall_mem_cons.2 ⟨hv, hall⟩, ?_, ?_⟩
      · rw [codesOf_cons, List.append_assoc]
      · rw [List.length_cons]
        exact hend.imp (congrArg (· + 1)) (And.imp_left Nat.succ_lt_succ)
    · exact ⟨[], bits, nofun, rfl, .inr ⟨n.succ_pos, hno⟩⟩

/-! ### The walk after some codes (R142, R147) -/

/-- The codes of no more symbols than are expected emit them one after another, and the walk is at the root again. -/
theorem decodeFrom_codesOf_append {node : Vector NodeRec 511} {root : NodeIdx} {fuel : Nat} {t : HuffNode}
    (h : treeAt node fuel root = some t) {ct : Vector CodeRec 256} {syms : List Byte}
    (hcode : ∀ b ∈ syms, t.codeOf b = some (codeBits (ctRead ct b))) {expLen : Nat} (rest : BitString) {bpos : Nat}
    {out : List Byte} (hout : out.length + syms.length ≤ expLen) :
    decodeFrom node root expLen (codesOf ct syms ++ rest) { cur := root, bpos := bpos, out := out } =
      decodeFrom node root expLen rest
        { cur := root, bpos := bpos + (codesOf ct syms).length, out := out ++ syms } := by
  induction syms generalizing bpos out with
  | nil => rw [List.append_nil]; rfl
  | cons b syms ih =>
    rw [List.length_cons] at hout
    rw [codesOf_cons, List.append_assoc, decodeFrom_code h (hcode b List.mem_cons_self) _ rfl
        (show out.length < expLen by omega), afterCode,
      ih (fun c hc => hcode c (List.mem_cons_of_mem b hc)) (by simp only [List.length_append, List.length_singleton]; omega),
      List.append_assoc, List.singleton_append, List.length_append, Nat.add_assoc]

/-- Inside a code the walk goes on to the end of the sequence and emits nothing (R150). -/
theorem decodeFrom_path_prefix {node : Vector NodeRec 511} {root : NodeIdx} {rootRec : NodeRec}
    (hroot : nodeRead node root.toNat = some rootRec) (hkind : rootRec.kind = .internal) {expLen : Nat} {b : Byte}
    {p q : BitString} (hq : q ≠ []) {fuel wt : Nat} {l r : HuffNode} {w : Walker}
    (h : treeAt node fuel w.cur = some (.internal wt l r)) (hp : (HuffNode.internal wt l r).pathTo b = some (p ++ q))
    (hout : w.out.length < expLen) :
    decodeFrom node root expLen p w = .corrupt w.out.length (w.bpos + p.length) := by
  induction p generalizing fuel wt l r w with
  | nil => rw [decodeFrom, if_pos hout]; rfl
  | cons v p ih =>
    rw [List.cons_append] at hp
    obtain ⟨c, v', q', f, t, hc, hvq, ht, hq'⟩ := exists_child_of_pathTo h hp
    obtain ⟨rfl, rfl⟩ := List.cons.inj hvq
    cases t with
    | leaf s ws => simp [HuffNode.pathTo, hq] at hq'
    | internal wi li ri =>
      obtain ⟨-, k, -, hk, hkk, -⟩ := nodeRead_of_treeAt_internal ht
      rw [decodeFrom, if_pos hout]
      simp only [decodeBit, hroot, hkind, moveBit, hc, hk, hkk]
      rw [ih (w := { w with cur := if v then c.right else c.left, bpos := w.bpos + 1 }) ht hq' hout, List.length_cons,
        Nat.add_right_comm, Nat.add_assoc]

/-- From the root a sequence that ends inside a code raises CorruptArtifact at its end (R147). -/
theorem decodeFrom_code_prefix {node : Vector NodeRec 511} {root : NodeIdx} {fuel : Nat} {t : HuffNode}
    (h : treeAt node fuel root = some t) {b : Byte} {p q : BitString} (hp : t.codeOf b = some (p ++ q)) (hq : q ≠ [])
    {expLen : Nat} {w : Walker} (hcur : w.cur = root) (hout : w.out.length < expLen) :
    decodeFrom node root expLen p w = .corrupt w.out.length (w.bpos + p.length) := by
  cases t with
  | leaf s ws =>
    obtain ⟨-, hcode⟩ := HuffNode.codeOf_leaf_eq_some hp
    have hlen := congrArg List.length hcode
    have hpos := List.length_pos_of_ne_nil hq
    rw [List.length_append, List.length_singleton] at hlen
    obtain rfl : p = [] := List.eq_nil_of_length_eq_zero (by omega)
    rw [decodeFrom, if_pos hout]
    rfl
  | internal wi li ri =>
    obtain ⟨-, k, -, hk, hkk, -⟩ := nodeRead_of_treeAt_internal h
    exact decodeFrom_path_prefix hk hkk hq (hcur.symm ▸ h) hp hout

/-- At a lone Leaf a 1 raises CorruptArtifact (R144). -/
theorem decodeFrom_one_of_leaf {node : Vector NodeRec 511} {root : NodeIdx} {fuel : Nat} {y : Byte} {wt : Nat}
    (h : treeAt node fuel root = some (.leaf y wt)) (rest : BitString) {expLen : Nat} {w : Walker}
    (hout : w.out.length < expLen) :
    decodeFrom node root expLen (true :: rest) w = .corrupt w.out.length (w.bpos + 1) := by
  obtain ⟨-, k, -, hk, hkk, -⟩ := nodeRead_of_treeAt_leaf h
  rw [decodeFrom, if_pos hout]
  simp only [decodeBit, hk, hkk]
  rfl

/-! ### DECODE on a sequence that starts with codes (R142, R147) -/

section AfterCodes

variable {s : State} {ct : Vector CodeRec 256} {syms : List Byte}

/-- In a state of the invariant the coded symbols have their codes in the denoted tree. -/
theorem TreeOk.codedBy (h : TreeOk s) (htree : s.treeValid = true) (hct : codeTable s.node s.root s.rootValid = .ok ct)
    (hall : allCoded ct syms) (hne : syms ≠ []) : CodedBy s ct syms := by
  rcases tree_cases_of_treeOk h htree with ⟨-, hroot⟩ | ⟨t, ht⟩
  · obtain ⟨b, hb⟩ := List.exists_mem_of_ne_nil syms hne
    have hvalid := hall b hb
    rw [hroot] at hct
    rw [← Except.ok.inj hct, ctRead_emptyCt] at hvalid
    cases hvalid
  · exact ⟨t, ht.denoted, fun b hb => (ht.isTableOf hct).codeOf_of_valid ht.leaves_length_le (hall b hb)⟩

/-- Each code has at least one bit (R152). -/
theorem CodedBy.length_le (h : CodedBy s ct syms) : syms.length ≤ (codesOf ct syms).length := by
  obtain ⟨t, -, hcodes⟩ := h
  have hone : ∀ n ∈ syms.map fun b => (ctRead ct b).len.toNat, 1 ≤ n := List.forall_mem_map.2 fun b hb => by
    rw [← codeBits_length]
    exact HuffNode.codeOf_length_pos (hcodes b hb)
  rw [codesOf_length]
  exact (List.length_map _).symm.trans_le (List.length_le_sum_of_one_le _ hone)

/-- DECODE passes its checks, and the bit sequence starts with the codes of EXPLEN symbols. -/
structure DecodesTo (s : State) (ct : Vector CodeRec 256) (syms : List Byte) : Prop where
  checked : DecodeChecked s
  coded : syms ≠ [] → CodedBy s ct syms
  length_eq : syms.length = s.explen.toNat
  codes_prefix : codesOf ct syms <+: bitSequence s

theorem DecodesTo.exec_eq (h : DecodesTo s ct syms) :
    exec .decode s = .next (storeOutput syms (codesOf ct syms).length s) := by
  obtain ⟨rest, hbits⟩ := h.codes_prefix
  exact exec_decode_of_codesOf h.checked.err_eq h.checked.treeValid h.checked.explen_le h.checked.blen_le h.coded
    h.length_eq hbits.symm

theorem DecodesTo.codes_le_blen (h : DecodesTo s ct syms) : (codesOf ct syms).length ≤ s.blen.toNat :=
  h.codes_prefix.length_le.trans_eq (bitSequence_length s)

theorem DecodesTo.length_le_codes (h : DecodesTo s ct syms) : syms.length ≤ (codesOf ct syms).length := by
  by_cases hne : syms = []
  · rw [hne]
    exact Nat.zero_le _
  · exact (h.coded hne).length_le

/-- BPOS is the total length of the codes: it does not wrap. -/
theorem DecodesTo.bpos_toNat (h : DecodesTo s ct syms) :
    (storeOutput syms (codesOf ct syms).length s).bpos.toNat = (codesOf ct syms).length := by
  rw [storeOutput_bpos, BitVec.toNat_ofNat, Nat.mod_eq_of_lt (h.codes_le_blen.trans_lt s.blen.isLt)]

/-- The walk after the codes of fewer symbols than are expected. -/
theorem DecodeChecked.exec_after_codes (h : DecodeChecked s) {t : HuffNode} (ht : denotedTree s = some t)
    (hcodes : ∀ b ∈ syms, t.codeOf b = some (codeBits (ctRead ct b))) (hlen : syms.length < s.explen.toNat)
    {rest : BitString} (hbits : bitSequence s = codesOf ct syms ++ rest) :
    exec .decode s = finishDecode s
      (decodeFrom s.node s.root s.explen.toNat rest { cur := s.root, bpos := (codesOf ct syms).length, out := syms }) := by
  obtain ⟨hroot, hat⟩ := denotedTree_eq_some_iff.1 ht
  rw [h.exec_eq, runWalk, if_neg (Nat.ne_zero_of_lt hlen), if_pos hroot, hbits,
    decodeFrom_codesOf_append hat hcodes rest (by simpa using hlen.le), Nat.zero_add, List.nil_append]

/-- What a DECODE leaves that raises CorruptArtifact inside the walk (R147, R186). -/
abbrev corrupted (s : State) (ocnt bpos : Nat) : State :=
  raiseError (.decode bpos) .corruptArtifact ocnt 0 (forgetOutput s)

/-- A sequence that ends inside a code raises CorruptArtifact at its end (R147). -/
theorem DecodeChecked.exec_of_short (h : DecodeChecked s) {t : HuffNode} (ht : denotedTree s = some t)
    (hcodes : ∀ b ∈ syms, t.codeOf b = some (codeBits (ctRead ct b))) (hlen : syms.length < s.explen.toNat)
    {b : Byte} {p q : BitString} (hb : t.codeOf b = some (p ++ q)) (hq : q ≠ [])
    (hbits : bitSequence s = codesOf ct syms ++ p) : exec .decode s = .next (corrupted s syms.length s.blen.toNat) := by
  obtain ⟨-, hat⟩ := denotedTree_eq_some_iff.1 ht
  have hblen : (codesOf ct syms).length + p.length = s.blen.toNat := by
    rw [← List.length_append, ← hbits, bitSequence_length]
  rw [h.exec_after_codes ht hcodes hlen hbits, decodeFrom_code_prefix hat hb hq rfl hlen, hblen, finishDecode]

/-- At a lone Leaf a 1 after some codes raises CorruptArtifact there (R144, R147). -/
theorem DecodeChecked.exec_of_one (h : DecodeChecked s) {y : Byte} {w : Nat} (ht : denotedTree s = some (.leaf y w))
    (hcodes : ∀ b ∈ syms, (HuffNode.leaf y w).codeOf b = some (codeBits (ctRead ct b)))
    (hlen : syms.length < s.explen.toNat) {rest : BitString} (hbits : bitSequence s = codesOf ct syms ++ true :: rest) :
    exec .decode s = .next (corrupted s syms.length ((codesOf ct syms).length + 1)) := by
  obtain ⟨-, hat⟩ := denotedTree_eq_some_iff.1 ht
  rw [h.exec_after_codes ht hcodes hlen hbits, decodeFrom_one_of_leaf hat rest hlen, finishDecode]

end AfterCodes

/-! ### What DECODE leaves in OBUF (R142, U5) -/

theorem memRead_memWriteList_zero (m : Memory) (vs : List Byte) (i : Nat) :
    memRead (memWriteList m 0 vs) i = vs.getD i (memRead m i) := by
  rw [memRead_memWriteList, if_pos i.zero_le, Nat.sub_zero, List.getD_eq_getElem?_getD]

theorem memRead_forgetOutput (s : State) {i : Nat} (hi : s.explen.toNat ≤ i) :
    memRead (forgetOutput s).obuf i = memRead s.obuf i := by
  rw [forgetOutput_obuf, memRead_memForgetBelow, if_neg hi.not_gt]

/-- The state that such a DECODE leaves, field by field (U5). -/
theorem exists_of_exec_corrupted {s : State} {ocnt bpos : Nat} (h : exec .decode s = .next (corrupted s ocnt bpos)) :
    ∃ m, exec .decode s = .next
        { s with
          err := 2#4, errpos := BitVec.ofNat 32 ocnt, errsym := 0#8, olen := 0#32, bpos := BitVec.ofNat 32 bpos, obuf := m
          fresh := s.fresh + 1 } ∧
      ∀ i, s.explen.toNat ≤ i → memRead m i = memRead s.obuf i :=
  ⟨_, h, fun _ => memRead_forgetOutput s⟩

/-- Settles O44: the codes lead from the root to their symbols, one after another. -/
theorem decodeOfCodesGivesSymbols : Obligations.DecodeOfCodesGivesSymbols := by
  intro s ct syms rest h he htree hexp hblen hct hall hlen hbits
  have hdec : DecodesTo s ct syms := ⟨⟨he, htree, hexp, hblen⟩, h.treeOk.codedBy htree hct hall, hlen, rest, hbits.symm⟩
  refine ⟨_, hdec.exec_eq, fun i hi => ?_, fun i hi => ?_⟩
  · rw [memRead_memWriteList_zero, List.getD_eq_getElem _ _ hi, List.getD_eq_getElem _ _ hi]
  · rw [memRead_memWriteList_zero, List.getD_eq_default _ _ hi]

/-- Settles O45: after the codes the walk ends inside a code, at the root or below it. -/
theorem decodeOfShortSequenceRaises : Obligations.DecodeOfShortSequenceRaises := by
  intro s ct syms p q b h he htree hexp hblen hct hall hlen hb hpq hq hbits
  obtain ⟨t, ht, hcodes⟩ := h.treeOk.codedBy htree hct (List.forall_mem_cons.2 ⟨hb, hall⟩) (List.cons_ne_nil b syms)
  obtain ⟨hcode, hcodes⟩ := List.forall_mem_cons.1 hcodes
  have hexec := DecodeChecked.exec_of_short ⟨he, htree, hexp, hblen⟩ ht hcodes hlen (hpq ▸ hcode) hq hbits
  simpa only [BitVec.ofNat_toNat, BitVec.setWidth_eq] using exists_of_exec_corrupted hexec

/-! ### The lone Leaf (R144) -/

theorem denotedTree_of_leaf {s : State} {r : NodeRec} (hroot : s.rootValid = true)
    (hr : nodeRead s.node s.root.toNat = some r) (hkind : r.kind = .leaf) :
    denotedTree s = some (.leaf r.sym r.weight.toNat) := by
  rw [denotedTree, if_pos hroot, treeAt, hr]
  simp only [hkind]

/-- The code table of a lone Leaf: the code "0" for its symbol (R123). -/
def loneTable (y : Byte) : Vector CodeRec 256 := ctWrite emptyCt y (pathRec [false])

theorem codeBits_loneTable (y : Byte) : codeBits (ctRead (loneTable y) y) = [false] := by
  rw [loneTable, ctRead_ctWrite, if_pos rfl, codeBits_pathRec (by decide)]

theorem codesOf_loneTable (y : Byte) (k : Nat) : codesOf (loneTable y) (List.replicate k y) = List.replicate k false := by
  induction k with
  | zero => rfl
  | succ k ih => rw [List.replicate_succ, codesOf_cons, ih, codeBits_loneTable]; rfl

theorem codeOf_loneTable (y : Byte) (w k : Nat) :
    ∀ b ∈ List.replicate k y, (HuffNode.leaf y w).codeOf b = some (codeBits (ctRead (loneTable y) b)) := by
  intro b hb
  rw [List.eq_of_mem_replicate hb, codeBits_loneTable]
  exact if_pos rfl

/-- Settles O43: each 0 is a code of the Leaf's symbol, after which the sequence goes on, ends or has a 1. -/
theorem decodeOfLoneLeaf : Obligations.DecodeOfLoneLeaf := by
  intro s r _ he htree hroot hr hkind _ hexp hblen
  have hchecked : DecodeChecked s := ⟨he, htree, hexp, hblen⟩
  have ht := denotedTree_of_leaf hroot hr hkind
  have hcodes := codeOf_loneTable r.sym r.weight.toNat
  have hzeros := codesOf_loneTable r.sym
  refine ⟨fun ⟨rest, hbits⟩ => ?_, fun k rest hk hbits => ?_, fun hk hbits => ?_⟩
  · have hdec : DecodesTo s (loneTable r.sym) (List.replicate s.explen.toNat r.sym) :=
      ⟨hchecked, fun _ => ⟨_, ht, hcodes _⟩, List.length_replicate, rest, by rw [hbits, hzeros]⟩
    have hexec := hdec.exec_eq
    rw [hzeros, List.length_replicate, storeOutput, BitVec.ofNat_toNat, BitVec.setWidth_eq] at hexec
    refine ⟨_, hexec, fun i hi => ?_, fun i hi => ?_⟩
    · rw [memRead_memWriteList_zero, List.getD_replicate _ hi]
    · rw [memRead_memWriteList_zero, List.getD_eq_default _ _ (List.length_replicate.trans_le hi)]
  · have hexec := hchecked.exec_of_one (syms := List.replicate k r.sym) ht (hcodes k) (List.length_replicate.trans_lt hk)
      (hbits.trans (by rw [hzeros]))
    rw [hzeros, List.length_replicate, List.length_replicate] at hexec
    exact exists_of_exec_corrupted hexec
  · have hexec := hchecked.exec_of_short (syms := List.replicate s.blen.toNat r.sym) (b := r.sym) (p := []) ht
      (hcodes _) (List.length_replicate.trans_lt hk) (if_pos rfl) (List.cons_ne_nil false [])
      (hbits.trans (by rw [hzeros, List.append_nil]))
    rw [List.length_replicate] at hexec
    simpa only [BitVec.ofNat_toNat, BitVec.setWidth_eq] using exists_of_exec_corrupted hexec

/-! ### What a DECODE can do (R141, R147, R150) -/

/-- The states a DECODE that raises an error leaves: before the walk nothing is consumed and OBUF stays; inside it, no more bits
are consumed than there are (R186, U5). -/
inductive DecodeRaises (s : State) : State → Prop
  | beforeWalk (e : Err) (he : errCode e = 2#4 ∨ errCode e = 4#4 ∨ errCode e = 5#4) :
      DecodeRaises s (raiseError (.decode 0) e 0 0 s)
  | inWalk (ocnt bpos : Nat) (hbpos : bpos ≤ s.blen.toNat) : DecodeRaises s (corrupted s ocnt bpos)

theorem DecodeRaises.err_ne_zero {s t : State} (h : DecodeRaises s t) : t.err ≠ 0#4 := by
  cases h with
  | beforeWalk e he => exact errCode_ne_zero e
  | inWalk ocnt bpos hbpos => exact errCode_ne_zero .corruptArtifact

/-- A DECODE that succeeds in a state of the invariant: the output is coded by the table of the tree. -/
structure DecodeSucceeds (s : State) (ct : Vector CodeRec 256) (syms : List Byte) : Prop extends DecodesTo s ct syms where
  table : codeTable s.node s.root s.rootValid = .ok ct
  allCoded : allCoded ct syms

theorem TreeOfTable.exists_codeTable {s : State} {t : HuffNode} (h : TreeOfTable s t) :
    ∃ ct, codeTable s.node s.root s.rootValid = .ok ct ∧ IsTableOf ct t := by
  obtain ⟨hroot, hat⟩ := denotedTree_eq_some_iff.1 h.denoted
  rw [hroot]
  exact codeTable_of_treeAt hat h.symbols_nodup

theorem DecodeChecked.cases {s : State} (h : DecodeChecked s) (htree : TreeOk s) :
    (∃ ct syms, DecodeSucceeds s ct syms) ∨ ∃ t, exec .decode s = .next t ∧ DecodeRaises s t := by
  rcases tree_cases_of_treeOk htree h.treeValid with ⟨-, hroot⟩ | ⟨t, ht⟩
  · by_cases hzero : s.explen.toNat = 0
    · exact .inl ⟨emptyCt, [], ⟨h, (absurd rfl ·), hzero.symm, List.nil_prefix⟩, by rw [hroot]; rfl, nofun⟩
    · exact .inr ⟨_, h.exec_of_empty hroot hzero, .beforeWalk _ (.inl rfl)⟩
  · obtain ⟨ct, hct, htable⟩ := ht.exists_codeTable
    obtain ⟨syms, rest, hall, hbits, hend⟩ := ht.exists_codesOf htable s.explen.toNat (bitSequence s)
    have hcodes : ∀ b ∈ syms, t.codeOf b = some (codeBits (ctRead ct b)) := fun b hb =>
      htable.codeOf_of_valid ht.leaves_length_le (hall b hb)
    rcases hend with hlen | ⟨hlen, ⟨b, q, hq, hcode⟩ | ⟨y, w, more, rfl, rfl⟩⟩
    · exact .inl ⟨ct, syms, ⟨h, fun _ => ⟨t, ht.denoted, hcodes⟩, hlen, rest, hbits.symm⟩, hct, hall⟩
    · exact .inr ⟨_, h.exec_of_short ht.denoted hcodes hlen hcode hq hbits, .inWalk _ _ le_rfl⟩
    · have hbpos : (codesOf ct syms).length + 1 ≤ s.blen.toNat := by
        rw [← bitSequence_length, hbits, List.length_append, List.length_cons]
        omega
      exact .inr ⟨_, h.exec_of_one ht.denoted hcodes hlen hbits, .inWalk _ _ hbpos⟩

theorem exec_decode_cases {s : State} (h : Inv s) (he : s.err = 0#4) :
    (∃ ct syms, DecodeSucceeds s ct syms) ∨ ∃ t, exec .decode s = .next t ∧ DecodeRaises s t := by
  rcases execDecode_cases (s := s) rfl with
    ⟨hpending, -⟩ | ⟨-, -, hseq⟩ | ⟨-, -, -, hcap⟩ | ⟨-, htree, hexp, hblen, -⟩
  · exact absurd he hpending
  · exact .inr ⟨_, hseq, .beforeWalk .sequence (.inr (.inl rfl))⟩
  · exact .inr ⟨_, hcap, .beforeWalk .capacity (.inr (.inr rfl))⟩
  · exact DecodeChecked.cases ⟨he, htree, hexp, hblen⟩ h.treeOk

/-- A DECODE that ends without an error has emitted the symbols whose codes its sequence starts with. -/
theorem exec_decode_succeeds {s t : State} (h : Inv s) (he : s.err = 0#4) (ht : exec .decode s = .next t) (hte : t.err = 0#4) :
    ∃ ct syms, DecodeSucceeds s ct syms ∧ t = storeOutput syms (codesOf ct syms).length s := by
  rcases exec_decode_cases h he with ⟨ct, syms, hdec⟩ | ⟨u, hu, hraises⟩
  · exact ⟨ct, syms, hdec, Host.Outcome.next.inj (ht.symm.trans hdec.exec_eq)⟩
  · rw [Host.Outcome.next.inj (ht.symm.trans hu)] at hte
    exact absurd hte hraises.err_ne_zero

/-- Settles O47: the walk emits EXPLEN symbols of at least one bit each, or an error is raised before it or inside it. -/
theorem decodeOutcome : Obligations.DecodeOutcome := by
  intro s h he
  rcases exec_decode_cases h he with ⟨ct, syms, hdec⟩ | ⟨t, ht, hraises⟩
  · have hbpos := hdec.bpos_toNat
    refine ⟨_, hdec.exec_eq, rfl, fun i hi => ?_, .inl ⟨he, rfl, ?_, ?_, rfl, rfl⟩⟩
    · rw [storeOutput_obuf, memRead_memWriteList_zero, List.getD_eq_default _ _ (hdec.length_eq.trans_le hi)]
    · rw [hbpos, storeOutput_olen, ← hdec.length_eq]
      exact hdec.length_le_codes
    · rw [hbpos]
      exact hdec.codes_le_blen
  · refine ⟨t, ht, ?_⟩
    cases hraises with
    | beforeWalk e hcode => exact ⟨rfl, fun _ _ => rfl, .inr ⟨hcode, rfl, rfl, Nat.zero_le _⟩⟩
    | inWalk ocnt bpos hbpos =>
      exact ⟨rfl, fun _ => memRead_forgetOutput s, .inr ⟨.inl rfl, rfl, rfl, (Nat.mod_le _ _).trans hbpos⟩⟩

/-- Settles O48: the bits consumed are the codes of the symbols emitted. -/
theorem bitsConsumedAreTheCodesOfTheOutput : Obligations.BitsConsumedAreTheCodesOfTheOutput := by
  intro s t ct h he ht hte hct
  obtain ⟨ct', syms, hdec, rfl⟩ := exec_decode_succeeds h he ht hte
  obtain rfl : ct' = ct := Except.ok.inj (hdec.table.symm.trans hct)
  rw [outputBytes_storeOutput hdec.length_eq, hdec.bpos_toNat]
  exact ⟨hdec.allCoded, (List.prefix_iff_eq_take.1 hdec.codes_prefix).symm, codesOf_length _ _⟩

/-! ### The bits after BPOS (R146) -/

/-- Two bit sequences that agree below `p` have the same first `p` bits. -/
theorem take_bitSequence_of_agree {s t : State} {p : Nat} (hs : p ≤ s.blen.toNat) (ht : p ≤ t.blen.toNat)
    (h : ∀ k, k < p → bitRead t.bits k = bitRead s.bits k) : (bitSequence t).take p = (bitSequence s).take p := by
  rw [bitSequence, bitSequence, ← List.map_take, ← List.map_take, List.take_range, List.take_range, min_eq_left hs,
    min_eq_left ht]
  exact List.map_congr_left fun k hk => h k (List.mem_range.1 hk)

/-- Settles O46: the other sequence starts with the codes of the output too. -/
theorem decodeNeverReadsPastItsPosition : Obligations.DecodeNeverReadsPastItsPosition := by
  intro s t m n h he ht hte hn hcap hagree
  obtain ⟨ct, syms, hdec, rfl⟩ := exec_decode_succeeds h he ht hte
  rw [hdec.bpos_toNat] at hn hagree
  have hprefix : codesOf ct syms <+: bitSequence { s with bits := m, blen := n } := by
    rw [List.prefix_iff_eq_take, take_bitSequence_of_agree hdec.codes_le_blen hn hagree]
    exact List.prefix_iff_eq_take.1 hdec.codes_prefix
  have hother : DecodesTo { s with bits := m, blen := n } ct syms :=
    ⟨⟨he, hdec.checked.treeValid, hdec.checked.explen_le, hcap⟩, hdec.coded, hdec.length_eq, hprefix⟩
  refine ⟨_, hother.exec_eq, he, rfl, rfl, ?_⟩
  rw [outputBytes_storeOutput hother.length_eq, outputBytes_storeOutput hdec.length_eq]

/-! ### The round trip (R151) -/

/-- A loop that ends without an error has laid down the codes of the bytes, each of which has one (R131, R132). -/
theorem encodeFrom_eq_done {ct : Vector CodeRec 256} {maxBits : Nat} {bytes : List Byte} {i pos : Nat} {bits : BitString}
    (h : encodeFrom ct maxBits bytes i pos = .done bits) : allCoded ct bytes ∧ bits = codesOf ct bytes := by
  induction bytes generalizing i pos bits with
  | nil =>
    cases h
    exact ⟨nofun, rfl⟩
  | cons b bytes ih =>
    rw [encodeFrom] at h
    split at h
    · next hvalid =>
      split at h
      · cases h
      · obtain ⟨rest, hrest, rfl⟩ := prependCode_eq_done h
        obtain ⟨hall, rfl⟩ := ih hrest
        exact ⟨List.forall_mem_cons.2 ⟨hvalid, hall⟩, rfl⟩
    · cases h

/-- An ENCODE that ends without an error passed its checks and stored the codes of its input, which fit (R131). -/
theorem exec_encode_succeeds {s t : State} (he : s.err = 0#4) (ht : exec .encode s = .next t) (hte : t.err = 0#4) :
    s.ilen.toNat ≤ s.params.maxLen ∧ allCoded s.ct (inputBytes s) ∧
      (codesOf s.ct (inputBytes s)).length ≤ s.params.maxBits ∧ t = storeSequence (codesOf s.ct (inputBytes s)) s := by
  rcases execEncode_cases ht with ⟨hpending, -⟩ | ⟨-, -, rfl⟩ | ⟨-, -, -, rfl⟩ | ⟨-, -, hlen, rfl⟩
  · exact absurd he hpending
  · exact absurd hte (errCode_ne_zero .sequence)
  · exact absurd hte (errCode_ne_zero .capacity)
  · cases hend : encodeFrom s.ct s.params.maxBits (inputBytes s) 0 0 with
    | done bits =>
      obtain ⟨hall, rfl⟩ := encodeFrom_eq_done hend
      have hfit := length_le_of_encodeFrom hend (Nat.zero_le _)
      exact ⟨hlen, hall, by omega, rfl⟩
    | mismatch i b =>
      rw [hend] at hte
      exact absurd hte (errCode_ne_zero .tableMismatch)
    | overflow i b =>
      rw [hend] at hte
      exact absurd hte (errCode_ne_zero .capacity)

/-- Settles O56: the bit sequence that ENCODE leaves is the codes of the input, and they are codes of the tree DECODE walks. -/
theorem decodeInvertsEncode : Obligations.DecodeInvertsEncode := by
  intro s t h he hct ht hte
  obtain ⟨hlen, hall, hfit, rfl⟩ := exec_encode_succeeds he ht hte
  obtain ⟨htree, htable⟩ := h.table_of_ctValid hct
  have hlt := hfit.trans_lt (Params.maxBits_lt_of_wf h.params_wf)
  have hbits : bitSequence { storeSequence (codesOf s.ct (inputBytes s)) s with explen := s.ilen } =
      codesOf s.ct (inputBytes s) := bitSequence_storeSequence s hlt
  have hblen : (storeSequence (codesOf s.ct (inputBytes s)) s).blen.toNat ≤ s.params.maxBits := by
    rw [storeSequence_blen, BitVec.toNat_ofNat, Nat.mod_eq_of_lt hlt]
    exact hfit
  have hdec : DecodesTo { storeSequence (codesOf s.ct (inputBytes s)) s with explen := s.ilen } s.ct (inputBytes s) :=
    ⟨⟨he, htree, hlen, hblen⟩, (h.storeSequence hfit).treeOk.codedBy htree htable hall, inputBytes_length s,
      [], (List.append_nil _).trans hbits.symm⟩
  refine ⟨_, hdec.exec_eq, he, outputBytes_storeOutput hdec.length_eq _, fun i hi => ?_, rfl, rfl⟩
  rw [storeOutput_obuf, memRead_memWriteList_zero, List.getD_eq_getElem _ _ (hi.trans_eq (inputBytes_length s).symm)]
  simp [inputBytes]

end Sys2Proof
end

section
/-! PROOFS. The statements of 45_system on the commands as a whole: what CLR clears (R162), what each command may change (R170),
and that in a state of the invariant every step answers a next state (R171). -/

namespace Sys2Proof

open Sys2Proof.Machine

/-! ### CLR (R162) -/

/-- Settles O49: CLR writes the empty table of counts, and every other field it writes is 0. -/
theorem clrClearsRegistersAndCounts : Obligations.ClrClearsRegistersAndCounts :=
  fun _ => ⟨emptyFt, rfl, ftRead_emptyFt⟩

/-! ### The frame of the commands (R74, R170) -/

/-- From `s` to `t` nothing changed but what the row of the command `i` in the operand table lets it change (R170). -/
def ChangesOnlyResults (i : Instr) (s t : State) : Prop :=
  t.ibuf = s.ibuf ∧ t.params = s.params ∧ t.pending = s.pending ∧ t.hostIndex = s.hostIndex ∧ t.reply = s.reply ∧
  (i ≠ .encode → t.bits = s.bits) ∧
  (i ≠ .decode → t.obuf = s.obuf) ∧
  (i ≠ .count → i ≠ .clr → t.ft = s.ft) ∧
  (i ≠ .build → t.node = s.node) ∧
  (i ≠ .mktab → t.ct = s.ct) ∧
  (i ≠ .clr → t.cmd = s.cmd ∧ t.ilen = s.ilen ∧ t.explen = s.explen) ∧
  (i ≠ .encode → i ≠ .clr → t.blen = s.blen) ∧
  (i ≠ .decode → i ≠ .clr → t.olen = s.olen ∧ t.bpos = s.bpos) ∧
  (i ≠ .count → i ≠ .build → i ≠ .clr →
    t.nsym = s.nsym ∧ t.root = s.root ∧ t.treeValid = s.treeValid ∧ t.rootValid = s.rootValid) ∧
  (i = .encode ∨ i = .decode → t.ctValid = s.ctValid) ∧
  (i ≠ .encode → i ≠ .decode → t.fresh = s.fresh) ∧
  (i ≠ .clr → t.err = s.err → t.errpos = s.errpos ∧ t.errsym = s.errsym)

theorem ChangesOnlyResults.refl (i : Instr) (s : State) : ChangesOnlyResults i s s := by
  simp [ChangesOnlyResults]

/-- Taking the first error after changes that are allowed: ERR changes with ERRPOS and ERRSYM, only ENCODE clears BLEN, and only
DECODE clears OLEN and sets BPOS (R186). -/
theorem ChangesOnlyResults.raiseError {i : Instr} {s t : State} (h : ChangesOnlyResults i s t) (he : s.err = 0#4) {c : Raiser}
    (hencode : c = .encode → i = .encode) (hdecode : ∀ q, c = .decode q → i = .decode) (e : Err) (pos : Nat) (sym : Byte) :
    ChangesOnlyResults i s (raiseError c e pos sym t) := by
  obtain ⟨hibuf, hparams, hpending, hindex, hreply, hbits, hobuf, hft, hnode, hct, hkept, hblen, hresults, htree, htable,
    hfresh, -⟩ := h
  have hblen' : i ≠ .encode → i ≠ .clr → (Machine.raiseError c e pos sym t).blen = s.blen := fun hi hclr => by
    rw [raiseError_blen, if_neg (mt hencode hi), hblen hi hclr]
  have hresults' : i ≠ .decode → i ≠ .clr → (Machine.raiseError c e pos sym t).olen = s.olen ∧
      (Machine.raiseError c e pos sym t).bpos = s.bpos := fun hi hclr => by
    have hc (q : Nat) : c ≠ .decode q := mt (hdecode q) hi
    rw [raiseError_olen_of_not_decode c e pos sym t hc, raiseError_bpos_of_not_decode c e pos sym t hc]
    exact hresults hi hclr
  have herr : (Machine.raiseError c e pos sym t).err ≠ s.err := by
    rw [raiseError_err, he]
    exact errCode_ne_zero e
  cases c <;> exact ⟨hibuf, hparams, hpending, hindex, hreply, hbits, hobuf, hft, hnode, hct, hkept, hblen', hresults', htree,
    htable, hfresh, fun _ hsame => absurd hsame herr⟩

theorem changesOnlyResults_finishEncode {s : State} (he : s.err = 0#4) (r : EncodeEnd) :
    ChangesOnlyResults .encode s (finishEncode s r) := by
  have hforget : ChangesOnlyResults .encode s (forgetBits s) := by simp [ChangesOnlyResults]
  cases r with
  | done bits => simp [finishEncode, ChangesOnlyResults]
  | mismatch i b => exact hforget.raiseError he (by simp) (by simp) _ _ _
  | overflow i b => exact hforget.raiseError he (by simp) (by simp) _ _ _

theorem changesOnlyResults_storeOutput (out : List Byte) (bpos : Nat) (s : State) :
    ChangesOnlyResults .decode s (storeOutput out bpos s) := by
  simp [ChangesOnlyResults]

theorem changesOnlyResults_finishDecode {s t : State} (he : s.err = 0#4) {r : DecodeEnd} (ht : finishDecode s r = .next t) :
    ChangesOnlyResults .decode s t := by
  have hforget : ChangesOnlyResults .decode s (forgetOutput s) := by simp [ChangesOnlyResults]
  cases r with
  | done out bpos =>
    cases ht
    exact changesOnlyResults_storeOutput out bpos s
  | corrupt ocnt bpos =>
    cases ht
    exact hforget.raiseError he (by simp) (by simp) _ _ _
  | stuck f => cases ht

/-- The walk of a DECODE writes OBUF, OLEN and BPOS, or takes an error (R142, R147). -/
theorem changesOnlyResults_runWalk {s t : State} (he : s.err = 0#4) (ht : runWalk s = .next t) :
    ChangesOnlyResults .decode s t := by
  rcases runWalk_cases s with ⟨-, hwalk⟩ | ⟨-, -, hwalk⟩ | ⟨-, -, hwalk⟩
  · cases hwalk.symm.trans ht
    exact changesOnlyResults_storeOutput [] 0 s
  · cases hwalk.symm.trans ht
    exact (ChangesOnlyResults.refl .decode s).raiseError he (by simp) (by simp) _ _ _
  · exact changesOnlyResults_finishDecode he (hwalk.symm.trans ht)

/-- Settles O50: a command is ignored, takes an error, or writes its results. -/
theorem commandsChangeOnlyTheirResults : Obligations.CommandsChangeOnlyTheirResults := by
  intro i s t ht
  have hsame := ChangesOnlyResults.refl i s
  show ChangesOnlyResults i s t
  cases i with
  | count =>
    rcases execCount_cases ht with ⟨-, rfl⟩ | ⟨he, -, rfl⟩ | ⟨-, -, rfl⟩
    · exact hsame
    · exact hsame.raiseError he (by simp) (by simp) _ _ _
    · simp [ChangesOnlyResults]
  | build =>
    rcases execBuild_cases ht with ⟨-, rfl⟩ | ⟨he, -, rfl⟩ | ⟨-, -, rfl⟩
    · exact hsame
    · exact hsame.raiseError he (by simp) (by simp) _ _ _
    · simp [ChangesOnlyResults]
  | mktab =>
    rcases execMktab_cases ht with ⟨-, rfl⟩ | ⟨he, -, rfl⟩ | ⟨-, -, ct, -, rfl⟩
    · exact hsame
    · exact hsame.raiseError he (by simp) (by simp) _ _ _
    · simp [ChangesOnlyResults]
  | encode =>
    rcases execEncode_cases ht with ⟨-, rfl⟩ | ⟨he, -, rfl⟩ | ⟨he, -, -, rfl⟩ | ⟨he, -, -, rfl⟩
    · exact hsame
    · exact hsame.raiseError he (by simp) (by simp) _ _ _
    · exact hsame.raiseError he (by simp) (by simp) _ _ _
    · exact changesOnlyResults_finishEncode he _
  | decode =>
    rcases execDecode_cases ht with ⟨-, hnext⟩ | ⟨he, -, hnext⟩ | ⟨he, -, -, hnext⟩ | ⟨he, -, -, -, hwalk⟩
    · cases hnext
      exact hsame
    · cases hnext
      exact hsame.raiseError he (by simp) (by simp) _ _ _
    · cases hnext
      exact hsame.raiseError he (by simp) (by simp) _ _ _
    · exact changesOnlyResults_runWalk he hwalk.symm
  | clr =>
    cases ht
    simp [ChangesOnlyResults]

/-! ### Every step answers (R171) -/

/-- MKTAB without a valid tree (R183). -/
theorem exec_mktab_of_invalid {s : State} (he : s.err = 0#4) (htree : s.treeValid = false) :
    exec .mktab s = .next (raiseError .mktab .sequence 0 0 s) := by
  show execMktab s = _
  rw [execMktab, unlessPending_of_clear he, if_neg (Bool.eq_false_iff.1 htree)]

/-- Only MKTAB and DECODE follow node indices, and with the tree that BUILD makes neither meets one that names nothing (R150). -/
theorem Inv.exec_answers {s : State} (h : Inv s) (i : Instr) : ∃ t, Machine.exec i s = .next t := by
  by_cases he : s.err = 0#4
  · cases i with
    | count =>
      simp only [Machine.exec, execCount, unlessPending_of_clear he]
      split <;> exact ⟨_, rfl⟩
    | build =>
      simp only [Machine.exec, execBuild, unlessPending_of_clear he]
      split <;> exact ⟨_, rfl⟩
    | mktab =>
      cases htree : s.treeValid with
      | false => exact ⟨_, exec_mktab_of_invalid he htree⟩
      | true =>
        obtain ⟨ct, ht, -⟩ := mktabRecordsPaths s h he htree
        exact ⟨_, ht⟩
    | encode =>
      simp only [Machine.exec, execEncode, unlessPending_of_clear he]
      split
      · split <;> exact ⟨_, rfl⟩
      · exact ⟨_, rfl⟩
    | decode =>
      obtain ⟨t, ht, -⟩ := decodeOutcome s h he
      exact ⟨t, ht⟩
    | clr => exact ⟨_, rfl⟩
  · by_cases hclr : i = .clr
    · subst hclr
      exact ⟨_, rfl⟩
    · exact ⟨_, exec_of_pending he hclr⟩

/-- Every word written to CMD answers, legal or not (R76, R160). -/
theorem Inv.issueCommand_answers {s : State} (h : Inv s) (v : Nat) : ∃ t, Machine.issueCommand s v = .next t := by
  rcases decodeCommand_cases (commandWord v) with ⟨i, hi⟩ | hillegal
  · rw [issueCommand_ok hi]
    exact (h.regWrite v .cmd).exec_answers i
  · rw [issueCommand_illegal hillegal, unlessPending]
    split <;> exact ⟨_, rfl⟩

theorem Inv.writeReg_answers {s : State} (h : Inv s) (v : Nat) (r : Reg) : ∃ t, Machine.writeReg s v r = .next t := by
  cases r with
  | cmd => exact h.issueCommand_answers v
  | status | ilen | blen | explen | olen | nsym | root | bpos | errpos | errsym => exact ⟨_, rfl⟩

theorem Inv.writeElement_answers {s : State} (h : Inv s) (sp : Space) (i v : Nat) :
    ∃ t, Machine.writeElement s sp i v = .next t := by
  cases sp with
  | reg =>
    rw [Machine.writeElement]
    split
    · exact h.writeReg_answers v _
    · exact ⟨_, rfl⟩
  | ft | ibuf | bits | obuf | node | ct => exact ⟨_, rfl⟩

/-- A host write answers, at an address that does not exist too (R61). -/
theorem Inv.hostWrite_answers {s : State} (h : Inv s) (n i v : Nat) : ∃ t, Machine.hostWrite s n i v = .next t := by
  rw [Machine.hostWrite]
  split
  · exact ⟨_, rfl⟩
  · split
    · exact h.writeElement_answers _ i v
    · exact ⟨_, rfl⟩

theorem Inv.perform_answers {s : State} (h : Inv s) (a : HostAction) : ∃ t, Machine.perform s a = .next t := by
  cases a with
  | read n i => exact ⟨_, rfl⟩
  | write n i v => exact h.hostWrite_answers n i v
  | reset => exact ⟨_, rfl⟩

/-- Settles O55: the parameters are in range, and every action the host may ask for answers. -/
theorem stepNeverStops : Obligations.StepNeverStops := by
  intro s h
  cases hpending : s.pending with
  | nil => exact ⟨s, step_idle h.params_wf hpending⟩
  | cons a rest =>
    have hact : Inv (acceptAction s rest) := h
    rw [step_perform h.params_wf hpending]
    exact hact.perform_answers a

end Sys2Proof
end

section
/-! PROOFS. The statements of 60_exceptions: the checks a command makes before it processes anything, Sequence first (R183, R190)
and then Capacity (R184), and that a pending error is left by CLR or reset alone (R188, R189). -/

namespace Sys2Proof

open Sys2Proof.Machine

/-! ### A pending error stays (R188, R189) -/

/-- The outcome `o` is a next state, in which ERR, ERRPOS and ERRSYM are those of `s`. -/
def AnswersWithErrorOf (s : State) (o : Host.Outcome State Fault Refusal) : Prop :=
  ∃ t, o = .next t ∧ t.err = s.err ∧ t.errpos = s.errpos ∧ t.errsym = s.errsym

theorem answersWithErrorOf_next_self (s : State) : AnswersWithErrorOf s (.next s) := ⟨s, rfl, rfl, rfl, rfl⟩

/-- No store to a register touches the error, as the three registers that show it are read-only (R21). -/
theorem answersWithErrorOf_regWrite (s : State) (v : Nat) (r : Reg) : AnswersWithErrorOf s (.next (regWrite s v r)) := by
  cases r <;> exact ⟨_, rfl, rfl, rfl, rfl⟩

/-- A host read changes the reply and the counter of free values alone (R59). -/
theorem answersWithErrorOf_hostRead (s : State) (n i : Nat) : AnswersWithErrorOf s (.next (hostRead s n i)) := by
  obtain ⟨reply, fresh, -, hread⟩ := hostRead_eq s n i
  exact ⟨_, congrArg Host.Outcome.next hread, rfl, rfl, rfl⟩

/-- A host write does nothing, or is the write to an element that exists (R61). -/
theorem hostWrite_cases (s : State) (n i v : Nat) :
    hostWrite s n i v = .next s ∨
    ∃ sp, spaceOfNumber n = some sp ∧ hostWrite s n i v = writeElement s sp i v := by
  by_cases h : ∃ sp, spaceOfNumber n = some sp ∧ i < elementCount s.params sp
  · obtain ⟨sp, hsp, hi⟩ := h
    exact .inr ⟨sp, hsp, hostWrite_element hsp hi⟩
  · exact .inl (hostWrite_eq_self fun sp hsp hi => absurd ⟨sp, hsp, hi⟩ h)

/-- Of the registers only CMD starts anything, and while an error is pending only the word of CLR does there (R77). -/
theorem answersWithErrorOf_writeReg {s : State} {v : Nat} {r : Reg} (he : s.err ≠ 0#4) (hclr : r = .cmd → v % 256 ≠ 6) :
    AnswersWithErrorOf s (writeReg s v r) := by
  cases r with
  | cmd =>
    rw [writeReg, issueCommand_of_pending he (hclr rfl)]
    exact answersWithErrorOf_regWrite s v .cmd
  | status | ilen | blen | explen | olen | nsym | root | bpos | errpos | errsym => exact answersWithErrorOf_regWrite s v _

theorem answersWithErrorOf_writeElement {s : State} {sp : Space} {i v : Nat} (he : s.err ≠ 0#4)
    (hclr : sp = .reg → i = 0 → v % 256 ≠ 6) : AnswersWithErrorOf s (writeElement s sp i v) := by
  cases sp with
  | reg =>
    rw [writeElement]
    split
    · next r hr =>
      exact answersWithErrorOf_writeReg he fun hcmd => hclr rfl ((eq_regNumber_of_regOfNumber hr).trans (congrArg regNumber hcmd))
    · exact answersWithErrorOf_next_self s
  | ft | ibuf | bits | obuf | node | ct => exact ⟨_, rfl, rfl, rfl, rfl⟩

theorem answersWithErrorOf_hostWrite {s : State} {n i v : Nat} (he : s.err ≠ 0#4) (hclr : n = 0 → i = 0 → v % 256 ≠ 6) :
    AnswersWithErrorOf s (hostWrite s n i v) := by
  rcases hostWrite_cases s n i v with hsame | ⟨sp, hsp, hwrite⟩
  · exact hsame ▸ answersWithErrorOf_next_self s
  · rw [hwrite]
    exact answersWithErrorOf_writeElement he fun hreg =>
      hclr ((eq_spaceNumber_of_spaceOfNumber hsp).trans (congrArg spaceNumber hreg))

/-- Settles O52: neither a read nor a write that is not the issue of CLR touches the error, and no other action but reset is left. -/
theorem pendingErrorSurvivesEveryOtherAction : Obligations.PendingErrorSurvivesEveryOtherAction := by
  intro s a rest hp hpending he hreset hclr
  rw [step_perform hp hpending]
  show AnswersWithErrorOf (acceptAction s rest) (perform (acceptAction s rest) a)
  cases a with
  | read n i => exact answersWithErrorOf_hostRead _ n i
  | write n i v =>
    refine answersWithErrorOf_hostWrite he ?_
    rintro rfl rfl
    exact hclr v rfl
  | reset => exact absurd rfl hreset

/-! ### Sequence: the tree or table that a command needs is missing (R183, R190) -/

theorem exec_encode_of_invalid {s : State} (he : s.err = 0#4) (hct : s.ctValid = false) :
    exec .encode s = .next (raiseError .encode .sequence 0 0 s) := by
  show execEncode s = _
  rw [execEncode, unlessPending_of_clear he, if_neg (Bool.eq_false_iff.1 hct)]

theorem exec_decode_of_invalid {s : State} (he : s.err = 0#4) (htree : s.treeValid = false) :
    exec .decode s = .next (raiseError (.decode 0) .sequence 0 0 s) := by
  show execDecode s = _
  rw [execDecode, unlessPending_of_clear he, if_neg (Bool.eq_false_iff.1 htree)]

/-- Settles O22: the flag is looked at before the lengths, and `raiseError` writes the error and the command's result lengths. -/
theorem sequenceChecks : Obligations.SequenceChecks := fun _ he =>
  ⟨fun htree => ⟨exec_mktab_of_invalid he htree, exec_decode_of_invalid he htree⟩, exec_encode_of_invalid he⟩

/-! ### Capacity: an operand does not fit (R184) -/

theorem exec_count_of_long {s : State} (he : s.err = 0#4) (hlen : s.params.maxLen < s.ilen.toNat) :
    exec .count s = .next (raiseError .count .capacity 0 0 s) := by
  show execCount s = _
  rw [execCount, unlessPending_of_clear he, if_pos hlen]

theorem exec_build_of_large {s : State} (he : s.err = 0#4) (hsum : 2 ^ 32 - 1 < ftSum s.ft) :
    exec .build s = .next (raiseError .build .capacity 0 0 s) := by
  show execBuild s = _
  rw [execBuild, unlessPending_of_clear he, if_pos hsum]

theorem exec_encode_of_long {s : State} (he : s.err = 0#4) (hct : s.ctValid = true) (hlen : s.params.maxLen < s.ilen.toNat) :
    exec .encode s = .next (raiseError .encode .capacity 0 0 s) := by
  show execEncode s = _
  rw [execEncode, unlessPending_of_clear he, if_pos hct, if_pos hlen]

/-- The two checks of DECODE raise the same error, so their order does not show (R141). -/
theorem exec_decode_of_long {s : State} (he : s.err = 0#4) (htree : s.treeValid = true)
    (hlen : s.params.maxLen < s.explen.toNat ∨ s.params.maxBits < s.blen.toNat) :
    exec .decode s = .next (raiseError (.decode 0) .capacity 0 0 s) := by
  show execDecode s = _
  rw [execDecode, unlessPending_of_clear he, if_pos htree]
  by_cases hexp : s.params.maxLen < s.explen.toNat
  · exact if_pos hexp
  · rw [if_neg hexp, if_pos (hlen.resolve_left hexp)]

/-- Settles O21: each check is the first of its command once the flag is there, and nothing is written before it. -/
theorem capacityChecks : Obligations.CapacityChecks := fun _ he =>
  ⟨exec_count_of_long he, exec_build_of_large he, exec_encode_of_long he, exec_decode_of_long he⟩

end Sys2Proof
end

section
/-! PROOFS. What every step starts from: the state after reset (R48, R200) and its invariant, the registers as the host reads them
(R21), and the step itself: idle, refused (U8), or running the command word written to CMD (R70, R160). -/

namespace Sys2Proof

open Sys2Proof.Machine

/-! ### Reset (R48, R200) -/

/-- The state after reset is what a reset event leaves when the free values are named from 0 on. -/
theorem resetEvent_reset : resetEvent { State.reset with fresh := 0 } = State.reset := rfl

theorem registersCleared_resetEvent (s : State) : RegistersCleared (resetEvent s) := by
  refine ⟨fun r => ?_, rfl, rfl, rfl, rfl, ftRead_emptyFt⟩
  cases r with
  | status => exact BitVec.eq_of_toNat_eq (statusWordFields (resetEvent s))
  | cmd | ilen | blen | explen | olen | nsym | root | bpos | errpos | errsym => rfl

theorem memoriesUnspecified_resetEvent (s : State) : MemoriesUnspecified (resetEvent s) := by
  refine ⟨rfl, rfl, rfl, ⟨s.fresh + 3, fun i hi => ?_⟩, ⟨s.fresh + 4, fun b => Vector.getElem_ofFn b.isLt⟩⟩
  exact (dif_pos hi).trans (congrArg some (Vector.getElem_ofFn hi))

/-- Settles O7: the state after reset and the reset event are one function, which clears the registers and writes free values. -/
theorem resetValues : Obligations.ResetValues := by
  refine ⟨resetEvent_reset ▸ registersCleared_resetEvent _, resetEvent_reset ▸ memoriesUnspecified_resetEvent _, ?_⟩
  intro s rest hp hpending
  exact ⟨resetEvent (acceptAction s rest), step_perform hp hpending, registersCleared_resetEvent _,
    memoriesUnspecified_resetEvent _, rfl, rfl⟩

/-- Settles O53: the default parameters are in range, and a reset event needs no more of the state. -/
theorem invHoldsAtReset : Obligations.InvHoldsAtReset := by
  unfold Obligations.InvHoldsAtReset
  rw [← resetEvent_reset]
  exact inv_resetEvent (by decide)

/-! ### The registers as the host reads them (R21) -/

/-- Settles O9: no narrow register is wider than 32 bits, so widening keeps its value. -/
theorem narrowRegistersReadZeroExtended : Obligations.NarrowRegistersReadZeroExtended := by
  intro s
  refine ⟨?_, ?_, ?_, ?_, rfl, rfl, rfl, rfl, rfl, rfl⟩
  all_goals exact BitVec.toNat_setWidth_of_le (by decide)

/-! ### The step (R70, R160, U8) -/

/-- Settles O15: the parameters are looked at first, then whether the host has an action. -/
theorem idleAndRefusedSteps : Obligations.IdleAndRefusedSteps := fun _ => ⟨step_idle, step_badParameters⟩

/-- Settles O3: the write to CMD issues the word, and a word that decodes to a command runs it. -/
theorem stepRunsIssuedCommand : Obligations.StepRunsIssuedCommand :=
  fun _ _ _ _ hp hpending hdecode _ => (step_write_cmd hp hpending).trans (issueCommand_ok hdecode)

theorem commandWord_eq_of_mod_eq {v w : Nat} (h : v % 256 = w % 256) : commandWord v = commandWord w := by
  rw [← BitVec.toNat_inj, commandWord_toNat, commandWord_toNat, h]

/-- The issue of a command sees of the value written only the command word (R70). -/
theorem issueCommand_eq_of_commandWord_eq (s : State) {v w : Nat} (h : commandWord v = commandWord w) :
    issueCommand s v = issueCommand s w := by
  have hstore : regWrite s v .cmd = regWrite s w .cmd := congrArg (fun word => { s with cmd := word }) h
  rw [issueCommand, issueCommand, hstore, h]

/-- Settles O4: values that agree in the low 8 bits have the same command word; with bad parameters both steps are refused. -/
theorem highBitsOfCommandWordIgnored : Obligations.HighBitsOfCommandWordIgnored := by
  intro s v w rest hlow
  cases hp : s.params.wf with
  | false =>
    have hrefused (a : HostAction) : step { s with pending := a :: rest } = .refused .badParameters := step_badParameters hp
    rw [hrefused, hrefused]
  | true =>
    have hissue (x : Nat) : step { s with pending := .write 0 0 x :: rest } = issueCommand (acceptAction s rest) x :=
      step_write_cmd hp rfl
    rw [hissue, hissue, issueCommand_eq_of_commandWord_eq _ (commandWord_eq_of_mod_eq hlow)]

end Sys2Proof
end
